-- ==== Sys2Proof/Word.lean ====
section
/-! DEFINITION. The two word sizes of the host bus (20_memory.md R47, 00_scope.md R12). -/

namespace Sys2Proof

/-- A byte is 8 bits (R12). -/
abbrev Byte := BitVec 8

/-- A register access on the host bus is one 32-bit word (R45, R47). -/
abbrev Word := BitVec 32

end Sys2Proof
end

