-- ==== Sys2Proof/Machine/Fields.lean ====
section
/-! DEFINITION. The bit fields of the two code formats: the command word (30_encoding.md R66) and the control byte (R61). -/

namespace Sys2Proof

/-- `CMD[2:0]`, `OP`. -/
def cmdOp (w : Word) : BitVec 3 := w.extractLsb' 0 3
/-- `CMD[4:3]`, `KIND`. -/
def cmdKind (w : Word) : BitVec 2 := w.extractLsb' 3 2
/-- `CMD[7:5]`, `SEQ`. -/
def cmdSeq (w : Word) : BitVec 3 := w.extractLsb' 5 3
/-- `CMD[31:8]`, reserved. -/
def cmdHigh (w : Word) : BitVec 24 := w.extractLsb' 8 24
/-- `CMD[31:3]`, all that is not the opcode. -/
def cmdRest (w : Word) : BitVec 29 := w.extractLsb' 3 29

/-- `c[1:0]`. -/
def ctlLow (c : Byte) : BitVec 2 := c.extractLsb' 0 2
/-- `c[3:2]`, the supervisory type (R62). -/
def ctlType (c : Byte) : BitVec 2 := c.extractLsb' 2 2
/-- `c[3:1]`, the send-sequence field. -/
def ctlNs (c : Byte) : BitVec 3 := c.extractLsb' 1 3
/-- `c[4]`, poll/final. -/
def ctlPf (c : Byte) : BitVec 1 := c.extractLsb' 4 1
/-- `c[4:2]`, not interpreted in an unnumbered byte. -/
def ctlMid (c : Byte) : BitVec 3 := c.extractLsb' 2 3
/-- `c[7:5]`, the receive-sequence field. -/
def ctlNr (c : Byte) : BitVec 3 := c.extractLsb' 5 3

end Sys2Proof
end

