-- ==== Sys2Proof/Syntax.lean ====
section
/-! DEFINITION. The instructions: one constructor per row of spec/opcode_table.json. -/

namespace Sys2Proof

/-- A frame kind (30_encoding.md R65). -/
inductive Kind where
  | data
  | ack
  | nack
  deriving DecidableEq, Repr

/-- A control descriptor, the pair (kind, seq) (00_scope.md section 5). -/
structure Descriptor where
  kind : Kind
  seq : BitVec 3
  deriving DecidableEq, Repr

/-- The rows of the opcode table: the command words (R66, R68), the internal functions (R73, R81, R82, R84, R85),
and the classes of a received control byte (R64). -/
inductive Instr where
  /-- `RESET_STATE` (R126). -/
  | resetState
  /-- `ENCODE` with kind Data (R87). -/
  | encodeData (seq : BitVec 3)
  /-- `ENCODE` with kind Acknowledge (R87). -/
  | encodeAck (seq : BitVec 3)
  /-- `ENCODE` with kind NegativeAcknowledge (R87). -/
  | encodeNack (seq : BitVec 3)
  /-- `ENCODE` with the reserved kind code 3 (R88). -/
  | encodeKind3 (seq : BitVec 3)
  /-- `DECODE` (R97). -/
  | decode
  /-- `GET_STATE` (R127). -/
  | getState
  /-- `SET_STATE` (R128). -/
  | setState
  /-- Reserved opcode 5, whatever bits 31:3 hold (R130). -/
  | reserved5 (rest : BitVec 29)
  /-- Reserved opcode 6 (R130). -/
  | reserved6 (rest : BitVec 29)
  /-- Reserved opcode 7 (R130). -/
  | reserved7 (rest : BitVec 29)
  /-- Any other illegal command word, whole (R68). -/
  | illegalHighBits (word : Word)
  /-- `CRC_STEP(c, b)` (R73); `c` at width `CRC_W` in a 32-bit word. -/
  | crcStep (c : Word) (b : Byte)
  /-- `ESC_ENCODE_ONE(b)` (R81). -/
  | escEncodeOne (b : Byte)
  /-- `ESC_DECODE_ONE(b, pending)` (R82). -/
  | escDecodeOne (b : Byte) (pending : Bool)
  /-- `CTL_ENCODE(kind, seq)` (R84). -/
  | ctlEncode (kind : Kind) (seq : BitVec 3)
  /-- `CTL_DECODE(c)` (R85). -/
  | ctlDecode (c : Byte)
  /-- A received information control byte: `c[3:1]`, `c[4]`, `c[7:5]` (R61, R64). -/
  | ctlI (ns : BitVec 3) (pf : BitVec 1) (nr : BitVec 3)
  /-- Supervisory receive-ready: `c[4]`, `c[7:5]` (R64). -/
  | ctlSRr (pf : BitVec 1) (nr : BitVec 3)
  /-- Supervisory receive-not-ready (R64). -/
  | ctlSRnr (pf : BitVec 1) (nr : BitVec 3)
  /-- Supervisory reject (R64). -/
  | ctlSRej (pf : BitVec 1) (nr : BitVec 3)
  /-- Supervisory selective-reject (R64). -/
  | ctlSSrej (pf : BitVec 1) (nr : BitVec 3)
  /-- Unnumbered: `c[4:2]`, not interpreted, and `c[7:5]` (R61, R64). -/
  | ctlU (mid : BitVec 3) (nr : BitVec 3)
  deriving DecidableEq, Repr

end Sys2Proof
end

