-- ==== Sys2Proof/Decode.lean ====
section
/-! DEFINITION. From code words to instructions and back (30_encoding.md R61 to R68, opcode_table.json).
There are two formats: the 32-bit command word and the received control byte. The internal functions have no code. -/

namespace Sys2Proof

/-- A code word in one of the two formats of the opcode table. -/
inductive Code where
  /-- Format CMD32: a word written to `CMD` (R66). -/
  | cmd (w : Word)
  /-- Format CONTROL8: a resolved control byte (R61). -/
  | ctl (c : Byte)
  deriving DecidableEq, Repr

/-- The command a written word stands for, total on all words (R66, R68). -/
def decodeCmd (w : Word) : Instr :=
  match (cmdOp w).toNat with
  | 0 => if cmdRest w = 0#29 then .resetState else .illegalHighBits w
  | 1 =>
    if cmdHigh w = 0#24 then
      match (cmdKind w).toNat with
      | 0 => .encodeData (cmdSeq w)
      | 1 => .encodeAck (cmdSeq w)
      | 2 => .encodeNack (cmdSeq w)
      | _ => .encodeKind3 (cmdSeq w)
    else .illegalHighBits w
  | 2 => if cmdRest w = 0#29 then .decode else .illegalHighBits w
  | 3 => if cmdRest w = 0#29 then .getState else .illegalHighBits w
  | 4 => if cmdRest w = 0#29 then .setState else .illegalHighBits w
  | 5 => .reserved5 (cmdRest w)
  | 6 => .reserved6 (cmdRest w)
  | _ => .reserved7 (cmdRest w)

/-- The class of a received control byte, total on all 256 values (R64). -/
def decodeCtl (c : Byte) : Instr :=
  match (ctlLow c).toNat with
  | 1 =>
    match (ctlType c).toNat with
    | 0 => .ctlSRr (ctlPf c) (ctlNr c)
    | 1 => .ctlSRnr (ctlPf c) (ctlNr c)
    | 2 => .ctlSRej (ctlPf c) (ctlNr c)
    | _ => .ctlSSrej (ctlPf c) (ctlNr c)
  | 3 => .ctlU (ctlMid c) (ctlNr c)
  | _ => .ctlI (ctlNs c) (ctlPf c) (ctlNr c)

/-- The instruction of a code word. -/
def decodeCode : Code → Instr
  | .cmd w => decodeCmd w
  | .ctl c => decodeCtl c

/-- The code of an instruction, written from the table's fixed bits and fields; the internal functions have none. -/
def encode : Instr → Option Code
  | .resetState => some (.cmd 0#32)
  | .encodeData seq => some (.cmd (0#24 ++ seq ++ 0#2 ++ 1#3))
  | .encodeAck seq => some (.cmd (0#24 ++ seq ++ 1#2 ++ 1#3))
  | .encodeNack seq => some (.cmd (0#24 ++ seq ++ 2#2 ++ 1#3))
  | .encodeKind3 seq => some (.cmd (0#24 ++ seq ++ 3#2 ++ 1#3))
  | .decode => some (.cmd 2#32)
  | .getState => some (.cmd 3#32)
  | .setState => some (.cmd 4#32)
  | .reserved5 rest => some (.cmd (rest ++ 5#3))
  | .reserved6 rest => some (.cmd (rest ++ 6#3))
  | .reserved7 rest => some (.cmd (rest ++ 7#3))
  | .illegalHighBits word => some (.cmd word)
  | .crcStep _ _ | .escEncodeOne _ | .escDecodeOne _ _ | .ctlEncode _ _ | .ctlDecode _ => none
  | .ctlI ns pf nr => some (.ctl (nr ++ pf ++ ns ++ 0#1))
  | .ctlSRr pf nr => some (.ctl (nr ++ pf ++ 0#2 ++ 1#2))
  | .ctlSRnr pf nr => some (.ctl (nr ++ pf ++ 1#2 ++ 1#2))
  | .ctlSRej pf nr => some (.ctl (nr ++ pf ++ 2#2 ++ 1#2))
  | .ctlSSrej pf nr => some (.ctl (nr ++ pf ++ 3#2 ++ 1#2))
  | .ctlU mid nr => some (.ctl (nr ++ mid ++ 3#2))

/-- Why bits given as a table row's word are no code word. -/
inductive DecodeError where
  /-- No format has this many bits. -/
  | noFormatOfWidth (nbits : Nat)
  /-- A bit is set above the row's width. -/
  | bitsAboveWidth (nbits w : Nat)
  deriving DecidableEq, Repr

/-- The code word whose bits, numbered as the opcode table numbers them, are `w`.
DESIGN CHOICE (log 8): eight bits are a control byte, but 5, 6 and 7 are the reserved opcodes, of whose rows the
table fixes the low three bits only; more bits, up to 32, are a command word. -/
def tableCode (nbits w : Nat) : Except DecodeError Code :=
  if 2 ^ nbits ≤ w then .error (.bitsAboveWidth nbits w)
  else if nbits = 8 then
    if 5 ≤ w && w ≤ 7 then .ok (.cmd (BitVec.ofNat 32 w)) else .ok (.ctl (BitVec.ofNat 8 w))
  else if 8 < nbits && nbits ≤ 32 then .ok (.cmd (BitVec.ofNat 32 w))
  else .error (.noFormatOfWidth nbits)

/-- The instruction of a table row's word, or why there is none. -/
def decodeBits (nbits w : Nat) : Except DecodeError Instr :=
  match tableCode nbits w with
  | .ok c => .ok (decodeCode c)
  | .error e => .error e

/-- The instruction this decoder reads from a table row's word. -/
def decodeTableWord (nbits w : Nat) : Option Instr :=
  match decodeBits nbits w with
  | .ok i => some i
  | .error _ => none

end Sys2Proof
end

