-- ==== Sys2Proof/Config.lean ====
section
/-! DEFINITION. The parameters a core is built with (00_scope.md R5 to R10), and the checksum functions a platform
may pass in place of the default ones: constants without a body, so nothing can be proved of their values (log 4). -/

namespace Sys2Proof

/-- `CRC_W`, the checksum width (R6). -/
inductive CrcWidth where
  | w16
  | w32
  deriving DecidableEq, Repr

/-- `CRC`, the checksum accumulator chosen for the width (R7): the default one of R78 and R79, or the platform's own. -/
inductive CrcChoice where
  | standard
  | platform
  deriving DecidableEq, Repr

/-- The parameters of one core, fixed when it is built (R5 to R10, R145).
DESIGN CHOICE (log 1): they stand in `State` as plain data that no step changes. -/
structure Params where
  /-- `FLAG_SWAP` (R5). -/
  flagSwap : Bool
  /-- `CRC_W` (R6). -/
  crcWidth : CrcWidth
  /-- `CRC` (R7). -/
  crc : CrcChoice
  /-- `CW`, the counter width in bits (R9). -/
  cw : Nat
  /-- `IBUF_SIZE` (R10). -/
  ibufSize : Nat
  /-- `DBUF_SIZE` (R10). -/
  dbufSize : Nat
  /-- `EBUF_SIZE` (R10). -/
  ebufSize : Nat
  deriving DecidableEq, Repr

/-- The configuration the spec's vectors use (00_scope.md section 3; 95_test_vectors.md, the list at its head). -/
def Params.vectors : Params where
  flagSwap := false
  crcWidth := .w16
  crc := .standard
  cw := 16
  ibufSize := 256
  dbufSize := 256
  ebufSize := 256

/-! The platform's own accumulator (R7): any step function, initial value, good value and invert mask. -/

opaque Config.crcStep16 : BitVec 16 → Byte → BitVec 16
opaque Config.crcInit16 : BitVec 16
opaque Config.crcGood16 : BitVec 16
opaque Config.crcInv16 : BitVec 16
opaque Config.crcStep32 : BitVec 32 → Byte → BitVec 32
opaque Config.crcInit32 : BitVec 32
opaque Config.crcGood32 : BitVec 32
opaque Config.crcInv32 : BitVec 32

end Sys2Proof
end

