-- ==== Sys2Proof/Machine/Parameters.lean ====
section
/-! DEFINITION. The constants that follow from the parameters (00_scope.md R5 to R10). -/

namespace Sys2Proof

/-- `FLAG` (R5). -/
def Params.flag (p : Params) : Byte := if p.flagSwap then 0x7D#8 else 0x7E#8

/-- `ESC` (R5). -/
def Params.esc (p : Params) : Byte := if p.flagSwap then 0x7E#8 else 0x7D#8

/-- `ADDRESS`, no parameter (R8). -/
def addressByte : Byte := 0xFF#8

/-- `CRC_W` in bits (R6). -/
def Params.crcBits (p : Params) : Nat :=
  match p.crcWidth with
  | .w16 => 16
  | .w32 => 32

/-- `W = CRC_W / 8`, the checksum width in bytes (R6). -/
def Params.fcsLen (p : Params) : Nat := p.crcBits / 8

/-- `POS_MAX = 2^CW − 1` (R9). -/
def Params.posMax (p : Params) : Nat := 2 ^ p.cw - 1

/-- The range of a buffer size (R10). -/
def Params.sizeOk (p : Params) (n : Nat) : Bool := 1 ≤ n && n ≤ min p.posMax 0xFFFF

/-- The parameters a core can be built with: R10's size ranges, and a counter width from 1 to 32 bits.
DEDUCED (log 2): R45 makes each register a 32-bit word, so a counter has at most 32 bits. -/
def Params.ok (p : Params) : Bool :=
  1 ≤ p.cw && p.cw ≤ 32 && p.sizeOk p.ibufSize && p.sizeOk p.dbufSize && p.sizeOk p.ebufSize

end Sys2Proof
end

