-- ==== Sys2Proof/Machine/Memory.lean ====
section
/-! DEFINITION. The three byte buffers as one memory, keyed by the offset in the core's 18-bit window (20_memory.md R40 to R44).
A memory lists (offset, byte) pairs, offsets strictly rising, and no pair whose byte is what an unlisted offset reads as. -/

namespace Sys2Proof.Machine

/-- Buffer contents, by window offset. -/
abbrev Memory := List Host.Cell

/-- What an unlisted offset reads as. DESIGN CHOICE (log 3): the spec gives a buffer byte no value after reset and takes
the initial images as arguments (R144); any image is a `Memory`, and this is the byte it need not list. -/
def blankByte : Byte := 0#8

/-- The three buffers (R40). -/
inductive Buf where
  | ibuf
  | dbuf
  | ebuf
  deriving DecidableEq, Repr

/-- The window offset of a buffer's first byte (R44). -/
def bufBase : Buf → Nat
  | .ibuf => 0x10000
  | .dbuf => 0x20000
  | .ebuf => 0x30000

/-- A buffer's capacity (R10). -/
def bufSize (p : Params) : Buf → Nat
  | .ibuf => p.ibufSize
  | .dbuf => p.dbufSize
  | .ebuf => p.ebufSize

/-- An access of `n` bytes at `off` touches a byte of the buffer. -/
def touchesBuf (p : Params) (b : Buf) (off n : Nat) : Bool :=
  bufBase b < off + n && off < bufBase b + bufSize p b

/-- An access of `n` bytes at `off` touches a byte of some buffer. -/
def touchesBuffers (p : Params) (off n : Nat) : Bool :=
  touchesBuf p .ibuf off n || touchesBuf p .dbuf off n || touchesBuf p .ebuf off n

/-- The byte at an offset. -/
def Memory.read : Memory → Nat → Byte
  | [], _ => blankByte
  | (b, w) :: m, a => if a = b then w else Memory.read m a

/-- Write a byte, keeping the canonical form. -/
def Memory.write : Memory → Nat → Byte → Memory
  | [], a, v => if v = blankByte then [] else [(a, v)]
  | (b, w) :: m, a, v =>
    if a < b then (if v = blankByte then (b, w) :: m else (a, v) :: (b, w) :: m)
    else if a = b then (if v = blankByte then m else (a, v) :: m)
    else (b, w) :: Memory.write m a v

/-- Write bytes at rising offsets from `a`. -/
def Memory.writeBytes : Memory → Nat → List Byte → Memory
  | m, _, [] => m
  | m, a, v :: s => Memory.writeBytes (Memory.write m a v) (a + 1) s

/-- The `n` bytes at rising offsets from `a`. -/
def Memory.readBytes (m : Memory) (a n : Nat) : List Byte :=
  (List.range n).map fun k => Memory.read m (a + k)

/-- The canonical form. -/
def Memory.wf : Memory → Bool
  | [] => true
  | (a, v) :: m => v != blankByte && m.all (fun c => a < c.1) && Memory.wf m

/-- Every listed offset is a byte of a buffer. -/
def Memory.within (p : Params) (m : Memory) : Bool := m.all fun c => touchesBuffers p c.1 1

/-- The buffers holding an initial image: its cells that lie in a buffer, in any order (R144). -/
def Memory.ofImages (p : Params) (images : List Host.Cell) : Memory :=
  images.foldl (fun m c => if touchesBuffers p c.1 1 then Memory.write m c.1 c.2 else m) []

end Sys2Proof.Machine
end

