-- ==== Sys2Proof/Machine/Checksum.lean ====
section
/-! DEFINITION. The checksum accumulator (40_checksum.md R73 to R79). A checksum of either width stands in a 32-bit word;
at `CRC_W = 16` the bits above are zero. -/

namespace Sys2Proof

/-- `k` rounds of R78's loop, least significant bit first. -/
def crcRounds {n : Nat} (poly : BitVec n) : Nat → BitVec n → BitVec n
  | 0, c => c
  | k + 1, c => crcRounds poly k (if c.getLsbD 0 then (c >>> 1) ^^^ poly else c >>> 1)

/-- `CRC_STEP` of the default instances, at either width (R78, R79). -/
def fcsStep {n : Nat} (poly : BitVec n) (c : BitVec n) (b : Byte) : BitVec n :=
  crcRounds poly 8 (c ^^^ b.setWidth n)

/-- `CRC_STEP` (R73). Operand bits above `CRC_W` do not count (log 15). -/
def crcStep (p : Params) (c : Word) (b : Byte) : Word :=
  match p.crc, p.crcWidth with
  | .standard, .w16 => (fcsStep 0x8408#16 (c.setWidth 16) b).setWidth 32
  | .standard, .w32 => fcsStep 0xEDB88320#32 c b
  | .platform, .w16 => (Config.crcStep16 (c.setWidth 16) b).setWidth 32
  | .platform, .w32 => Config.crcStep32 c b

/-- `CRC_INIT` (R7, R78, R79). -/
def crcInit (p : Params) : Word :=
  match p.crc, p.crcWidth with
  | .standard, .w16 => 0x0000FFFF#32
  | .standard, .w32 => 0xFFFFFFFF#32
  | .platform, .w16 => Config.crcInit16.setWidth 32
  | .platform, .w32 => Config.crcInit32

/-- `CRC_GOOD` (R7, R78, R79). -/
def crcGood (p : Params) : Word :=
  match p.crc, p.crcWidth with
  | .standard, .w16 => 0x0000F0B8#32
  | .standard, .w32 => 0xDEBB20E3#32
  | .platform, .w16 => Config.crcGood16.setWidth 32
  | .platform, .w32 => Config.crcGood32

/-- `CRC_INV` (R7, R78, R79). -/
def crcInv (p : Params) : Word :=
  match p.crc, p.crcWidth with
  | .standard, .w16 => 0x0000FFFF#32
  | .standard, .w32 => 0xFFFFFFFF#32
  | .platform, .w16 => Config.crcInv16.setWidth 32
  | .platform, .w32 => Config.crcInv32

/-- `CRC_FOLD(c, s)`, first byte first (R74). -/
def crcFold (p : Params) (c : Word) (s : List Byte) : Word := s.foldl (crcStep p) c

/-- The `W` bytes of a checksum, least significant first (R75). -/
def lsbFirst (p : Params) (v : Word) : List Byte :=
  (List.range p.fcsLen).map fun k => (v >>> (8 * k)).setWidth 8

/-- `FCS_BYTES(s)` (R75). -/
def fcsBytes (p : Params) (s : List Byte) : List Byte :=
  lsbFirst p (crcFold p (crcInit p) s ^^^ crcInv p)

end Sys2Proof
end

