-- ==== Sys2Proof/Machine/Flags.lean ====
section
/-! DEFINITION. The status bits and codes: the core has no condition codes (10_state.md R38), so this file holds
`STATUS` (30_encoding.md R69), the packing of `SN_FLAGS` (10_state.md R34) and that of `CTL_OUT` (R27). -/

namespace Sys2Proof.Machine

/-- The outcomes `STATUS` can hold; codes 6 to 15 are never written (R69). -/
inductive Status where
  | ok
  | noCompleteFrame
  | frame
  | checksumOrFramingError
  | invalidArgument
  | capacityExceeded
  deriving DecidableEq, Repr

/-- The code of a status in the 4-bit register `STATUS` (R69). -/
def statusCode : Status → BitVec 4
  | .ok => 0#4
  | .noCompleteFrame => 1#4
  | .frame => 2#4
  | .checksumOrFramingError => 3#4
  | .invalidArgument => 4#4
  | .capacityExceeded => 5#4

/-- The image of the three status bits in `SN_FLAGS`: bit 0 `esc`, bit 1 `start_valid`, bit 2 `end_valid` (R34, R127). -/
def packFlags (esc startValid endValid : Bool) : BitVec 3 :=
  BitVec.ofBool endValid ++ BitVec.ofBool startValid ++ BitVec.ofBool esc

/-- `SN_FLAGS[0]`. -/
def flagsEsc (f : BitVec 3) : Bool := f.getLsbD 0
/-- `SN_FLAGS[1]`. -/
def flagsStartValid (f : BitVec 3) : Bool := f.getLsbD 1
/-- `SN_FLAGS[2]`. -/
def flagsEndValid (f : BitVec 3) : Bool := f.getLsbD 2

/-- The 2-bit code of a frame kind (R65). -/
def kindCode : Kind → BitVec 2
  | .data => 0#2
  | .ack => 1#2
  | .nack => 2#2

/-- A descriptor as `CTL_OUT` holds it: the kind in bits 1:0, the sequence number in bits 4:2 (R27). -/
def packCtl (d : Descriptor) : BitVec 5 := d.seq ++ kindCode d.kind

/-- `CTL_OUT[1:0]` (R27). -/
def ctlOutKind (c : BitVec 5) : BitVec 2 := c.extractLsb' 0 2
/-- `CTL_OUT[4:2]` (R27). -/
def ctlOutSeq (c : BitVec 5) : BitVec 3 := c.extractLsb' 2 3

end Sys2Proof.Machine
end

