-- ==== Sys2Proof/Machine/Record.lean ====
section
/-! DEFINITION. The decoder state record `st` and its image in the snapshot bank (10_state.md R16 to R23, R34).
Registers of `CW` bits are held as the natural numbers they denote (R12; log 5). -/

namespace Sys2Proof.Machine

/-- The decoder state record `st` (R16). -/
structure DecState where
  /-- `st.esc` (R17). -/
  esc : Bool
  /-- `st.crc`, `CRC_W` bits (R18). -/
  crc : Word
  /-- `st.start_valid` (R19). -/
  startValid : Bool
  /-- `st.start`, `CW` bits (R19). -/
  startPos : Nat
  /-- `st.end_valid` (R20). -/
  endValid : Bool
  /-- `st.end`, `CW` bits (R20). -/
  endPos : Nat
  /-- `st.pos`, `CW` bits (R21). -/
  pos : Nat
  /-- `st.out`, `CW` bits (R22). -/
  out : Nat
  deriving DecidableEq, Repr

/-- The snapshot bank (R34). -/
structure Bank where
  /-- `SN_FLAGS`, 3 bits. -/
  flags : BitVec 3
  /-- `SN_START`, `CW` bits. -/
  startPos : Nat
  /-- `SN_END`, `CW` bits. -/
  endPos : Nat
  /-- `SN_POS`, `CW` bits. -/
  pos : Nat
  /-- `SN_OUT`, `CW` bits. -/
  out : Nat
  /-- `SN_CRC`, `CRC_W` bits. -/
  crc : Word
  deriving DecidableEq, Repr

/-- `INIT_STATE` (R23). -/
def initState (p : Params) : DecState where
  esc := false
  crc := crcInit p
  startValid := false
  startPos := 0
  endValid := false
  endPos := 0
  pos := 0
  out := 0

/-- The image of a decoder state (R34, R127). -/
def imageOf (st : DecState) : Bank where
  flags := packFlags st.esc st.startValid st.endValid
  startPos := st.startPos
  endPos := st.endPos
  pos := st.pos
  out := st.out
  crc := st.crc

/-- The decoder state an image holds (R128). -/
def stateOf (b : Bank) : DecState where
  esc := flagsEsc b.flags
  crc := b.crc
  startValid := flagsStartValid b.flags
  startPos := b.startPos
  endValid := flagsEndValid b.flags
  endPos := b.endPos
  pos := b.pos
  out := b.out

end Sys2Proof.Machine
end

