-- ==== Sys2Proof/Machine/State.lean ====
section
/-! DEFINITION. The state of one core and of the host that drives it (10_state.md; 20_memory.md R53), the reasons a step can
stop, and the state after reset (R39, R143). -/

namespace Sys2Proof.Machine

/-- The width of a host access (R47). -/
inductive Width where
  | byte
  | half
  | word
  deriving DecidableEq, Repr

/-- What the host, or the reset input, does next (R15, R143). Offsets are in the core's 18-bit window (R44). -/
inductive HostEvent where
  /-- A host read. -/
  | read (off : BitVec 18) (width : Width)
  /-- A host write; a byte access writes the low 8 bits of `v`. -/
  | write (off : BitVec 18) (width : Width) (v : Word)
  /-- The reset input is asserted, and the buffers come up holding these images (R143, R144). -/
  | reset (images : List Host.Cell)
  /-- The head of the loop of `FEED off, len` (R71). -/
  | feed (off len : Nat)
  /-- `FEED`'s loop after its DECODE: the host looks at `RES_COUNT` and `STATUS` (R71). -/
  | feedResult (off len : Nat)
  deriving DecidableEq, Repr

/-- The result of an internal function evaluated on its own (log 7). -/
inductive FnResult where
  | none
  /-- Of `CRC_STEP` (R73). -/
  | checksum (c : Word)
  /-- Of `ESC_ENCODE_ONE` (R81). -/
  | bytes (s : List Byte)
  /-- Of `ESC_DECODE_ONE` (R82). -/
  | resolved (v : Option Byte) (pending : Bool)
  /-- Of `CTL_ENCODE` (R84). -/
  | control (c : Byte)
  /-- Of `CTL_DECODE` and of the control byte classes (R85, R64). -/
  | descriptor (d : Descriptor)
  deriving DecidableEq, Repr

/-- Nothing faults: every status is a value in `STATUS`, and the core has no access fault (R134, R139).
The type has no constructor; no meaning raises one. -/
inductive Fault where
  deriving DecidableEq, Repr

/-- Why a step is refused. -/
inductive Refusal where
  /-- An instruction without a meaning, raised by `exec` alone; none is left. Safe. -/
  | notModelled (mnemonic : String)
  /-- A byte or half-word access to the register window, raised by the bus (R47, R142). Safe: the model stops. -/
  | subWordRegisterAccess
  /-- A misaligned word access to the register window, raised by the bus (R47, R142). Safe. -/
  | misalignedRegisterAccess
  /-- An access of several bytes that touches a buffer, raised by the bus (R47, R142). Safe. -/
  | multiByteBufferAccess
  /-- An access that runs past the end of the 18-bit window, raised by the bus (R44; log 9). Safe. -/
  | outsideWindow
  deriving DecidableEq, Repr

/-- One core instance and its host. `params`, `fn`, `host` and `observed` are the model's own fields (logs 1, 6, 7). -/
structure State where
  /-- The build parameters, which no step changes (R145). -/
  params : Params
  /-- The decoder state record (R16). -/
  st : DecState
  /-- `CTL_OUT`, 5 bits (R27). -/
  ctlOut : BitVec 5
  /-- `ARG_OFF`, `CW` bits (R29). -/
  argOff : Nat
  /-- `ARG_LEN`, `CW` bits (R30). -/
  argLen : Nat
  /-- `STATUS`, 4 bits (R31). -/
  status : Status
  /-- `RES_COUNT`, `CW` bits (R32). -/
  resCount : Nat
  /-- `RES_LEN`, `CW` bits (R33). -/
  resLen : Nat
  /-- The snapshot bank (R34). -/
  bank : Bank
  /-- `IBUF`, `DBUF` and `EBUF` (R41 to R43). -/
  mem : Memory
  /-- The result of the internal function last evaluated on its own. -/
  fn : FnResult
  /-- What the host does from here on, in its program order (R53). -/
  host : List HostEvent
  /-- The values the host's reads returned, oldest first (R70). -/
  observed : List Word
  deriving DecidableEq, Repr

/-- The machine right after reset (R39, R143), built with the parameters of the spec's vectors (00_scope.md section 3;
log 1), with blank buffers (R144 leaves them unspecified; log 3) and a host that does nothing yet (log 6). -/
def State.reset : State where
  params := Params.vectors
  st := initState Params.vectors
  ctlOut := 0#5
  argOff := 0
  argLen := 0
  status := .ok
  resCount := 0
  resLen := 0
  bank := imageOf (initState Params.vectors)
  mem := []
  fn := .none
  host := []
  observed := []

end Sys2Proof.Machine
end

