-- ==== Sys2Proof/Machine/Ops.lean ====
section
/-! DEFINITION. The named operations over registers and buffers: reading and writing a buffer byte (00_scope.md R13),
ending a command (R13), turning a command away (60_exceptions.md R135), resetting the decoder state (10_state.md R23) and
the hardware reset (70_reset_and_hazards.md R143). The core takes no exception and returns from none (R134): `refuse` is
all that `raise` does. -/

namespace Sys2Proof.Machine

/-- The three outcomes of an instruction or a step. -/
abbrev Result := Host.Outcome State Fault Refusal

/-- `MemRead(B, a, 1)` (R13). -/
def readBuf (s : State) (b : Buf) (a : Nat) : Byte := Memory.read s.mem (bufBase b + a)

/-- `B[a] ++ … ++ B[a + n − 1]`. -/
def readBufBytes (s : State) (b : Buf) (a n : Nat) : List Byte := Memory.readBytes s.mem (bufBase b + a) n

/-- `respond S(count, len)` (R13). -/
def respond (s : State) (status : Status) (count len : Nat) : State :=
  { s with status := status, resCount := count, resLen := len }

/-- `raise INVALID_ARGUMENT(0, 0)`: the command is turned away and changes nothing else (R135). -/
def refuse (s : State) : State := respond s .invalidArgument 0 0

/-- `st <- INIT_STATE` (R23). -/
def resetDecoder (s : State) : State := { s with st := initState s.params }

/-- Write the decoder state record. -/
def withSt (s : State) (st : DecState) : State := { s with st := st }

/-- Write the snapshot bank. -/
def withBank (s : State) (b : Bank) : State := { s with bank := b }

/-- Write the buffers. -/
def withMem (s : State) (m : Memory) : State := { s with mem := m }

/-- What a DECODE scan changes: `st`, `CTL_OUT` and the buffers. -/
def withScan (s : State) (st : DecState) (ctl : BitVec 5) (m : Memory) : State :=
  { s with st := st, ctlOut := ctl, mem := m }

/-- Record the result of an internal function. -/
def withFn (s : State) (r : FnResult) : State := { s with fn := r }

/-- The host's remaining program. -/
def withHost (s : State) (h : List HostEvent) : State := { s with host := h }

/-- Record the value of a host read. -/
def observe (s : State) (v : Word) : State := { s with observed := s.observed ++ [v] }

/-- Hardware reset (R143), the buffers coming up with the given images (R144). The parameters (R145) and the host's own
program and record stay (log 12). -/
def hardReset (images : List Host.Cell) (s : State) : State :=
  { s with
    st := initState s.params
    ctlOut := 0#5
    argOff := 0
    argLen := 0
    status := .ok
    resCount := 0
    resLen := 0
    bank := imageOf (initState s.params)
    mem := Memory.ofImages s.params images
    fn := .none }

end Sys2Proof.Machine
end

