-- ==== Sys2Proof/Machine/Registers.lean ====
section
/-! DEFINITION. The register window (20_memory.md R45, R46): the one place where a register is read or written over the bus. -/

namespace Sys2Proof.Machine

/-- The registers of R45. -/
inductive Reg where
  | cmd
  | argOff
  | argLen
  | status
  | resCount
  | resLen
  | ctlOut
  | snFlags
  | snStart
  | snEnd
  | snPos
  | snOut
  | snCrc
  deriving DecidableEq, Repr

/-- A register's offset in the window (R45). -/
def regOffset : Reg → BitVec 18
  | .cmd => 0x00#18
  | .argOff => 0x04#18
  | .argLen => 0x08#18
  | .status => 0x0C#18
  | .resCount => 0x10#18
  | .resLen => 0x14#18
  | .ctlOut => 0x18#18
  | .snFlags => 0x20#18
  | .snStart => 0x24#18
  | .snEnd => 0x28#18
  | .snPos => 0x2C#18
  | .snOut => 0x30#18
  | .snCrc => 0x34#18

/-- The register at an offset of the register window; none where the offset is reserved (R45, R46). -/
def regAt (off : BitVec 18) : Option Reg :=
  [Reg.cmd, .argOff, .argLen, .status, .resCount, .resLen, .ctlOut,
    .snFlags, .snStart, .snEnd, .snPos, .snOut, .snCrc].find? fun r => regOffset r == off

/-- The bits of a written word that a `CW`-bit register keeps (R45). -/
def counterBits (p : Params) (v : Word) : Nat := v.toNat % 2 ^ p.cw

/-- The bits of a written word that a `CRC_W`-bit register keeps (R45). -/
def crcRegBits (p : Params) (v : Word) : Word :=
  match p.crcWidth with
  | .w16 => (v.setWidth 16).setWidth 32
  | .w32 => v

/-- A register as the host reads it: bits above its width are zero, and `CMD` reads 0 (R28, R45). -/
def readReg (s : State) : Reg → Word
  | .cmd => 0#32
  | .argOff => BitVec.ofNat 32 s.argOff
  | .argLen => BitVec.ofNat 32 s.argLen
  | .status => (statusCode s.status).setWidth 32
  | .resCount => BitVec.ofNat 32 s.resCount
  | .resLen => BitVec.ofNat 32 s.resLen
  | .ctlOut => s.ctlOut.setWidth 32
  | .snFlags => s.bank.flags.setWidth 32
  | .snStart => BitVec.ofNat 32 s.bank.startPos
  | .snEnd => BitVec.ofNat 32 s.bank.endPos
  | .snPos => BitVec.ofNat 32 s.bank.pos
  | .snOut => BitVec.ofNat 32 s.bank.out
  | .snCrc => s.bank.crc

/-- A host write to a register other than `CMD`: read-only registers ignore it (R45). -/
def writeReg (s : State) (r : Reg) (v : Word) : State :=
  match r with
  | .argOff => { s with argOff := counterBits s.params v }
  | .argLen => { s with argLen := counterBits s.params v }
  | .snFlags => withBank s { s.bank with flags := v.setWidth 3 }
  | .snStart => withBank s { s.bank with startPos := counterBits s.params v }
  | .snEnd => withBank s { s.bank with endPos := counterBits s.params v }
  | .snPos => withBank s { s.bank with pos := counterBits s.params v }
  | .snOut => withBank s { s.bank with out := counterBits s.params v }
  | .snCrc => withBank s { s.bank with crc := crcRegBits s.params v }
  | .cmd | .status | .resCount | .resLen | .ctlOut => s

end Sys2Proof.Machine
end

