-- ==== Sys2Proof/Machine/Bus.lean ====
section
/-! DEFINITION. The host bus (20_memory.md R44 to R53) and what the next host event asks of the core. -/

namespace Sys2Proof.Machine

/-- The bytes of an access. -/
def widthBytes : Width → Nat
  | .byte => 1
  | .half => 2
  | .word => 4

/-- What an access reaches. -/
inductive Target where
  /-- A register (R45). -/
  | register (r : Reg)
  /-- A buffer byte, by its window offset (R44). -/
  | bufByte (off : Nat)
  /-- Reserved: reads 0, ignores writes (R46). -/
  | reserved
  deriving DecidableEq, Repr

/-- Where an access goes, or why it is outside the interface (R45 to R47, R142).
DEDUCED (log 9): R47 limits accesses to the register window and to buffer bytes, and R46 and R142 define every access to
reserved offsets, so an access of any width that touches neither reads 0 or is ignored. -/
def target (p : Params) (off : BitVec 18) (width : Width) : Except Refusal Target :=
  if 0x40000 < off.toNat + widthBytes width then .error .outsideWindow
  else if off.toNat < 0x100 then
    if width ≠ .word then .error .subWordRegisterAccess
    else if off.toNat % 4 ≠ 0 then .error .misalignedRegisterAccess
    else
      match regAt off with
      | some r => .ok (.register r)
      | none => .ok .reserved
  else if touchesBuffers p off.toNat (widthBytes width) then
    if width ≠ .byte then .error .multiByteBufferAccess else .ok (.bufByte off.toNat)
  else .ok .reserved

/-- What a step is to do. -/
inductive Action where
  /-- No host event: the core holds its state (R141). -/
  | idle
  /-- A host event without a command has taken effect. -/
  | done (s : State)
  /-- `CMD` was written: run the command (R50, R52). -/
  | command (w : Word) (s : State)
  /-- The access is outside the interface (R142). -/
  | refuse (r : Refusal)
  deriving DecidableEq, Repr

/-- A host read (R50): the value goes to the host's record. -/
def hostRead (s : State) (off : BitVec 18) (width : Width) : Action :=
  match target s.params off width with
  | .error r => .refuse r
  | .ok (.register r) => .done (observe s (readReg s r))
  | .ok (.bufByte a) => .done (observe s ((Memory.read s.mem a).setWidth 32))
  | .ok .reserved => .done (observe s 0#32)

/-- A host write (R50): only a write to `CMD` runs a command. -/
def hostWrite (s : State) (off : BitVec 18) (width : Width) (v : Word) : Action :=
  match target s.params off width with
  | .error r => .refuse r
  | .ok (.register .cmd) => .command v s
  | .ok (.register r) => .done (writeReg s r v)
  | .ok (.bufByte a) => .done (withMem s (Memory.write s.mem a (v.setWidth 8)))
  | .ok .reserved => .done s

/-- A host word write to a register, as an event (R70). -/
def writeEvent (r : Reg) (v : Word) : HostEvent := .write (regOffset r) .word v

/-- A host word read of a register, as an event (R70). -/
def readEvent (r : Reg) : HostEvent := .read (regOffset r) .word

/-- The host statement `DECODE off, len` (R70). -/
def decodeEvents (off len : Nat) : List HostEvent :=
  [writeEvent .argOff (BitVec.ofNat 32 off), writeEvent .argLen (BitVec.ofNat 32 len), writeEvent .cmd 2#32]

/-- The host statement `RDB buf[a], n`: byte reads at rising offsets (R70).
DESIGN CHOICE (log 19): a byte at or above `0x10000` lies outside the buffer's window of R44, and the spec gives it no
offset; here it lies at the buffer's base plus that number, cut to the 18 bits of an offset. -/
def readBytesEvents (b : Buf) (a n : Nat) : List HostEvent :=
  (List.range n).map fun k => .read (BitVec.ofNat 18 (bufBase b + a + k)) .byte

/-- What the host reads after a FRAME outcome in `FEED` (R71). -/
def frameEvents (s : State) : List HostEvent :=
  [readEvent .ctlOut, readEvent .resLen] ++ readBytesEvents .dbuf 0 s.resLen

/-- The host's choice after a DECODE of `FEED` (R71): stop, or observe and go on with the unconsumed bytes. -/
def feedEvents (off len : Nat) (s : State) : List HostEvent :=
  match s.status with
  | .noCompleteFrame | .invalidArgument => []
  | .frame => frameEvents s ++ [.feed (off + s.resCount) (len - s.resCount)]
  | .checksumOrFramingError | .capacityExceeded | .ok =>
    [readEvent .status, .feed (off + s.resCount) (len - s.resCount)]

/-- What the host's next event asks; `s` holds the events after it. -/
def eventAction (e : HostEvent) (s : State) : Action :=
  match e with
  | .read off width => hostRead s off width
  | .write off width v => hostWrite s off width v
  | .reset images => .done (hardReset images s)
  | .feed off len => .done (withHost s (decodeEvents off len ++ .feedResult off len :: s.host))
  | .feedResult off len => .done (withHost s (feedEvents off len s ++ s.host))

/-- What the next step is to do: the host's events take effect in its program order (R53). -/
def nextAction (s : State) : Action :=
  match s.host with
  | [] => .idle
  | e :: rest => eventAction e (withHost s rest)

/-- Have the host write a command word next. -/
def presentCommand (w : Word) (s : State) : State := withHost s (writeEvent .cmd w :: s.host)

/-- Have the decoder receive a control byte next (log 8): DECODE of a one-byte chunk with `st` at the control position
(R108), the byte escaped where it must be (R58). -/
def presentControl (c : Byte) (s : State) : State :=
  let escaped : Bool := c == s.params.flag || c == s.params.esc
  { s with
    st := { initState s.params with esc := escaped, startValid := true, pos := 2 }
    argOff := 0
    argLen := 1
    mem := Memory.write s.mem (bufBase .ibuf) (if escaped then c ^^^ 0x20#8 else c)
    host := writeEvent .cmd 2#32 :: s.host }

end Sys2Proof.Machine
end

