-- ==== Sys2Proof/Machine/ControlClass.lean ====
section
/-! DEFINITION. The classes of a received control byte (30_encoding.md R64): each gives a descriptor, written here from the
class table and not through `CTL_DECODE`. As for the internal functions, the result is recorded in `fn` (log 7). -/

namespace Sys2Proof.Machine

/-- Information: (Data, `c[3:1]`); poll/final and receive-sequence are ignored (R64, R85). -/
def execCtlI (ns : BitVec 3) (_pf : BitVec 1) (_nr : BitVec 3) (s : State) : Result :=
  .next (withFn s (.descriptor ⟨.data, ns⟩))

/-- Supervisory RR: (Acknowledge, `c[7:5]`) (R64). -/
def execCtlSRr (_pf : BitVec 1) (nr : BitVec 3) (s : State) : Result := .next (withFn s (.descriptor ⟨.ack, nr⟩))

/-- Supervisory RNR: (NegativeAcknowledge, `c[7:5]`) (R64). -/
def execCtlSRnr (_pf : BitVec 1) (nr : BitVec 3) (s : State) : Result := .next (withFn s (.descriptor ⟨.nack, nr⟩))

/-- Supervisory REJ: (NegativeAcknowledge, `c[7:5]`) (R64). -/
def execCtlSRej (_pf : BitVec 1) (nr : BitVec 3) (s : State) : Result := .next (withFn s (.descriptor ⟨.nack, nr⟩))

/-- Supervisory SREJ: (NegativeAcknowledge, `c[7:5]`) (R64). -/
def execCtlSSrej (_pf : BitVec 1) (nr : BitVec 3) (s : State) : Result := .next (withFn s (.descriptor ⟨.nack, nr⟩))

/-- Unnumbered: (NegativeAcknowledge, `c[7:5]`) (R64). -/
def execCtlU (_mid : BitVec 3) (nr : BitVec 3) (s : State) : Result := .next (withFn s (.descriptor ⟨.nack, nr⟩))

end Sys2Proof.Machine
end

