-- ==== Sys2Proof/Machine/Control.lean ====
section
/-! DEFINITION. The control field codec (42_control_codec.md R84, R85; 30_encoding.md R64). -/

namespace Sys2Proof

/-- `CTL_ENCODE(kind, seq)` (R84). -/
def ctlEncode (kind : Kind) (seq : BitVec 3) : Byte :=
  match kind with
  | .data => 0x10#8 ||| (seq.setWidth 8 <<< 1)
  | .ack => 0x01#8 ||| (seq.setWidth 8 <<< 5)
  | .nack => 0x09#8 ||| (seq.setWidth 8 <<< 5)

/-- `CTL_DECODE(c)` (R85). -/
def ctlDecode (c : Byte) : Descriptor :=
  if c.getLsbD 0 = false then ⟨.data, ctlNs c⟩
  else if c.getLsbD 1 = false ∧ ctlType c = 0#2 then ⟨.ack, ctlNr c⟩
  else ⟨.nack, ctlNr c⟩

end Sys2Proof
end

