-- ==== Sys2Proof/Machine/Escape.lean ====
section
/-! DEFINITION. The escape codec (41_escape_codec.md R81, R82). -/

namespace Sys2Proof

/-- `ESC_ENCODE_ONE(b)`: one byte, or `ESC` and the byte XOR 0x20 (R81). -/
def escEncodeOne (p : Params) (b : Byte) : List Byte :=
  if b = p.flag ∨ b = p.esc then [p.esc, b ^^^ 0x20#8] else [b]

/-- `esc*`: each byte in turn (R89). -/
def escEncode (p : Params) (s : List Byte) : List Byte := s.flatMap (escEncodeOne p)

/-- `ESC_DECODE_ONE(b, pending)`: the resolved byte, if any, and the new pending flag (R82). -/
def escDecodeOne (p : Params) (b : Byte) (pending : Bool) : Option Byte × Bool :=
  if b = p.esc then (none, true)
  else if pending then (some (b ^^^ 0x20#8), false)
  else (some b, false)

/-- `ESC_DECODE_ONE` over a byte string, the resolved values in order and the pending flag at the end (R83). -/
def escDecode (p : Params) : List Byte → Bool → List Byte × Bool
  | [], pending => ([], pending)
  | b :: s, pending =>
    let (v, pending') := escDecodeOne p b pending
    let (r, pendingEnd) := escDecode p s pending'
    (v.toList ++ r, pendingEnd)

end Sys2Proof
end

