-- ==== Sys2Proof/Machine/Operands.lean ====
section
/-! DEFINITION. The operands of a command beyond its word (30_encoding.md R67): the byte range in `IBUF` and the snapshot image. -/

namespace Sys2Proof.Machine

/-- `ARG_OFF + ARG_LEN ≤ IBUF_SIZE`, computed without wrap (43_frame_encoder.md R88, 44_decoder.md R98). -/
def rangeOk (s : State) : Bool := s.argOff + s.argLen ≤ s.params.ibufSize

/-- `IBUF[ARG_OFF .. ARG_OFF + ARG_LEN − 1]`: ENCODE's payload (R87), DECODE's chunk (R97). -/
def inputBytes (s : State) : List Byte := readBufBytes s .ibuf s.argOff s.argLen

/-- The payload that goes into the frame: the input bytes for Data, none for the other kinds (R91). -/
def payloadOf (kind : Kind) (s : State) : List Byte :=
  match kind with
  | .data => inputBytes s
  | .ack => []
  | .nack => []

/-- `IMAGE_OK()` (45_state_management.md R129). -/
def imageOk (p : Params) (b : Bank) : Bool := !flagsEndValid b.flags && b.endPos == 0 && b.out ≤ p.dbufSize

end Sys2Proof.Machine
end

