-- ==== Sys2Proof/Machine/Decoder.lean ====
section
/-! DEFINITION. DECODE, the resumable incremental decoder (44_decoder.md R97 to R116). -/

namespace Sys2Proof.Machine

/-- What the scan works on: `st`, `CTL_OUT` and the buffers (R97). -/
structure Scan where
  st : DecState
  ctl : BitVec 5
  mem : Memory
  deriving DecidableEq, Repr

/-- What the scan does with one byte. -/
inductive ByteStep where
  /-- The byte is used up and the scan goes on. -/
  | next (w : Scan)
  /-- The byte is the terminating FLAG (R104). -/
  | terminated (w : Scan)
  /-- The byte is not processed: ABANDON (R110). -/
  | abandoned
  deriving DecidableEq, Repr

/-- How a scan ends (R99), with the index of the byte it stopped at. -/
inductive ScanEnd where
  | exhausted (w : Scan)
  | terminated (i : Nat) (w : Scan)
  | abandoned (i : Nat) (w : Scan)
  deriving DecidableEq, Repr

/-- A byte in the Seeking-start phase (R101, R102; R100 for the position). `nf`: the next chunk byte is FLAG. -/
def seekByte (p : Params) (b : Byte) (nf : Bool) (w : Scan) : ByteStep :=
  if b = p.flag then
    if nf then .next w
    else if w.st.pos = p.posMax then .abandoned
    else .next { w with st := { w.st with startValid := true, startPos := w.st.pos, pos := w.st.pos + 1 } }
  else .next w

/-- An In-frame FLAG: discarded (R103) or terminating (R104). -/
def frameFlag (nf : Bool) (w : Scan) : ByteStep :=
  if nf || w.st.pos == w.st.startPos + 1 then .next w
  else .terminated { w with st := { w.st with endValid := true, endPos := w.st.pos } }

/-- Where a resolved byte goes, by its position (R107, R108, R109). -/
def placeByte (v : Byte) (w : Scan) : Scan :=
  if w.st.pos = w.st.startPos + 2 then { w with ctl := packCtl (ctlDecode v) }
  else if w.st.startPos + 2 < w.st.pos then
    { w with
      mem := Memory.write w.mem (bufBase .dbuf + w.st.out) v
      st := { w.st with out := w.st.out + 1 } }
  else w

/-- A resolved byte: cleared escape, checksum, place, position (R106). -/
def countByte (p : Params) (v : Byte) (w : Scan) : Scan :=
  let w := { w with st := { w.st with esc := false, crc := crcStep p w.st.crc v } }
  let w := placeByte v w
  { w with st := { w.st with pos := w.st.pos + 1 } }

/-- An In-frame byte that is not FLAG: ESC (R105) or data (R106 to R109), unless it abandons the frame (R100, R109). -/
def frameByte (p : Params) (b : Byte) (w : Scan) : ByteStep :=
  if w.st.pos = p.posMax then .abandoned
  else
    match escDecodeOne p b w.st.esc with
    | (none, pending) => .next { w with st := { w.st with esc := pending, pos := w.st.pos + 1 } }
    | (some v, _) =>
      if w.st.startPos + 2 < w.st.pos ∧ p.dbufSize ≤ w.st.out then .abandoned
      else .next (countByte p v w)

/-- One round of the scan (R99): the phase is `st.start_valid` (R26). -/
def scanByte (p : Params) (b : Byte) (nf : Bool) (w : Scan) : ByteStep :=
  if w.st.startValid then (if b = p.flag then frameFlag nf w else frameByte p b w)
  else seekByte p b nf w

/-- The look-ahead `nf`: is the next byte of this chunk FLAG (R99)? -/
def nextIsFlag (p : Params) (rest : List Byte) : Bool := rest.head? == some p.flag

/-- The scan of the chunk bytes from index `i` on (R99). -/
def scan (p : Params) : List Byte → Nat → Scan → ScanEnd
  | [], _, w => .exhausted w
  | b :: rest, i, w =>
    match scanByte p b (nextIsFlag p rest) w with
    | .next w' => scan p rest (i + 1) w'
    | .terminated w' => .terminated i w'
    | .abandoned => .abandoned i w

/-- A frame whose terminating FLAG was found is valid (R112). -/
def frameValid (p : Params) (st : DecState) : Bool :=
  st.startPos + 3 + p.fcsLen ≤ st.endPos && p.fcsLen ≤ st.out && st.crc == crcGood p

/-- The scan's changes written back. -/
def keepScan (s : State) (w : Scan) : State := withScan s w.st w.ctl w.mem

/-- The end of a DECODE: no complete frame (R111), resolution (R112 to R116) or ABANDON (R110).
DEDUCED (log 10): R111 asks whether the scan found a terminating FLAG; R97's test of `st.end_valid` says the same in
every state between commands (R25). -/
def finishDecode (s : State) : ScanEnd → State
  | .exhausted w => respond (keepScan s w) .noCompleteFrame s.argLen 0
  | .terminated i w =>
    if frameValid s.params w.st then respond (resetDecoder (keepScan s w)) .frame i (w.st.out - s.params.fcsLen)
    else respond (resetDecoder (keepScan s w)) .checksumOrFramingError i 0
  | .abandoned i w => respond (resetDecoder (keepScan s w)) .capacityExceeded (i + 1) 0

/-- `DECODE` (R97). -/
def execDecode (s : State) : Result :=
  if rangeOk s then .next (finishDecode s (scan s.params (inputBytes s) 0 ⟨s.st, s.ctlOut, s.mem⟩))
  else .next (refuse s)

end Sys2Proof.Machine
end

