-- ==== Sys2Proof/Machine/Encoder.lean ====
section
/-! DEFINITION. ENCODE (43_frame_encoder.md R87 to R95). -/

namespace Sys2Proof.Machine

/-- The encoder's transient state: the running checksum and the frame built so far (10_state.md R35). -/
structure FrameWork where
  crc : Word
  bytes : List Byte
  deriving DecidableEq, Repr

/-- Steps 1 and 2 of R89. -/
def frameStart (p : Params) : FrameWork := ⟨crcInit p, [p.flag]⟩

/-- Fold a byte into the checksum un-escaped, then emit it escaped (R90). -/
def foldAndEmit (p : Params) (f : FrameWork) (b : Byte) : FrameWork :=
  ⟨crcStep p f.crc b, f.bytes ++ escEncodeOne p b⟩

/-- Emit a byte escaped without folding it (R90, R92). -/
def emitOnly (p : Params) (f : FrameWork) (b : Byte) : FrameWork :=
  { f with bytes := f.bytes ++ escEncodeOne p b }

/-- Steps 3 and 4 of R89: the address, the control byte and the payload. -/
def frameBody (p : Params) (kind : Kind) (seq : BitVec 3) (payload : List Byte) : FrameWork :=
  payload.foldl (foldAndEmit p) ([addressByte, ctlEncode kind seq].foldl (foldAndEmit p) (frameStart p))

/-- Steps 5 and 6 of R89: the inverted checksum, least significant byte first, and the closing FLAG. -/
def frameEnd (p : Params) (f : FrameWork) : List Byte :=
  ((lsbFirst p (f.crc ^^^ crcInv p)).foldl (emitOnly p) f).bytes ++ [p.flag]

/-- `FRAME_BYTES(kind, seq, p)` (R89). -/
def frameBytes (p : Params) (kind : Kind) (seq : BitVec 3) (payload : List Byte) : List Byte :=
  frameEnd p (frameBody p kind seq payload)

/-- ENCODE with a kind code the encoder accepts (R87): the checks of R88 and R93 in the order of R133, then R94. -/
def encodeFrame (kind : Kind) (seq : BitVec 3) (s : State) : Result :=
  if rangeOk s then
    let f := frameBytes s.params kind seq (payloadOf kind s)
    if f.length ≤ s.params.ebufSize then
      .next (respond (withMem s (Memory.writeBytes s.mem (bufBase .ebuf) f)) .ok f.length 0)
    else .next (refuse s)
  else .next (refuse s)

/-- `ENCODE` with kind Data (R87). -/
def execEncodeData (seq : BitVec 3) (s : State) : Result := encodeFrame .data seq s

/-- `ENCODE` with kind Acknowledge (R87, R91). -/
def execEncodeAck (seq : BitVec 3) (s : State) : Result := encodeFrame .ack seq s

/-- `ENCODE` with kind NegativeAcknowledge (R87, R91). -/
def execEncodeNack (seq : BitVec 3) (s : State) : Result := encodeFrame .nack seq s

/-- `ENCODE` with the reserved kind code 3: INVALID_ARGUMENT (R88). -/
def execEncodeKind3 (_seq : BitVec 3) (s : State) : Result := .next (refuse s)

end Sys2Proof.Machine
end

