-- ==== Sys2Proof/Machine/Internal.lean ====
section
/-! DEFINITION. The internal functions evaluated on their own (40_checksum.md R73, 41_escape_codec.md R81 and R82,
42_control_codec.md R84 and R85). They are pure: the result is recorded in `fn` and nothing else changes (log 7).
ENCODE and DECODE call the same functions. -/

namespace Sys2Proof.Machine

/-- `CRC_STEP` (R73). -/
def execCrcStep (c : Word) (b : Byte) (s : State) : Result := .next (withFn s (.checksum (crcStep s.params c b)))

/-- `ESC_ENCODE_ONE` (R81). -/
def execEscEncodeOne (b : Byte) (s : State) : Result := .next (withFn s (.bytes (escEncodeOne s.params b)))

/-- `ESC_DECODE_ONE` (R82). -/
def execEscDecodeOne (b : Byte) (pending : Bool) (s : State) : Result :=
  .next (withFn s (.resolved (escDecodeOne s.params b pending).1 (escDecodeOne s.params b pending).2))

/-- `CTL_ENCODE` (R84). -/
def execCtlEncode (kind : Kind) (seq : BitVec 3) (s : State) : Result := .next (withFn s (.control (ctlEncode kind seq)))

/-- `CTL_DECODE` (R85). -/
def execCtlDecode (c : Byte) (s : State) : Result := .next (withFn s (.descriptor (ctlDecode c)))

end Sys2Proof.Machine
end

