-- ==== Sys2Proof/Machine/Reserved.lean ====
section
/-! DEFINITION. The command words that are always turned away: the reserved opcodes (45_state_management.md R130) and every
other illegal word (30_encoding.md R68). Each ends with INVALID_ARGUMENT and no other effect (60_exceptions.md R135). -/

namespace Sys2Proof.Machine

/-- Reserved opcode 5 (R130). -/
def execReserved5 (_rest : BitVec 29) (s : State) : Result := .next (refuse s)

/-- Reserved opcode 6 (R130). -/
def execReserved6 (_rest : BitVec 29) (s : State) : Result := .next (refuse s)

/-- Reserved opcode 7 (R130). -/
def execReserved7 (_rest : BitVec 29) (s : State) : Result := .next (refuse s)

/-- An illegal word with opcode 0 to 4 (R68). -/
def execIllegalHighBits (_word : Word) (s : State) : Result := .next (refuse s)

end Sys2Proof.Machine
end

