-- ==== Sys2Proof/Machine/StateCommands.lean ====
section
/-! DEFINITION. RESET_STATE, GET_STATE and SET_STATE (45_state_management.md R126 to R129). -/

namespace Sys2Proof.Machine

/-- `RESET_STATE` (R126). -/
def execResetState (s : State) : Result := .next (respond (resetDecoder s) .ok 0 0)

/-- `GET_STATE` (R127). -/
def execGetState (s : State) : Result := .next (respond (withBank s (imageOf s.st)) .ok 0 0)

/-- `SET_STATE` (R128): the image is checked first (R129). -/
def execSetState (s : State) : Result :=
  if imageOk s.params s.bank then .next (respond (withSt s (stateOf s.bank)) .ok 0 0)
  else .next (refuse s)

end Sys2Proof.Machine
end

