-- ==== Sys2Proof/Machine/Dispatch.lean ====
section
/-! DEFINITION. The dispatcher: one arm per instruction. -/

namespace Sys2Proof.Machine

def exec (i : Instr) (s : State) : Host.Outcome State Fault Refusal :=
  match i with
  | .resetState => Sys2Proof.Machine.execResetState s
  | .encodeData seq => Sys2Proof.Machine.execEncodeData seq s
  | .encodeAck seq => Sys2Proof.Machine.execEncodeAck seq s
  | .encodeNack seq => Sys2Proof.Machine.execEncodeNack seq s
  | .encodeKind3 seq => Sys2Proof.Machine.execEncodeKind3 seq s
  | .decode => Sys2Proof.Machine.execDecode s
  | .getState => Sys2Proof.Machine.execGetState s
  | .setState => Sys2Proof.Machine.execSetState s
  | .reserved5 rest => Sys2Proof.Machine.execReserved5 rest s
  | .reserved6 rest => Sys2Proof.Machine.execReserved6 rest s
  | .reserved7 rest => Sys2Proof.Machine.execReserved7 rest s
  | .illegalHighBits word => Sys2Proof.Machine.execIllegalHighBits word s
  | .crcStep c b => Sys2Proof.Machine.execCrcStep c b s
  | .escEncodeOne b => Sys2Proof.Machine.execEscEncodeOne b s
  | .escDecodeOne b pending => Sys2Proof.Machine.execEscDecodeOne b pending s
  | .ctlEncode kind seq => Sys2Proof.Machine.execCtlEncode kind seq s
  | .ctlDecode c => Sys2Proof.Machine.execCtlDecode c s
  | .ctlI ns pf nr => Sys2Proof.Machine.execCtlI ns pf nr s
  | .ctlSRr pf nr => Sys2Proof.Machine.execCtlSRr pf nr s
  | .ctlSRnr pf nr => Sys2Proof.Machine.execCtlSRnr pf nr s
  | .ctlSRej pf nr => Sys2Proof.Machine.execCtlSRej pf nr s
  | .ctlSSrej pf nr => Sys2Proof.Machine.execCtlSSrej pf nr s
  | .ctlU mid nr => Sys2Proof.Machine.execCtlU mid nr s

end Sys2Proof.Machine
end

