-- ==== Sys2Proof/Machine/Step.lean ====
section
/-! DEFINITION. One step: the next host event takes effect, and a write to `CMD` runs its whole command (00_scope.md R14,
20_memory.md R52). -/

namespace Sys2Proof.Machine

/-- One step of a core and its host. -/
def step (s : State) : Host.Outcome State Fault Refusal :=
  match nextAction s with
  | .idle => .next s
  | .done t => .next t
  | .command w t => exec (decodeCmd w) t
  | .refuse r => .refused r

/-- The state in which a table row's word is what the next step runs (log 8). -/
def State.withFetchWord (s : State) (nbits w : Nat) : State :=
  match tableCode nbits w with
  | .ok (.cmd v) => presentCommand v s
  | .ok (.ctl c) => presentControl c s
  | .error _ => s

end Sys2Proof.Machine
end

