-- ==== Sys2Proof/Machine/HostProgram.lean ====
section
/-! DEFINITION. The host program syntax of 30_encoding.md R70 and R71, and the host events each statement stands for. -/

namespace Sys2Proof.Machine

/-- A statement of a host program (R70, R71). -/
inductive HostStmt where
  | wr (r : Reg) (v : Word)
  | rd (r : Reg)
  | wrb (b : Buf) (a : Nat) (bytes : List Byte)
  | rdb (b : Buf) (a n : Nat)
  | resetState
  | encode (kind : Kind) (seq : BitVec 3) (off len : Nat)
  | decode (off len : Nat)
  | getState
  | setState
  | feed (off len : Nat)
  deriving DecidableEq, Repr

/-- The host statement `WRB buf[a], bytes`: byte writes at rising offsets (R70).
DESIGN CHOICE (log 19): a byte at or above `0x10000` lies outside the buffer's window of R44, and the spec gives it no
offset; here it lies at the buffer's base plus that number, cut to the 18 bits of an offset. -/
def writeBytesEvents (b : Buf) : Nat → List Byte → List HostEvent
  | _, [] => []
  | a, v :: s => .write (BitVec.ofNat 18 (bufBase b + a)) .byte (v.setWidth 32) :: writeBytesEvents b (a + 1) s

/-- The command word `1 | kind<<3 | seq<<5` (R70). -/
def encodeWord (kind : Kind) (seq : BitVec 3) : Word :=
  1#32 ||| ((kindCode kind).setWidth 32 <<< 3) ||| (seq.setWidth 32 <<< 5)

/-- The host events of one statement (R70, R71). -/
def expandStmt : HostStmt → List HostEvent
  | .wr r v => [writeEvent r v]
  | .rd r => [readEvent r]
  | .wrb b a bytes => writeBytesEvents b a bytes
  | .rdb b a n => readBytesEvents b a n
  | .resetState => [writeEvent .cmd 0#32]
  | .encode kind seq off len =>
    [writeEvent .argOff (BitVec.ofNat 32 off), writeEvent .argLen (BitVec.ofNat 32 len),
      writeEvent .cmd (encodeWord kind seq)]
  | .decode off len => decodeEvents off len
  | .getState => [writeEvent .cmd 3#32]
  | .setState => [writeEvent .cmd 4#32]
  | .feed off len => [.feed off len]

/-- The host events of a program, in its order (R53). -/
def expandProgram (stmts : List HostStmt) : List HostEvent := stmts.flatMap expandStmt

end Sys2Proof.Machine
end

