-- ==== Sys2Proof/Machine/Platform.lean ====
section
/-! DEFINITION. A platform of `N_INST` core instances, each with its own host, registers, buffers and `st`
(00_scope.md R11, 70_reset_and_hazards.md R156). -/

namespace Sys2Proof.Machine

/-- The instances of a platform; `N_INST` is the length of the list (R11). `Platform.ok` bounds it. -/
structure Platform where
  cores : List State
  deriving DecidableEq, Repr

/-- `N_INST`, the number of instances (R11). -/
def Platform.nInst (pl : Platform) : Nat := pl.cores.length

/-- The platform can be built: `N_INST ≥ 1` (R11). -/
def Platform.ok (pl : Platform) : Bool := 1 ≤ pl.nInst

/-- `n` instances right after reset (R11, R143); buildable, in the sense of `Platform.ok`, exactly for `n ≥ 1`. -/
def Platform.reset (n : Nat) : Platform := ⟨List.replicate n State.reset⟩

/-- Instance `k` takes one step. Which instance moves is given from outside: the spec orders no two instances (R53; log 11). -/
def Platform.stepCore (k : Nat) (pl : Platform) : Host.Outcome Platform Fault Refusal :=
  match pl.cores[k]? with
  | none => .next pl
  | some s =>
    match step s with
    | .next t => .next ⟨pl.cores.set k t⟩
    | .fault r => .fault r
    | .refused r => .refused r

end Sys2Proof.Machine
end

