-- ==== Sys2Proof/WellFormed.lean ====
section
/-! DEFINITION. Which instruction terms the opcode table and the rules give: the bounds the constructors' types do not say. -/

namespace Sys2Proof

/-- A word of the catch-all row `ILLEGAL_HIGH_BITS`: `OP` in 0..4 and no row above it matches (R68, opcode_table.json). -/
def illegalHighWord (w : Word) : Bool :=
  cmdOp w ≤ 4#3 && (if cmdOp w = 1#3 then cmdHigh w != 0#24 else cmdRest w != 0#29)

/-- Well-formed for a core with parameters `p`.
`ILLEGAL_HIGH_BITS` carries a word of its row, `CRC_STEP`'s checksum fits `CRC_W` bits (R73),
and FLAG never reaches `ESC_DECODE_ONE` (R82). -/
def Instr.wf (p : Params) : Instr → Bool
  | .illegalHighBits w => illegalHighWord w
  | .crcStep c _ => c.toNat < 2 ^ p.crcBits
  | .escDecodeOne b _ => b != p.flag
  | .resetState | .encodeData _ | .encodeAck _ | .encodeNack _ | .encodeKind3 _
  | .decode | .getState | .setState | .reserved5 _ | .reserved6 _ | .reserved7 _
  | .escEncodeOne _ | .ctlEncode _ _ | .ctlDecode _
  | .ctlI _ _ _ | .ctlSRr _ _ | .ctlSRnr _ _ | .ctlSRej _ _ | .ctlSSrej _ _ | .ctlU _ _ => true

end Sys2Proof
end

