-- ==== Sys2Proof/Safety.lean ====
section
/-! DEFINITION. The terms claims are stated in: the invariant of every state between commands, what a run of the host's
program is, what a buffer holds, and the spec's own closed forms of a frame and of an illegal command word. -/

namespace Sys2Proof.Machine

/-- A decoder state's registers fit their widths, `st.out` fits `DBUF` (10_state.md R22) and no end is recorded (R25). -/
structure DecState.Fits (p : Params) (st : DecState) : Prop where
  crc : st.crc.toNat < 2 ^ p.crcBits
  startPos : st.startPos < 2 ^ p.cw
  pos : st.pos < 2 ^ p.cw
  out : st.out ≤ p.dbufSize
  noEnd : st.endValid = false ∧ st.endPos = 0

/-- The snapshot bank's registers fit their widths (R34). -/
structure Bank.Fits (p : Params) (b : Bank) : Prop where
  crc : b.crc.toNat < 2 ^ p.crcBits
  startPos : b.startPos < 2 ^ p.cw
  endPos : b.endPos < 2 ^ p.cw
  pos : b.pos < 2 ^ p.cw
  out : b.out < 2 ^ p.cw

/-- The invariant of every state between commands: buildable parameters (R9, R10), every register within its width,
`CTL_OUT` never holding kind code 3 (R65), the buffers in canonical form and inside their sizes (R41 to R43). -/
structure State.Inv (s : State) : Prop where
  params : s.params.ok = true
  st : s.st.Fits s.params
  bank : s.bank.Fits s.params
  argOff : s.argOff < 2 ^ s.params.cw
  argLen : s.argLen < 2 ^ s.params.cw
  resCount : s.resCount < 2 ^ s.params.cw
  resLen : s.resLen < 2 ^ s.params.cw
  ctlOut : ctlOutKind s.ctlOut ≠ 3#2
  memWf : Memory.wf s.mem = true
  memWithin : Memory.within s.params s.mem = true

/-- Between frames the record is `INIT_STATE`: what R19 and R125 say of Seeking-start states. It holds as long as no
SET_STATE loads another image (log 13). -/
def State.SeekClean (s : State) : Prop := s.st.startValid = false → s.st = initState s.params

/-- The host's events, one step each, lead from `s` to `t`. -/
def Reaches (s t : State) : Prop := ∃ k, Host.Core.run Sys2Proof.core k s = .next t

/-- The buffer holds the bytes from offset `a` on. -/
def BufHolds (s : State) (b : Buf) (a : Nat) (bytes : List Byte) : Prop := readBufBytes s b a bytes.length = bytes

/-- Everything but the result registers is the same. -/
def SameButResults (s t : State) : Prop :=
  t.params = s.params ∧ t.st = s.st ∧ t.ctlOut = s.ctlOut ∧ t.argOff = s.argOff ∧ t.argLen = s.argLen ∧
    t.bank = s.bank ∧ t.mem = s.mem ∧ t.fn = s.fn ∧ t.host = s.host ∧ t.observed = s.observed

/-- The command is turned away: INVALID_ARGUMENT, 0, 0 and no other change (60_exceptions.md R135). -/
def TurnedAway (s t : State) : Prop :=
  t.status = .invalidArgument ∧ t.resCount = 0 ∧ t.resLen = 0 ∧ SameButResults s t

/-- An illegal command word, in the words of 30_encoding.md R68. -/
def illegalCommand (w : Word) : Prop :=
  (cmdOp w = 5#3 ∨ cmdOp w = 6#3 ∨ cmdOp w = 7#3) ∨ w.extractLsb' 8 24 ≠ 0#24 ∨
    (cmdOp w ≠ 1#3 ∧ w.extractLsb' 3 5 ≠ 0#5) ∨ (cmdOp w = 1#3 ∧ cmdKind w = 3#2)

/-- The resolved bytes of a frame before its FCS: address, control, payload (30_encoding.md R57). -/
def frameContents (kind : Kind) (seq : BitVec 3) (payload : List Byte) : List Byte :=
  addressByte :: ctlEncode kind seq :: payload

/-- The wire frame of R57: FLAG, the escaped contents and FCS bytes, FLAG. -/
def wireFrame (p : Params) (kind : Kind) (seq : BitVec 3) (payload : List Byte) : List Byte :=
  [p.flag] ++ escEncode p (frameContents kind seq payload ++ fcsBytes p (frameContents kind seq payload)) ++ [p.flag]

/-- The consistency law of 40_checksum.md R77, for one byte string. -/
def CrcLawAt (p : Params) (s : List Byte) : Prop := crcFold p (crcInit p) (s ++ fcsBytes p s) = crcGood p

/-- An instruction with a command word: the internal functions and the control byte classes have none. -/
def isCommand : Instr → Bool
  | .resetState | .encodeData _ | .encodeAck _ | .encodeNack _ | .encodeKind3 _ | .decode | .getState | .setState
  | .reserved5 _ | .reserved6 _ | .reserved7 _ | .illegalHighBits _ => true
  | .crcStep _ _ | .escEncodeOne _ | .escDecodeOne _ _ | .ctlEncode _ _ | .ctlDecode _
  | .ctlI _ _ _ | .ctlSRr _ _ | .ctlSRnr _ _ | .ctlSRej _ _ | .ctlSSrej _ _ | .ctlU _ _ => false

/-- The next host event is a write of the command word `w`. -/
def WritesCmd (s : State) (w : Word) : Prop := ∃ rest, s.host = writeEvent .cmd w :: rest

/-- The next host event writes the DECODE word to `CMD`. -/
def writesDecode (s : State) : Bool :=
  match s.host with
  | .write off .word w :: _ => off == 0x00#18 && w == 2#32
  | _ => false

/-- How many of the first `k` steps are DECODE commands. -/
def decodesIn : Nat → State → Nat
  | 0, _ => 0
  | k + 1, s =>
    (if writesDecode s then 1 else 0) +
      match step s with
      | .next t => decodesIn k t
      | .fault _ => 0
      | .refused _ => 0

end Sys2Proof.Machine
end

