-- ==== Sys2Proof/Certificates/Slice0/Obligations.lean ====
section
/-! DEFINITION. The statements for the provers. Each docstring names the rule of spec/ it formalises; a clause that rests on
a choice of this model names its log entry. -/

open Sys2Proof Sys2Proof.Machine

/-! ## Code words -/

/-- Words written out from R66's fields and R68's list, and control bytes from R64's classes, decode to what they stand for. -/
def Obligations.TableWordsDecodeAsWritten : Prop :=
  decodeCmd 0x00000000#32 = .resetState ∧ decodeCmd 0x00000041#32 = .encodeData 2#3 ∧
  decodeCmd 0x000000A9#32 = .encodeAck 5#3 ∧ decodeCmd 0x000000F1#32 = .encodeNack 7#3 ∧
  decodeCmd 0x00000019#32 = .encodeKind3 0#3 ∧ decodeCmd 0x00000002#32 = .decode ∧
  decodeCmd 0x00000003#32 = .getState ∧ decodeCmd 0x00000004#32 = .setState ∧
  decodeCmd 0x0000000D#32 = .reserved5 1#29 ∧ decodeCmd 0x00000006#32 = .reserved6 0#29 ∧
  decodeCmd 0x80000007#32 = .reserved7 0x10000000#29 ∧ decodeCmd 0x00000101#32 = .illegalHighBits 0x101#32 ∧
  decodeCtl 0x1E#8 = .ctlI 7#3 1#1 0#3 ∧ decodeCtl 0xE1#8 = .ctlSRr 0#1 7#3 ∧ decodeCtl 0x25#8 = .ctlSRnr 0#1 1#3 ∧
  decodeCtl 0x49#8 = .ctlSRej 0#1 2#3 ∧ decodeCtl 0x7D#8 = .ctlSSrej 1#1 3#3 ∧ decodeCtl 0x0B#8 = .ctlU 2#3 0#3

/-- R72's example host statements write these command words, after their operands (R70). The last clause speaks of every
natural `off` and `len`; for one of `2 ^ 32` or more, that the word written is its value cut to 32 bits is the model's
choice (log 19, DESIGN CHOICE). -/
def Obligations.ExampleStatementsWriteTheirWords : Prop :=
  expandStmt (.encode .data 2#3 0 3) = [.write 0x04#18 .word 0#32, .write 0x08#18 .word 3#32, .write 0x00#18 .word 0x41#32] ∧
  expandStmt (.encode .ack 5#3 0 0) = [.write 0x04#18 .word 0#32, .write 0x08#18 .word 0#32, .write 0x00#18 .word 0xA9#32] ∧
  expandStmt (.encode .nack 7#3 0 0) = [.write 0x04#18 .word 0#32, .write 0x08#18 .word 0#32, .write 0x00#18 .word 0xF1#32] ∧
  ∀ off len : Nat, expandStmt (.decode off len) =
    [.write 0x04#18 .word (BitVec.ofNat 32 off), .write 0x08#18 .word (BitVec.ofNat 32 len), .write 0x00#18 .word 2#32]

/-- Decoding the code of a well-formed instruction gives the instruction back, for every instruction that has a code and
every operand (30_encoding.md sections 2 and 4). -/
def Obligations.DecodeOfEncodeIsTheInstruction : Prop :=
  ∀ (p : Params) (i : Instr) (c : Code), i.wf p = true → encode i = some c → decodeCode c = i

/-- Every command word and every control byte has exactly one meaning, a well-formed one (R64, R66, R68). -/
def Obligations.EveryCodeHasOneMeaning : Prop :=
  ∀ (p : Params) (c : Code), (decodeCode c).wf p = true ∧ encode (decodeCode c) = some c ∧
    ∀ i : Instr, i.wf p = true → encode i = some c → i = decodeCode c

/-- R68: an illegal command word ends with INVALID_ARGUMENT and changes nothing else, and every other word is one of the
five commands (so there is no hint, no no-op and no custom word). -/
def Obligations.IllegalWordsAreTurnedAway : Prop :=
  ∀ (w : Word) (s : State),
    (illegalCommand w → ∃ t, exec (decodeCmd w) s = .next t ∧ TurnedAway s t) ∧
    (¬ illegalCommand w → decodeCmd w = .resetState ∨ decodeCmd w = .decode ∨ decodeCmd w = .getState ∨
      decodeCmd w = .setState ∨
      ∃ seq, decodeCmd w = .encodeData seq ∨ decodeCmd w = .encodeAck seq ∨ decodeCmd w = .encodeNack seq)

/-! ## Steps and the host bus -/

/-- A step whose next host event writes a word to `CMD` is the command the word decodes to, run on the state behind the
event (R14, R50, R52). -/
def Obligations.StepRunsTheWrittenCommand : Prop :=
  ∀ (s : State) (w : Word) (rest : List HostEvent), s.host = .write 0x00#18 .word w :: rest →
    step s = exec (decodeCmd w) (withHost s rest)

/-- R50: a write to `CMD` runs one command; any other write touches neither the decoder state nor a result register nor the
host's record; a read changes nothing but that record, and reading again gives the same value. With no host event the core
holds its state (R141). -/
def Obligations.OnlyCmdWritesHaveSideEffects : Prop :=
  ∀ (s t : State) (off : BitVec 18) (width : Width) (v : Word) (rest : List HostEvent),
    (s.host = [] → step s = .next s) ∧
    (s.host = .write 0x00#18 .word v :: rest → step s = exec (decodeCmd v) (withHost s rest)) ∧
    (s.host = .write off width v :: rest → off ≠ 0x00#18 → step s = .next t →
      t.st = s.st ∧ t.ctlOut = s.ctlOut ∧ t.status = s.status ∧ t.resCount = s.resCount ∧ t.resLen = s.resLen ∧
        t.params = s.params ∧ t.fn = s.fn ∧ t.observed = s.observed ∧ t.host = rest) ∧
    (s.host = .read off width :: .read off width :: rest → step s = .next t →
      ∃ x, t = { s with host := .read off width :: rest, observed := s.observed ++ [x] } ∧
        step t = .next { s with host := rest, observed := s.observed ++ [x, x] })

/-- R45, reads: each offset of the map gives its register, and `CMD` gives 0. -/
def Obligations.RegisterReadsFollowTheMap : Prop :=
  ∀ (s : State) (off : BitVec 18) (x : Word) (rest : List HostEvent),
    (off, x) ∈ [(0x00#18, 0#32), (0x04#18, BitVec.ofNat 32 s.argOff), (0x08#18, BitVec.ofNat 32 s.argLen),
      (0x0C#18, (statusCode s.status).setWidth 32), (0x10#18, BitVec.ofNat 32 s.resCount),
      (0x14#18, BitVec.ofNat 32 s.resLen), (0x18#18, s.ctlOut.setWidth 32), (0x20#18, s.bank.flags.setWidth 32),
      (0x24#18, BitVec.ofNat 32 s.bank.startPos), (0x28#18, BitVec.ofNat 32 s.bank.endPos),
      (0x2C#18, BitVec.ofNat 32 s.bank.pos), (0x30#18, BitVec.ofNat 32 s.bank.out), (0x34#18, s.bank.crc)] →
    s.host = .read off .word :: rest →
    step s = .next { s with host := rest, observed := s.observed ++ [x] }

/-- R45, writes: a read-write register takes the bits of its width and no other state changes; a read-only register
ignores the write. -/
def Obligations.RegisterWritesKeepTheWidth : Prop :=
  ∀ (s : State) (off : BitVec 18) (v : Word) (rest : List HostEvent), s.host = .write off .word v :: rest →
    (off = 0x04#18 → step s = .next { s with host := rest, argOff := v.toNat % 2 ^ s.params.cw }) ∧
    (off = 0x08#18 → step s = .next { s with host := rest, argLen := v.toNat % 2 ^ s.params.cw }) ∧
    (off = 0x20#18 → step s = .next { s with host := rest, bank := { s.bank with flags := v.extractLsb' 0 3 } }) ∧
    (off = 0x24#18 → step s = .next { s with host := rest, bank := { s.bank with startPos := v.toNat % 2 ^ s.params.cw } }) ∧
    (off = 0x28#18 → step s = .next { s with host := rest, bank := { s.bank with endPos := v.toNat % 2 ^ s.params.cw } }) ∧
    (off = 0x2C#18 → step s = .next { s with host := rest, bank := { s.bank with pos := v.toNat % 2 ^ s.params.cw } }) ∧
    (off = 0x30#18 → step s = .next { s with host := rest, bank := { s.bank with out := v.toNat % 2 ^ s.params.cw } }) ∧
    (off = 0x34#18 → step s = .next { s with
      host := rest, bank := { s.bank with crc := BitVec.ofNat 32 (v.toNat % 2 ^ s.params.crcBits) } }) ∧
    (off = 0x0C#18 ∨ off = 0x10#18 ∨ off = 0x14#18 ∨ off = 0x18#18 → step s = .next { s with host := rest })

/-- R46: a reserved offset reads 0 and ignores writes, in the register window (word accesses), past a buffer's size and
between the windows (byte accesses). -/
def Obligations.ReservedOffsetsReadZero : Prop :=
  ∀ (s : State) (off : BitVec 18) (v : Word) (rest : List HostEvent) (width : Width),
    (off.toNat < 0x100 → width = .word ∧ off.toNat % 4 = 0 ∧
      off.toNat ∉ [0x00, 0x04, 0x08, 0x0C, 0x10, 0x14, 0x18, 0x20, 0x24, 0x28, 0x2C, 0x30, 0x34]) →
    (0x100 ≤ off.toNat → width = .byte) →
    (∀ b : Buf, ¬ (bufBase b ≤ off.toNat ∧ off.toNat < bufBase b + bufSize s.params b)) →
    (s.host = .read off width :: rest → step s = .next { s with host := rest, observed := s.observed ++ [0#32] }) ∧
    (s.host = .write off width v :: rest → step s = .next { s with host := rest })

/-- A sub-word or misaligned register access and a multi-byte buffer access are refused, reads and writes alike, each under
its own name (R142, R47); a word access to a reserved register offset is not (R46). What exactly is such an access is the
model's reading (log 9, DEDUCED): a multi-byte access that begins before a buffer or runs past its end, and a sub-word or
misaligned access to a reserved register offset, are refused too. -/
def Obligations.AccessesOutsideTheInterfaceAreRefused : Prop :=
  ∀ (s : State) (off : BitVec 18) (width : Width) (v : Word) (rest : List HostEvent),
    (s.host = .read off width :: rest ∨ s.host = .write off width v :: rest) →
    (off.toNat < 0x100 → width ≠ .word → step s = .refused .subWordRegisterAccess) ∧
    (off.toNat < 0x100 → width = .word → off.toNat % 4 ≠ 0 → step s = .refused .misalignedRegisterAccess) ∧
    (0x100 ≤ off.toNat → width ≠ .byte → off.toNat + widthBytes width ≤ 0x40000 →
      (∃ (b : Buf) (k : Nat), k < widthBytes width ∧ bufBase b ≤ off.toNat + k ∧
        off.toNat + k < bufBase b + bufSize s.params b) →
      step s = .refused .multiByteBufferAccess) ∧
    (off = 0x1C#18 → width = .word → ∃ t, step s = .next t)

/-- R44: a host byte write at a buffer's window offset writes that buffer byte and nothing else, and a byte read gives it. -/
def Obligations.BufferBytesAreReadAndWrittenInTheirWindow : Prop :=
  ∀ (s : State) (b : Buf) (a : Nat) (v : Word) (rest : List HostEvent), s.Inv → a < bufSize s.params b →
    (s.host = .write (BitVec.ofNat 18 (bufBase b + a)) .byte v :: rest →
      ∃ t, step s = .next t ∧ readBuf t b a = v.extractLsb' 0 8 ∧
        (∀ x, x ≠ bufBase b + a → Memory.read t.mem x = Memory.read s.mem x) ∧
        t = { s with host := rest, mem := t.mem }) ∧
    (s.host = .read (BitVec.ofNat 18 (bufBase b + a)) .byte :: rest →
      step s = .next { s with host := rest, observed := s.observed ++ [(readBuf s b a).setWidth 32] })

/-! ## Reset and the invariant -/

/-- R39: what every register holds after hardware reset. -/
def Obligations.ResetRegistersHoldTheirValues : Prop :=
  State.reset.st = { esc := false, crc := crcInit State.reset.params, startValid := false, startPos := 0, endValid := false, endPos := 0, pos := 0, out := 0 } ∧
  State.reset.ctlOut = 0#5 ∧ State.reset.argOff = 0 ∧ State.reset.argLen = 0 ∧ State.reset.status = .ok ∧
  State.reset.resCount = 0 ∧ State.reset.resLen = 0 ∧
  State.reset.bank = { flags := 0#3, startPos := 0, endPos := 0, pos := 0, out := 0, crc := crcInit State.reset.params }

/-- R143: asserting reset puts every register into its reset state, whatever the state before; and the buffers come up
holding the images given (R144; an image is any memory in canonical form inside the buffers). -/
def Obligations.HardwareResetSetsEveryRegister : Prop :=
  ∀ (s : State) (images : List Host.Cell) (rest : List HostEvent), s.host = .reset images :: rest →
    ∃ t, step s = .next t ∧
      t.st = { esc := false, crc := crcInit s.params, startValid := false, startPos := 0, endValid := false, endPos := 0, pos := 0, out := 0 } ∧
      t.ctlOut = 0#5 ∧ t.argOff = 0 ∧ t.argLen = 0 ∧ t.status = .ok ∧ t.resCount = 0 ∧ t.resLen = 0 ∧
      t.bank = { flags := 0#3, startPos := 0, endPos := 0, pos := 0, out := 0, crc := crcInit s.params } ∧
      t.params = s.params ∧
      (Memory.wf images = true → Memory.within s.params images = true → t.mem = images)

/-- The reset state meets the invariant. -/
def Obligations.ResetStateMeetsTheInvariant : Prop := State.reset.Inv

/-- Every step keeps the invariant: registers within their widths, `st.out` within `DBUF`, no end recorded between commands
(R22, R25), no kind code 3 in `CTL_OUT` (R65), canonical buffers inside their sizes. -/
def Obligations.EveryStepKeepsTheInvariant : Prop := ∀ s t : State, s.Inv → step s = .next t → t.Inv

/-- No command changes a build parameter (R145), nor does any other step. -/
def Obligations.ParametersNeverChange : Prop := ∀ s t : State, step s = .next t → t.params = s.params

/-! ## Every command -/

/-- R134: no outcome traps. Every instruction, in every state, answers a next state. -/
def Obligations.NoInstructionTraps : Prop := ∀ (i : Instr) (s : State), ∃ t, exec i s = .next t

/-- R135: a command that ends with INVALID_ARGUMENT changes nothing but the result registers, which it sets to 0. -/
def Obligations.RefusedCommandsChangeNothingElse : Prop :=
  ∀ (i : Instr) (s t : State), isCommand i = true → exec i s = .next t → t.status = .invalidArgument → TurnedAway s t

/-- R69: the status codes, none of 6 to 15 among them, and which commands write each. -/
def Obligations.StatusCodesAndTheirWriters : Prop :=
  (statusCode .ok = 0#4 ∧ statusCode .noCompleteFrame = 1#4 ∧ statusCode .frame = 2#4 ∧
    statusCode .checksumOrFramingError = 3#4 ∧ statusCode .invalidArgument = 4#4 ∧ statusCode .capacityExceeded = 5#4) ∧
  (∀ x : Status, (statusCode x).toNat < 6) ∧
  ∀ (i : Instr) (s t : State), isCommand i = true → exec i s = .next t →
    (t.status = .ok → (∃ seq, i = .encodeData seq ∨ i = .encodeAck seq ∨ i = .encodeNack seq) ∨ i = .resetState ∨
      i = .getState ∨ i = .setState) ∧
    (t.status = .noCompleteFrame ∨ t.status = .frame ∨ t.status = .checksumOrFramingError ∨
      t.status = .capacityExceeded → i = .decode)

/-- R16 and R27 over the commands: only DECODE, RESET_STATE and SET_STATE write `st`, and only DECODE writes `CTL_OUT`;
over the steps: besides them, only the hardware reset. -/
def Obligations.OnlyTheNamedCommandsWriteDecoderRegisters : Prop :=
  (∀ (i : Instr) (s t : State), exec i s = .next t →
    (t.st ≠ s.st → i = .decode ∨ i = .resetState ∨ i = .setState) ∧ (t.ctlOut ≠ s.ctlOut → i = .decode)) ∧
  ∀ s t : State, step s = .next t →
    (t.st ≠ s.st → WritesCmd s 0#32 ∨ WritesCmd s 2#32 ∨ WritesCmd s 4#32 ∨ ∃ images rest, s.host = .reset images :: rest) ∧
    (t.ctlOut ≠ s.ctlOut → WritesCmd s 2#32 ∨ ∃ images rest, s.host = .reset images :: rest)

/-- R41 to R43 over the commands: none writes `IBUF`, only DECODE writes `DBUF`, only ENCODE writes `EBUF`. -/
def Obligations.EachBufferHasItsOneWriter : Prop :=
  ∀ (i : Instr) (s t : State) (a : Nat), s.Inv → exec i s = .next t →
    (a < s.params.ibufSize → readBuf t .ibuf a = readBuf s .ibuf a) ∧
    (a < s.params.dbufSize → readBuf t .dbuf a ≠ readBuf s .dbuf a → i = .decode) ∧
    (a < s.params.ebufSize → readBuf t .ebuf a ≠ readBuf s .ebuf a →
      ∃ seq, i = .encodeData seq ∨ i = .encodeAck seq ∨ i = .encodeNack seq)

/-- The command words that are always turned away complete as the rules say: the reserved opcodes, whatever bits 31:3 hold
(R130), kind code 3 (R88) and every other illegal word (R68). -/
def Obligations.AlwaysRefusedRowsComplete : Prop :=
  ∀ (s : State) (seq : BitVec 3) (rest : BitVec 29) (word : Word),
    (∀ i : Instr, i = .encodeKind3 seq ∨ i = .reserved5 rest ∨ i = .reserved6 rest ∨ i = .reserved7 rest ∨
        i = .illegalHighBits word →
      exec i s = .next { s with status := .invalidArgument, resCount := 0, resLen := 0 }) ∧
    (cmdOp word = 5#3 ∨ cmdOp word = 6#3 ∨ cmdOp word = 7#3 →
      exec (decodeCmd word) s = .next { s with status := .invalidArgument, resCount := 0, resLen := 0 })

/-! ## RESET_STATE, GET_STATE, SET_STATE -/

/-- R126: RESET_STATE puts `st` back to `INIT_STATE` and changes nothing else but the result registers; with bits set above
the opcode it is turned away. -/
def Obligations.ResetStateCommandResetsOnlyTheRecord : Prop :=
  ∀ (s : State) (w : Word), cmdOp w = 0#3 →
    (w.extractLsb' 3 29 = 0#29 → exec (decodeCmd w) s = exec .resetState s ∧
      exec .resetState s = .next { s with
        st := { esc := false, crc := crcInit s.params, startValid := false, startPos := 0, endValid := false, endPos := 0, pos := 0, out := 0 },
        status := .ok, resCount := 0, resLen := 0 }) ∧
    (w.extractLsb' 3 29 ≠ 0#29 → ∃ t, exec (decodeCmd w) s = .next t ∧ TurnedAway s t)

/-- R127: GET_STATE writes the image of `st` into the bank, field by field, and changes nothing else but the result
registers; with bits set above the opcode it is turned away. -/
def Obligations.GetStateCopiesTheRecordToTheBank : Prop :=
  ∀ (s : State) (w : Word), cmdOp w = 3#3 →
    (w.extractLsb' 3 29 = 0#29 → exec (decodeCmd w) s = exec .getState s ∧
      ∃ t, exec .getState s = .next t ∧
        t.bank.flags.toNat = 4 * s.st.endValid.toNat + 2 * s.st.startValid.toNat + s.st.esc.toNat ∧
        t.bank.startPos = s.st.startPos ∧ t.bank.endPos = s.st.endPos ∧ t.bank.pos = s.st.pos ∧
        t.bank.out = s.st.out ∧ t.bank.crc = s.st.crc ∧
        t = { s with bank := t.bank, status := .ok, resCount := 0, resLen := 0 }) ∧
    (w.extractLsb' 3 29 ≠ 0#29 → ∃ t, exec (decodeCmd w) s = .next t ∧ TurnedAway s t)

/-- R128 and R129: SET_STATE loads the bank into `st` if the image has no end recorded and `SN_OUT ≤ DBUF_SIZE`, and is
turned away otherwise, or with bits set above the opcode. -/
def Obligations.SetStateLoadsAnAcceptableImage : Prop :=
  ∀ (s : State) (w : Word), cmdOp w = 4#3 →
    (w.extractLsb' 3 29 = 0#29 → exec (decodeCmd w) s = exec .setState s ∧
      (s.bank.flags.getLsbD 2 = false ∧ s.bank.endPos = 0 ∧ s.bank.out ≤ s.params.dbufSize →
        exec .setState s = .next { s with
          st := { esc := s.bank.flags.getLsbD 0, crc := s.bank.crc, startValid := s.bank.flags.getLsbD 1, startPos := s.bank.startPos, endValid := false, endPos := 0, pos := s.bank.pos, out := s.bank.out },
          status := .ok, resCount := 0, resLen := 0 }) ∧
      (¬ (s.bank.flags.getLsbD 2 = false ∧ s.bank.endPos = 0 ∧ s.bank.out ≤ s.params.dbufSize) →
        ∃ t, exec .setState s = .next t ∧ TurnedAway s t)) ∧
    (w.extractLsb' 3 29 ≠ 0#29 → ∃ t, exec (decodeCmd w) s = .next t ∧ TurnedAway s t)

/-- R131: whatever ran in between, SET_STATE of the bank a GET_STATE left puts `st` back to its value at the GET_STATE. -/
def Obligations.SaveAndRestoreTheRecord : Prop :=
  ∀ a b c : State, a.Inv → exec .getState a = .next b → c.params = a.params → c.bank = b.bank →
    ∃ d, exec .setState c = .next d ∧ d.status = .ok ∧ d.st = a.st

/-- The record is `INIT_STATE` while the decoder seeks a start (R19, R23, R125), as long as no SET_STATE loads another image:
every other instruction keeps it so, and a SET_STATE can end it, since R128 accepts a Seeking-start image whose `start` is
not 0 (log 13; 93_implementation_defined.md row 10). -/
def Obligations.SeekingRecordStaysInitial : Prop :=
  (∀ (i : Instr) (s t : State), i ≠ .setState → s.SeekClean → exec i s = .next t → t.SeekClean) ∧
  ∃ s t : State, s.Inv ∧ s.SeekClean ∧ exec .setState s = .next t ∧ t.status = .ok ∧
    t.st.startValid = false ∧ t.st.startPos ≠ 0

/-! ## The internal functions and the control byte classes (their result is recorded in `fn`, log 7) -/

/-- R73, R81, R82, R84, R85: each internal function completes in every state with the value its pseudocode gives, and
changes nothing else. -/
def Obligations.InternalFunctionsGiveTheirValues : Prop :=
  ∀ (s : State) (c : Word) (b : Byte) (pending : Bool) (kind : Kind) (seq : BitVec 3),
    exec (.crcStep c b) s = .next { s with fn := .checksum (crcStep s.params c b) } ∧
    exec (.escEncodeOne b) s = .next { s with
      fn := .bytes (if b = s.params.flag ∨ b = s.params.esc then [s.params.esc, b ^^^ 0x20#8] else [b]) } ∧
    exec (.escDecodeOne b pending) s = .next { s with
      fn := if b = s.params.esc then .resolved none true
        else if pending = true then .resolved (some (b ^^^ 0x20#8)) false
        else .resolved (some b) false } ∧
    exec (.ctlEncode kind seq) s = .next { s with
      fn := .control (match kind with
        | .data => BitVec.ofNat 8 (0x10 + 2 * seq.toNat)
        | .ack => BitVec.ofNat 8 (0x01 + 32 * seq.toNat)
        | .nack => BitVec.ofNat 8 (0x09 + 32 * seq.toNat)) } ∧
    exec (.ctlDecode b) s = .next { s with
      fn := .descriptor (if b.toNat % 2 = 0 then ⟨.data, BitVec.ofNat 3 (b.toNat / 2)⟩
        else if b.toNat % 16 = 1 then ⟨.ack, BitVec.ofNat 3 (b.toNat / 32)⟩
        else ⟨.nack, BitVec.ofNat 3 (b.toNat / 32)⟩) }

/-- The control byte classes complete in every state with the descriptor R64's table gives, and change nothing else. -/
def Obligations.ControlClassesGiveTheirDescriptor : Prop :=
  ∀ (s : State) (ns nr mid : BitVec 3) (pf : BitVec 1),
    exec (.ctlI ns pf nr) s = .next { s with fn := .descriptor ⟨.data, ns⟩ } ∧
    exec (.ctlSRr pf nr) s = .next { s with fn := .descriptor ⟨.ack, nr⟩ } ∧
    exec (.ctlSRnr pf nr) s = .next { s with fn := .descriptor ⟨.nack, nr⟩ } ∧
    exec (.ctlSRej pf nr) s = .next { s with fn := .descriptor ⟨.nack, nr⟩ } ∧
    exec (.ctlSSrej pf nr) s = .next { s with fn := .descriptor ⟨.nack, nr⟩ } ∧
    exec (.ctlU mid nr) s = .next { s with fn := .descriptor ⟨.nack, nr⟩ }

/-- R64: a control byte falls in exactly one class, by mask and match, and `CTL_DECODE` gives the descriptor of the table's
row. The last clause is the model's own (log 7, DESIGN CHOICE): running the class the decoder names does the same as running
`CTL_DECODE`, both recording the result in `fn`. -/
def Obligations.ControlByteClassesCoverAllBytes : Prop :=
  ∀ (c : Byte) (s : State),
    ([c &&& 0x01#8 == 0x00#8, c &&& 0x0F#8 == 0x01#8, c &&& 0x0F#8 == 0x05#8, c &&& 0x0F#8 == 0x09#8,
      c &&& 0x0F#8 == 0x0D#8, c &&& 0x03#8 == 0x03#8].count true = 1) ∧
    (c &&& 0x01#8 = 0x00#8 → ctlDecode c = ⟨.data, c.extractLsb' 1 3⟩) ∧
    (c &&& 0x0F#8 = 0x01#8 → ctlDecode c = ⟨.ack, c.extractLsb' 5 3⟩) ∧
    (c &&& 0x0F#8 = 0x05#8 ∨ c &&& 0x0F#8 = 0x09#8 ∨ c &&& 0x0F#8 = 0x0D#8 ∨ c &&& 0x03#8 = 0x03#8 →
      ctlDecode c = ⟨.nack, c.extractLsb' 5 3⟩) ∧
    exec (decodeCtl c) s = exec (.ctlDecode c) s

/-- R86 with R63: decoding an encoded descriptor gives it back, and encoding a decoded byte gives it back for the 24 values
the encoder emits and for no other. -/
def Obligations.ControlCodecRoundTrip : Prop :=
  (∀ (kind : Kind) (seq : BitVec 3), ctlDecode (ctlEncode kind seq) = ⟨kind, seq⟩) ∧
  ∀ c : Byte, ctlEncode (ctlDecode c).kind (ctlDecode c).seq = c ↔
    c ∈ [0x10#8, 0x12#8, 0x14#8, 0x16#8, 0x18#8, 0x1A#8, 0x1C#8, 0x1E#8, 0x01#8, 0x21#8, 0x41#8, 0x61#8, 0x81#8,
      0xA1#8, 0xC1#8, 0xE1#8, 0x09#8, 0x29#8, 0x49#8, 0x69#8, 0x89#8, 0xA9#8, 0xC9#8, 0xE9#8]

/-- A control byte that DECODE receives at the control position writes to `CTL_OUT` the descriptor its class gives (R108,
R64): the class rows and the decoder agree. -/
def Obligations.ReceivedControlByteReachesCtlOut : Prop :=
  ∀ (s : State) (c : Byte), s.Inv → ∃ t u d, step (presentControl c s) = .next t ∧ exec (decodeCtl c) s = .next u ∧
    u.fn = .descriptor d ∧ t.ctlOut.toNat = (match d.kind with | .data => 0 | .ack => 1 | .nack => 2) + 4 * d.seq.toNat

/-- R83: un-escaping an escaped byte string gives it back with no escape pending, and no FLAG stands in it. -/
def Obligations.EscapeCodecIsReversible : Prop :=
  ∀ (p : Params) (s : List Byte), escDecode p (escEncode p s) false = (s, false) ∧ p.flag ∉ escEncode p s

/-- R78 and R79, the default instances at 16 and at 32 bits: their constants, their loop and their check value, and R78's
byte-table form. -/
def Obligations.StandardChecksums : Prop :=
  ∀ p : Params, p.crc = .standard →
    (p.crcWidth = .w16 →
      crcInit p = 0xFFFF#32 ∧ crcGood p = 0xF0B8#32 ∧ crcInv p = 0xFFFF#32 ∧
      (∀ (c : BitVec 16) (b : Byte), crcStep p (c.setWidth 32) b =
        ((fun x : BitVec 16 => if x.getLsbD 0 = true then (x >>> 1) ^^^ 0x8408#16 else x >>> 1)^[8]
          (c ^^^ b.setWidth 16)).setWidth 32) ∧
      (∀ (c : Word) (b : Byte), c.toNat < 2 ^ 16 →
        crcStep p c b = (c >>> 8) ^^^ crcStep p ((c ^^^ b.setWidth 32) &&& 0xFF#32) 0#8) ∧
      crcFold p 0xFFFF#32 [0x31#8, 0x32#8, 0x33#8, 0x34#8, 0x35#8, 0x36#8, 0x37#8, 0x38#8, 0x39#8] ^^^ 0xFFFF#32 =
        0x906E#32) ∧
    (p.crcWidth = .w32 →
      crcInit p = 0xFFFFFFFF#32 ∧ crcGood p = 0xDEBB20E3#32 ∧ crcInv p = 0xFFFFFFFF#32 ∧
      (∀ (c : Word) (b : Byte), crcStep p c b =
        (fun x : BitVec 32 => if x.getLsbD 0 = true then (x >>> 1) ^^^ 0xEDB88320#32 else x >>> 1)^[8]
          (c ^^^ b.setWidth 32)) ∧
      crcFold p 0xFFFFFFFF#32 [0x31#8, 0x32#8, 0x33#8, 0x34#8, 0x35#8, 0x36#8, 0x37#8, 0x38#8, 0x39#8] ^^^ 0xFFFFFFFF#32 =
        0xCBF43926#32)

/-- R77 for the default instances (R78, R79): the FCS bytes of any string bring the checksum to the good value. -/
def Obligations.StandardChecksumsMeetTheLaw : Prop :=
  ∀ (p : Params) (s : List Byte), p.crc = .standard → CrcLawAt p s

/-! ## ENCODE -/

/-- R57, R91, R94: ENCODE in range, with a frame that fits, writes the wire frame to `EBUF` from 0, reports its length, and
changes nothing else. The payload is `IBUF[ARG_OFF ..]` for Data and empty for the other kinds. -/
def Obligations.EncodeWritesTheWireFrame : Prop :=
  ∀ (s : State) (seq : BitVec 3) (i : Instr) (f : List Byte), s.Inv → s.argOff + s.argLen ≤ s.params.ibufSize →
    (i = .encodeData seq ∧ f = wireFrame s.params .data seq (readBufBytes s .ibuf s.argOff s.argLen)) ∨
      (i = .encodeAck seq ∧ f = wireFrame s.params .ack seq []) ∨
      (i = .encodeNack seq ∧ f = wireFrame s.params .nack seq []) →
    f.length ≤ s.params.ebufSize →
    ∃ t, exec i s = .next t ∧ BufHolds t .ebuf 0 f ∧
      (∀ a, ¬ (0x30000 ≤ a ∧ a < 0x30000 + f.length) → Memory.read t.mem a = Memory.read s.mem a) ∧
      t = { s with mem := t.mem, status := .ok, resCount := f.length, resLen := 0 }

/-- R88 and R93: ENCODE is turned away for a reserved command word, for kind code 3, for a byte range past `IBUF`, and for a
frame longer than `EBUF`. -/
def Obligations.EncodeChecksItsOperands : Prop :=
  ∀ (s : State) (w : Word), cmdOp w = 1#3 →
    (cmdHigh w ≠ 0#24 ∨ cmdKind w = 3#2 ∨ s.params.ibufSize < s.argOff + s.argLen ∨
      (∃ kind, (kind, cmdKind w) ∈ [(Kind.data, 0#2), (Kind.ack, 1#2), (Kind.nack, 2#2)] ∧
        s.params.ebufSize < (wireFrame s.params kind (cmdSeq w)
          (if kind = .data then readBufBytes s .ibuf s.argOff s.argLen else [])).length)) →
    ∃ t, exec (decodeCmd w) s = .next t ∧ TurnedAway s t

/-- R95: ENCODE's outcome depends on the parameters, `ARG_OFF`, `ARG_LEN` and the `IBUF` bytes they name, and on nothing
else: two states that agree on these get the same result registers and the same frame. -/
def Obligations.EncodeDependsOnlyOnItsOperands : Prop :=
  ∀ (s s' t t' : State) (seq : BitVec 3) (i : Instr), s.Inv → s'.Inv → s'.params = s.params →
    s'.argOff = s.argOff → s'.argLen = s.argLen →
    readBufBytes s' .ibuf s.argOff s.argLen = readBufBytes s .ibuf s.argOff s.argLen →
    i = .encodeData seq ∨ i = .encodeAck seq ∨ i = .encodeNack seq →
    exec i s = .next t → exec i s' = .next t' →
    t'.status = t.status ∧ t'.resCount = t.resCount ∧ t'.resLen = t.resLen ∧
      readBufBytes t' .ebuf 0 t.resCount = readBufBytes t .ebuf 0 t.resCount

/-- R60: the length of an encoded frame, its bounds and when they are met; the address and the control byte are never
escaped. -/
def Obligations.FrameLengthBounds : Prop :=
  ∀ (p : Params) (kind : Kind) (seq : BitVec 3) (payload f fcs : List Byte), (kind ≠ .data → payload = []) →
    f = frameBytes p kind seq payload → fcs = fcsBytes p (frameContents kind seq payload) →
    payload.length + p.fcsLen + 4 ≤ f.length ∧ f.length ≤ 2 * payload.length + 2 * p.fcsLen + 4 ∧
    ((∀ b ∈ payload ++ fcs, b ≠ p.flag ∧ b ≠ p.esc) → f.length = payload.length + p.fcsLen + 4) ∧
    ((∀ b ∈ payload ++ fcs, b = p.flag ∨ b = p.esc) → f.length = 2 * payload.length + 2 * p.fcsLen + 4) ∧
    escEncodeOne p addressByte = [addressByte] ∧ escEncodeOne p (ctlEncode kind seq) = [ctlEncode kind seq]

/-- R57, R58, R89: the six steps of `FRAME_BYTES` build the wire frame; between its two FLAGs no FLAG stands, and
un-escaping gives the contents and their FCS bytes. -/
def Obligations.FrameBytesAreTheWireFrame : Prop :=
  ∀ (p : Params) (kind : Kind) (seq : BitVec 3) (payload : List Byte), ∃ body,
    frameBytes p kind seq payload = wireFrame p kind seq payload ∧
    frameBytes p kind seq payload = p.flag :: (body ++ [p.flag]) ∧ p.flag ∉ body ∧
    escDecode p body false =
      (frameContents kind seq payload ++ fcsBytes p (frameContents kind seq payload), false)

/-! ## DECODE -/

/-- R98: DECODE of a byte range past `IBUF`, or with bits set above the opcode, is turned away. -/
def Obligations.DecodeChecksItsOperands : Prop :=
  ∀ (s : State) (w : Word), cmdOp w = 2#3 → w.extractLsb' 3 29 ≠ 0#29 ∨ s.params.ibufSize < s.argOff + s.argLen →
    ∃ t, exec (decodeCmd w) s = .next t ∧ TurnedAway s t

/-- DECODE in range completes; it writes only `st`, `CTL_OUT`, the result registers and `DBUF` bytes from the cursor `st.out`
on, at most one per chunk byte and none past `DBUF_SIZE` (R56, R155). -/
def Obligations.DecodeWritesOnlyFromItsCursor : Prop :=
  ∀ s : State, s.Inv → s.argOff + s.argLen ≤ s.params.ibufSize →
    ∃ t, exec .decode s = .next t ∧
      t = { s with st := t.st, ctlOut := t.ctlOut, mem := t.mem, status := t.status, resCount := t.resCount, resLen := t.resLen } ∧
      ∀ a, ¬ (0x20000 + s.st.out ≤ a ∧ a < 0x20000 + min (s.st.out + s.argLen) s.params.dbufSize) →
        Memory.read t.mem a = Memory.read s.mem a

/-- R132, the rows of DECODE: what each status says of the result registers and of `st`. -/
def Obligations.DecodeOutcomeTable : Prop :=
  ∀ s t : State, s.Inv → exec .decode s = .next t →
    (t.status = .invalidArgument ↔ s.params.ibufSize < s.argOff + s.argLen) ∧
    (t.status = .invalidArgument → TurnedAway s t) ∧
    t.status ≠ .ok ∧
    (t.status = .noCompleteFrame → t.resCount = s.argLen ∧ t.resLen = 0) ∧
    (t.status = .frame ∨ t.status = .checksumOrFramingError → t.resCount < s.argLen ∧
      readBuf s .ibuf (s.argOff + t.resCount) = s.params.flag ∧ t.st = initState s.params) ∧
    (t.status = .checksumOrFramingError → t.resLen = 0) ∧
    (t.status = .frame → t.resLen + s.params.fcsLen ≤ s.params.dbufSize) ∧
    (t.status = .capacityExceeded → 1 ≤ t.resCount ∧ t.resCount ≤ s.argLen ∧ t.resLen = 0 ∧ t.st = initState s.params)

/-- R101 and R102 over a chunk with no doubled FLAG: in the Seeking-start phase every byte before the first FLAG is
discarded, and that FLAG starts a frame at the present position, if the position can be counted (R100). -/
def Obligations.SeekingSkipsToTheStartFlag : Prop :=
  ∀ (s : State) (skipped : List Byte), s.Inv → s.st.startValid = false → s.argOff + s.argLen ≤ s.params.ibufSize →
    s.params.flag ∉ skipped →
    (readBufBytes s .ibuf s.argOff s.argLen = skipped →
      exec .decode s = .next { s with status := .noCompleteFrame, resCount := s.argLen, resLen := 0 }) ∧
    (readBufBytes s .ibuf s.argOff s.argLen = skipped ++ [s.params.flag] → s.st.pos ≠ 2 ^ s.params.cw - 1 →
      exec .decode s = .next { s with
        st := { s.st with startValid := true, startPos := s.st.pos, pos := s.st.pos + 1 },
        status := .noCompleteFrame, resCount := s.argLen, resLen := 0 }) ∧
    (readBufBytes s .ibuf s.argOff s.argLen = skipped ++ [s.params.flag] → s.st.pos = 2 ^ s.params.cw - 1 →
      exec .decode s = .next { s with
        st := initState s.params, status := .capacityExceeded, resCount := s.argLen, resLen := 0 })

/-- R101 and R103, the look-ahead, in both phases: a FLAG whose next chunk byte is FLAG is discarded, so DECODE of the chunk
does what DECODE of the chunk without it does, with one more byte consumed. -/
def Obligations.FlagBeforeFlagIsDiscarded : Prop :=
  ∀ (s t u : State) (rest : List Byte), s.argOff + s.argLen ≤ s.params.ibufSize →
    readBufBytes s .ibuf s.argOff s.argLen = s.params.flag :: s.params.flag :: rest →
    exec .decode s = .next t → exec .decode { s with argOff := s.argOff + 1, argLen := s.argLen - 1 } = .next u →
    t = { u with argOff := s.argOff, argLen := s.argLen, resCount := u.resCount + 1 }

/-- R103, R104, R112 to R114 and R116 for a one-byte chunk: an In-frame FLAG right after the start FLAG is discarded; any other
ends the frame, which is valid under R112's three conditions, and resets `st`. `CTL_OUT` and the buffers stay. -/
def Obligations.InFrameFlagEndsTheFrame : Prop :=
  ∀ s : State, s.st.startValid = true → s.argLen = 1 → s.argOff + 1 ≤ s.params.ibufSize →
    readBuf s .ibuf s.argOff = s.params.flag →
    (s.st.pos = s.st.startPos + 1 →
      exec .decode s = .next { s with status := .noCompleteFrame, resCount := 1, resLen := 0 }) ∧
    (s.st.pos ≠ s.st.startPos + 1 →
      (s.st.pos ≥ s.st.startPos + 3 + s.params.fcsLen ∧ s.st.out ≥ s.params.fcsLen ∧ s.st.crc = crcGood s.params →
        exec .decode s = .next { s with
          st := initState s.params, status := .frame, resCount := 0, resLen := s.st.out - s.params.fcsLen }) ∧
      (¬ (s.st.pos ≥ s.st.startPos + 3 + s.params.fcsLen ∧ s.st.out ≥ s.params.fcsLen ∧ s.st.crc = crcGood s.params) →
        exec .decode s = .next { s with
          st := initState s.params, status := .checksumOrFramingError, resCount := 0, resLen := 0 }))

/-- R105 for a one-byte chunk: an In-frame ESC is counted and makes an escape pending, and does nothing else. -/
def Obligations.InFrameEscIsCounted : Prop :=
  ∀ s : State, s.st.startValid = true → s.argLen = 1 → s.argOff + 1 ≤ s.params.ibufSize →
    readBuf s .ibuf s.argOff = s.params.esc → s.st.pos ≠ 2 ^ s.params.cw - 1 →
    exec .decode s = .next { s with
      st := { s.st with esc := true, pos := s.st.pos + 1 }, status := .noCompleteFrame, resCount := 1, resLen := 0 }

/-- R106 to R109 for a one-byte chunk: an In-frame data byte is resolved and folded into the checksum; at `start + 2` it is the
control byte and goes to `CTL_OUT`, beyond it goes to `DBUF` at the cursor, before it goes nowhere. -/
def Obligations.InFrameDataByteIsPlacedByPosition : Prop :=
  ∀ (s : State) (b v : Byte), s.Inv → s.st.startValid = true → s.argLen = 1 → s.argOff + 1 ≤ s.params.ibufSize →
    readBuf s .ibuf s.argOff = b → b ≠ s.params.flag → b ≠ s.params.esc → s.st.pos ≠ 2 ^ s.params.cw - 1 →
    v = (if s.st.esc = true then b ^^^ 0x20#8 else b) →
    (s.st.pos < s.st.startPos + 2 → exec .decode s = .next { s with
      st := { s.st with esc := false, crc := crcStep s.params s.st.crc v, pos := s.st.pos + 1 },
      status := .noCompleteFrame, resCount := 1, resLen := 0 }) ∧
    (s.st.pos = s.st.startPos + 2 → exec .decode s = .next { s with
      st := { s.st with esc := false, crc := crcStep s.params s.st.crc v, pos := s.st.pos + 1 },
      ctlOut := (ctlDecode v).seq ++ kindCode (ctlDecode v).kind,
      status := .noCompleteFrame, resCount := 1, resLen := 0 }) ∧
    (s.st.pos > s.st.startPos + 2 → s.st.out < s.params.dbufSize → ∃ t, exec .decode s = .next t ∧
      readBuf t .dbuf s.st.out = v ∧
      (∀ a, a ≠ 0x20000 + s.st.out → Memory.read t.mem a = Memory.read s.mem a) ∧
      t = { s with
        st := { s.st with esc := false, crc := crcStep s.params s.st.crc v, pos := s.st.pos + 1, out := s.st.out + 1 },
        mem := t.mem,
        status := .noCompleteFrame, resCount := 1, resLen := 0 })

/-- R100, R109 and R110 for a one-byte chunk: a byte to be counted at `POS_MAX`, or a payload byte that finds `DBUF` full,
abandons the frame with CAPACITY_EXCEEDED and has no other effect than the reset of `st`. -/
def Obligations.FullCounterOrBufferAbandonsTheFrame : Prop :=
  ∀ (s : State) (b : Byte), s.st.startValid = true → s.argLen = 1 → s.argOff + 1 ≤ s.params.ibufSize →
    readBuf s .ibuf s.argOff = b → b ≠ s.params.flag →
    s.st.pos = 2 ^ s.params.cw - 1 ∨
      (b ≠ s.params.esc ∧ s.st.pos > s.st.startPos + 2 ∧ s.st.out ≥ s.params.dbufSize) →
    exec .decode s = .next { s with
      st := initState s.params, status := .capacityExceeded, resCount := 1, resLen := 0 }

/-- R99 and R111: DECODE of a chunk is DECODE of its first part followed by DECODE of the rest, wherever the cut parts no two
FLAGs: if the first part ends with no outcome the rest goes on from there, counting on, and otherwise its outcome is that of
the whole chunk. -/
def Obligations.DecodeGoesOnAcrossACut : Prop :=
  ∀ (s u : State) (m n : Nat), s.Inv → s.argLen = m + n → s.argOff + s.argLen ≤ s.params.ibufSize →
    ¬ (0 < m ∧ 0 < n ∧ readBuf s .ibuf (s.argOff + m - 1) = s.params.flag ∧
      readBuf s .ibuf (s.argOff + m) = s.params.flag) →
    exec .decode { s with argLen := m } = .next u →
    (u.status = .noCompleteFrame → ∃ v, exec .decode { u with argOff := s.argOff + m, argLen := n } = .next v ∧
      exec .decode s = .next { v with argOff := s.argOff, argLen := s.argLen, resCount := m + v.resCount }) ∧
    (u.status ≠ .noCompleteFrame → exec .decode s = .next { u with argLen := s.argLen })

/-- R152 and R155: DECODE's outcome depends on the parameters, the argument registers, the chunk's bytes, `st` and `CTL_OUT`,
and on nothing else; the buffer bytes it writes are the same from two states that agree on these. -/
def Obligations.DecodeDependsOnlyOnItsOperands : Prop :=
  ∀ s s' t t' : State, s.Inv → s'.Inv → s'.params = s.params → s'.argOff = s.argOff → s'.argLen = s.argLen →
    s'.st = s.st → s'.ctlOut = s.ctlOut →
    readBufBytes s' .ibuf s.argOff s.argLen = readBufBytes s .ibuf s.argOff s.argLen →
    exec .decode s = .next t → exec .decode s' = .next t' →
    t'.st = t.st ∧ t'.ctlOut = t.ctlOut ∧ t'.status = t.status ∧ t'.resCount = t.resCount ∧ t'.resLen = t.resLen ∧
      ∀ a, Memory.read t'.mem a = Memory.read t.mem a ∨
        (Memory.read t'.mem a = Memory.read s'.mem a ∧ Memory.read t.mem a = Memory.read s.mem a)

/-- R153: an ENCODE between two DECODEs does not change what the second does, whatever the ENCODE's own operands. -/
def Obligations.EncodeDoesNotDisturbDecode : Prop :=
  ∀ (s e t u : State) (i : Instr) (seq : BitVec 3) (off len : Nat), s.Inv →
    i = .encodeData seq ∨ i = .encodeAck seq ∨ i = .encodeNack seq →
    exec i s = .next e →
    exec .decode { s with argOff := off, argLen := len } = .next t →
    exec .decode { e with argOff := off, argLen := len } = .next u →
    u.st = t.st ∧ u.ctlOut = t.ctlOut ∧ u.status = t.status ∧ u.resCount = t.resCount ∧ u.resLen = t.resLen ∧
      ∀ a, a < s.params.dbufSize → readBuf u .dbuf a = readBuf t .dbuf a

/-- R124: two DECODEs in a row, each of a chunk that is not empty and starts at the first unconsumed byte, together consume
at least one byte. The second chunk may be of any length that stays inside `IBUF`. -/
def Obligations.TwoDecodesConsumeAByte : Prop :=
  ∀ (s t u : State) (n : Nat), s.Inv → 1 ≤ s.argLen → s.argOff + s.argLen ≤ s.params.ibufSize →
    exec .decode s = .next t → 1 ≤ n → s.argOff + t.resCount + n ≤ s.params.ibufSize →
    exec .decode { t with argOff := s.argOff + t.resCount, argLen := n } = .next u →
    1 ≤ t.resCount + u.resCount

/-! ## Whole streams -/

/-- R125, from `INIT_STATE` (log 13): DECODE of the frame a successful ENCODE left in `EBUF`, copied anywhere into `IBUF`,
gives FRAME with the descriptor and the payload back, for a checksum that keeps R77's law on this frame. The room asked of
`DBUF` is `|p| + W` for every kind (log 14). -/
def Obligations.DecodeOfAnEncodedFrame : Prop :=
  ∀ (s e d : State) (seq : BitVec 3) (i : Instr) (kind : Kind) (payload : List Byte), s.Inv → d.Inv →
    (i = .encodeData seq ∧ kind = .data ∧ payload = readBufBytes s .ibuf s.argOff s.argLen) ∨
      (i = .encodeAck seq ∧ kind = .ack ∧ payload = []) ∨ (i = .encodeNack seq ∧ kind = .nack ∧ payload = []) →
    exec i s = .next e → e.status = .ok →
    d.params = s.params → d.st = initState d.params → d.argLen = e.resCount → d.argOff + d.argLen ≤ d.params.ibufSize →
    BufHolds d .ibuf d.argOff (readBufBytes e .ebuf 0 e.resCount) →
    CrcLawAt s.params (frameContents kind seq payload) → payload.length + s.params.fcsLen ≤ s.params.dbufSize →
    ∃ t, exec .decode d = .next t ∧ t.status = .frame ∧ t.resCount = e.resCount - 1 ∧ t.ctlOut = packCtl ⟨kind, seq⟩ ∧
      t.resLen = payload.length ∧ BufHolds t .dbuf 0 payload ∧ t.st = initState d.params

/-- R123: frames laid end to end with one shared FLAG between neighbours all come out of FEED, each with its own descriptor
and payload, and in their order. -/
def Obligations.BackToBackFramesAllDecode : Prop :=
  ∀ (s : State) (off len : Nat) (frames : List (Kind × BitVec 3 × List Byte)), s.Inv → s.st = initState s.params →
    s.host = [.feed off len] → off + len ≤ s.params.ibufSize →
    BufHolds s .ibuf off (s.params.flag :: frames.flatMap fun f => (wireFrame s.params f.1 f.2.1 f.2.2).tail) →
    len = (s.params.flag :: frames.flatMap fun f => (wireFrame s.params f.1 f.2.1 f.2.2).tail).length →
    (∀ f ∈ frames, CrcLawAt s.params (frameContents f.1 f.2.1 f.2.2) ∧
      f.2.2.length + s.params.fcsLen ≤ s.params.dbufSize) →
    ∃ t, Reaches s t ∧ t.host = [] ∧
      t.observed = s.observed ++ frames.flatMap fun f =>
        (packCtl ⟨f.1, f.2.1⟩).setWidth 32 :: BitVec.ofNat 32 f.2.2.length :: f.2.2.map (BitVec.setWidth 32)

/-- R121: a stream fed whole and the same stream fed in two parts end with the same observed outcomes and the same decoder
state and buffers, so that any further cuts may follow; from any state a decoder can be in without a SET_STATE (log 13). -/
def Obligations.ChunkingDoesNotChangeTheOutcomes : Prop :=
  ∀ (s : State) (off m n : Nat), s.Inv → s.SeekClean → off + m + n ≤ s.params.ibufSize →
    ∃ t u, Reaches { s with host := [.feed off (m + n)] } t ∧
      Reaches { s with host := [.feed off m, .feed (off + m) n] } u ∧
      t.host = [] ∧ u.host = [] ∧ t.observed = u.observed ∧ t.st = u.st ∧ t.ctlOut = u.ctlOut ∧ t.mem = u.mem

/-- R59 and R122: doubling any FLAG of a stream does not change the observed outcomes, nor the decoder state and buffers it
ends in. -/
def Obligations.DoubledFlagsCollapse : Prop :=
  ∀ (s : State) (off off' : Nat) (x y : List Byte), s.Inv → s.SeekClean →
    BufHolds s .ibuf off (x ++ [s.params.flag] ++ y) → off + (x.length + 1 + y.length) ≤ s.params.ibufSize →
    BufHolds s .ibuf off' (x ++ [s.params.flag, s.params.flag] ++ y) → off' + (x.length + 2 + y.length) ≤ s.params.ibufSize →
    ∃ t u, Reaches { s with host := [.feed off (x.length + 1 + y.length)] } t ∧
      Reaches { s with host := [.feed off' (x.length + 2 + y.length)] } u ∧
      t.host = [] ∧ u.host = [] ∧ t.observed = u.observed ∧ t.st = u.st ∧ t.ctlOut = u.ctlOut ∧ t.mem = u.mem

/-- R71: FEED of `len` bytes ends after at most `2·len + 1` DECODE commands and leaves the host at its next statement. -/
def Obligations.FeedEndsWithinItsBound : Prop :=
  ∀ (s : State) (off len : Nat) (rest : List HostEvent), s.Inv → off < 2 ^ s.params.cw → len < 2 ^ s.params.cw →
    s.host = .feed off len :: rest →
    ∃ k t, Host.Core.run Sys2Proof.core k s = .next t ∧ t.host = rest ∧ decodesIn k s ≤ 2 * len + 1

/-! ## Several instances -/

/-- R11 and R156: a step of one instance leaves every other instance as it is, keeps the number of instances and its bound
`N_INST ≥ 1`, and steps of two instances commute. The platform right after reset keeps the bound for every `n ≥ 1`. -/
def Obligations.InstancesAreIndependent : Prop :=
  (∀ n : Nat, 1 ≤ n → (Platform.reset n).ok = true ∧ (Platform.reset n).nInst = n) ∧
  ∀ (a b c : Platform) (j k : Nat), j ≠ k → a.stepCore j = .next b → b.stepCore k = .next c →
    (∀ i, i ≠ j → b.cores[i]? = a.cores[i]?) ∧ b.nInst = a.nInst ∧ (a.ok = true → b.ok = true) ∧
    ∃ b', a.stepCore k = .next b' ∧ b'.stepCore j = .next c
end

