-- ==== Sys2Proof/Laws/Checksum.lean ====
section
/-! SUPPORT. The checksum stays within `CRC_W` bits, and folding follows the byte string. -/

namespace Sys2Proof

theorem BitVec16_in_word (x : BitVec 16) : (x.setWidth 32).toNat < 2 ^ 16 := by
  have := x.isLt
  simp only [BitVec.toNat_setWidth]
  omega

theorem crcStep_lt (p : Params) (c : Word) (b : Byte) : (crcStep p c b).toNat < 2 ^ p.crcBits := by
  unfold crcStep Params.crcBits
  split <;> simp only [*]
  · exact BitVec16_in_word _
  · exact BitVec.isLt _
  · exact BitVec16_in_word _
  · exact BitVec.isLt _

theorem crcInit_lt (p : Params) : (crcInit p).toNat < 2 ^ p.crcBits := by
  unfold crcInit Params.crcBits
  split <;> simp only [*]
  · decide
  · decide
  · exact BitVec16_in_word _
  · exact BitVec.isLt _

@[simp] theorem crcFold_nil (p : Params) (c : Word) : crcFold p c [] = c := rfl

@[simp] theorem crcFold_cons (p : Params) (c : Word) (b : Byte) (s : List Byte) :
    crcFold p c (b :: s) = crcFold p (crcStep p c b) s := rfl

theorem crcFold_append (p : Params) (c : Word) (s t : List Byte) :
    crcFold p c (s ++ t) = crcFold p (crcFold p c s) t := by simp [crcFold]

theorem crcBits_le (p : Params) : p.crcBits ≤ 32 := by unfold Params.crcBits; split <;> omega

theorem fcsLen_cases (p : Params) : p.fcsLen = 2 ∨ p.fcsLen = 4 := by
  unfold Params.fcsLen Params.crcBits; split <;> simp

@[simp] theorem length_lsbFirst (p : Params) (v : Word) : (lsbFirst p v).length = p.fcsLen := by simp [lsbFirst]

@[simp] theorem length_fcsBytes (p : Params) (s : List Byte) : (fcsBytes p s).length = p.fcsLen := by simp [fcsBytes]

end Sys2Proof
end

