-- ==== Sys2Proof/Laws/Codec.lean ====
section
/-! SUPPORT. The two reserved bytes, the escape codec byte by byte, and the packing of `CTL_OUT`. -/

namespace Sys2Proof

theorem flag_ne_esc (p : Params) : p.flag ≠ p.esc := by
  unfold Params.flag Params.esc; split <;> decide

theorem flag_cases (p : Params) :
    (p.flag = 0x7E#8 ∧ p.esc = 0x7D#8) ∨ (p.flag = 0x7D#8 ∧ p.esc = 0x7E#8) := by
  unfold Params.flag Params.esc; split <;> simp

theorem escEncodeOne_reserved {p : Params} {b : Byte} (h : b = p.flag ∨ b = p.esc) :
    escEncodeOne p b = [p.esc, b ^^^ 0x20#8] := by simp [escEncodeOne, h]

theorem escEncodeOne_plain {p : Params} {b : Byte} (h : ¬ (b = p.flag ∨ b = p.esc)) : escEncodeOne p b = [b] := by
  simp [escEncodeOne, h]

/-- A reserved byte XOR 0x20 is not reserved. -/
theorem escaped_not_reserved {p : Params} {b : Byte} (h : b = p.flag ∨ b = p.esc) :
    b ^^^ 0x20#8 ≠ p.flag ∧ b ^^^ 0x20#8 ≠ p.esc := by
  rcases flag_cases p with ⟨h1, h2⟩ | ⟨h1, h2⟩ <;> rw [h1, h2] at h ⊢ <;> rcases h with rfl | rfl <;> decide

theorem xor_20_twice (b : Byte) : (b ^^^ 0x20#8) ^^^ 0x20#8 = b := by
  rw [BitVec.xor_assoc]; simp

@[simp] theorem escEncode_nil (p : Params) : escEncode p [] = [] := rfl

@[simp] theorem escEncode_cons (p : Params) (b : Byte) (s : List Byte) :
    escEncode p (b :: s) = escEncodeOne p b ++ escEncode p s := rfl

theorem escEncode_append (p : Params) (s t : List Byte) :
    escEncode p (s ++ t) = escEncode p s ++ escEncode p t := by simp [escEncode]

/-- The address and every control byte the encoder makes are emitted as they are (30_encoding.md R63). -/
theorem escEncodeOne_address (p : Params) : escEncodeOne p addressByte = [addressByte] := by
  apply escEncodeOne_plain
  rcases flag_cases p with ⟨h1, h2⟩ | ⟨h1, h2⟩ <;> rw [h1, h2] <;> decide

theorem escEncodeOne_ctlEncode (p : Params) (kind : Kind) (seq : BitVec 3) :
    escEncodeOne p (ctlEncode kind seq) = [ctlEncode kind seq] := by
  apply escEncodeOne_plain
  rcases flag_cases p with ⟨h1, h2⟩ | ⟨h1, h2⟩ <;> rw [h1, h2] <;> revert seq <;> cases kind <;> decide

namespace Machine

theorem ctlOutKind_packCtl (d : Descriptor) : ctlOutKind (packCtl d) = kindCode d.kind := by
  obtain ⟨k, seq⟩ := d
  revert seq
  cases k <;> decide

theorem kindCode_ne_three (k : Kind) : kindCode k ≠ 3#2 := by cases k <;> decide

theorem flags_packFlags (e s v : Bool) :
    flagsEsc (packFlags e s v) = e ∧ flagsStartValid (packFlags e s v) = s ∧ flagsEndValid (packFlags e s v) = v := by
  cases e <;> cases s <;> cases v <;> decide

end Machine

end Sys2Proof
end

