-- ==== Sys2Proof/Laws/Memory.lean ====
section
/-! SUPPORT. The laws of the buffers: a read after a write, the canonical form, and which offsets are listed. -/

namespace Sys2Proof.Machine

/-- Every listed offset is above `a`. -/
def Memory.above (a : Nat) (m : Memory) : Prop := ∀ c ∈ m, a < c.1

theorem Memory.wf_cons {a : Nat} {v : Byte} {m : Memory} :
    Memory.wf ((a, v) :: m) = true ↔ v ≠ blankByte ∧ Memory.above a m ∧ Memory.wf m = true := by
  simp [Memory.wf, Memory.above, and_assoc]

theorem Memory.above_mono {a b : Nat} {m : Memory} (h : a ≤ b) (hm : Memory.above b m) : Memory.above a m :=
  fun c hc => Nat.lt_of_le_of_lt h (hm c hc)

theorem Memory.read_above {a : Nat} {m : Memory} (h : Memory.above a m) : Memory.read m a = blankByte := by
  induction m with
  | nil => rfl
  | cons c m ih =>
    have hc : a < c.1 := h c (by simp)
    have hm : Memory.above a m := fun d hd => h d (by simp [hd])
    simp [Memory.read, Nat.ne_of_lt hc, ih hm]

/-- A write adds at most the offset written. -/
theorem Memory.mem_write {m : Memory} {a : Nat} {v : Byte} {c : Host.Cell} (h : c ∈ Memory.write m a v) :
    c = (a, v) ∨ c ∈ m := by
  induction m with
  | nil =>
    simp only [Memory.write] at h
    split at h <;> simp_all
  | cons d m ih =>
    simp only [Memory.write] at h
    split at h
    · split at h <;> simp_all
    · split at h
      · split at h
        · exact .inr (by simp [h])
        · rcases List.mem_cons.1 h with h | h
          · exact .inl h
          · exact .inr (by simp [h])
      · simp only [List.mem_cons] at h ⊢
        rcases h with h | h
        · exact .inr (.inl h)
        · rcases ih h with h | h
          · exact .inl h
          · exact .inr (.inr h)

theorem Memory.above_write {m : Memory} {a b : Nat} {v : Byte} (hm : Memory.above b m) (hb : b < a) :
    Memory.above b (Memory.write m a v) := fun _ hc => by
  rcases Memory.mem_write hc with rfl | h
  · exact hb
  · exact hm _ h

/-- A write keeps the canonical form. -/
theorem Memory.wf_write {m : Memory} (h : Memory.wf m = true) (a : Nat) (v : Byte) :
    Memory.wf (Memory.write m a v) = true := by
  induction m with
  | nil =>
    simp only [Memory.write]
    split
    · rfl
    · simp [Memory.wf, *]
  | cons c m ih =>
    obtain ⟨b, w⟩ := c
    obtain ⟨hw, hb, hm⟩ := Memory.wf_cons.1 h
    simp only [Memory.write]
    split
    · rename_i hab
      split
      · exact h
      · refine Memory.wf_cons.2 ⟨‹_›, ?_, h⟩
        intro d hd
        rcases List.mem_cons.1 hd with rfl | hd
        · exact hab
        · exact lt_trans hab (hb d hd)
    · split
      · rename_i hab
        split
        · exact hm
        · subst hab; exact Memory.wf_cons.2 ⟨‹_›, hb, hm⟩
      · exact Memory.wf_cons.2 ⟨hw, Memory.above_write hb (by omega), ih hm⟩

/-- A read after a write: the byte written, or what stood there. -/
theorem Memory.read_write {m : Memory} (h : Memory.wf m = true) (a x : Nat) (v : Byte) :
    Memory.read (Memory.write m a v) x = if x = a then v else Memory.read m x := by
  induction m with
  | nil =>
    simp only [Memory.write]
    split <;> simp [Memory.read, *]
  | cons c m ih =>
    obtain ⟨b, w⟩ := c
    obtain ⟨hw, hb, hm⟩ := Memory.wf_cons.1 h
    simp only [Memory.write]
    split
    · rename_i hab
      split
      · rename_i hv
        split
        · subst_vars
          exact Memory.read_above (fun d hd => by
            rcases List.mem_cons.1 hd with rfl | hd
            · exact hab
            · exact lt_trans hab (hb d hd))
        · rfl
      · simp [Memory.read]
    · split
      · rename_i hab
        subst hab
        split
        · rename_i hv
          split
          · subst_vars; exact Memory.read_above hb
          · simp [Memory.read, *]
        · by_cases hx : x = a <;> simp [Memory.read, hx]
      · rename_i h1 h2
        by_cases hx : x = b
        · subst hx; simp [Memory.read, Ne.symm h2]
        · simp [Memory.read, hx, ih hm]

@[simp] theorem Memory.read_write_self {m : Memory} (h : Memory.wf m = true) (a : Nat) (v : Byte) :
    Memory.read (Memory.write m a v) a = v := by simp [Memory.read_write h]

theorem Memory.read_write_other {m : Memory} (h : Memory.wf m = true) {a x : Nat} (v : Byte) (hx : x ≠ a) :
    Memory.read (Memory.write m a v) x = Memory.read m x := by simp [Memory.read_write h, hx]

/-- Writing keeps every listed offset inside the buffers, if the offset written is. -/
theorem Memory.within_write {p : Params} {m : Memory} (h : Memory.within p m = true) {a : Nat} (v : Byte)
    (ha : touchesBuffers p a 1 = true) : Memory.within p (Memory.write m a v) = true := by
  simp only [Memory.within, List.all_eq_true] at h ⊢
  intro c hc
  rcases Memory.mem_write hc with rfl | hc
  · exact ha
  · exact h c hc

/-! ### Several bytes -/

theorem Memory.wf_writeBytes {m : Memory} (h : Memory.wf m = true) (a : Nat) (s : List Byte) :
    Memory.wf (Memory.writeBytes m a s) = true := by
  induction s generalizing m a with
  | nil => exact h
  | cons v s ih => exact ih (Memory.wf_write h a v) (a + 1)

theorem Memory.within_writeBytes {p : Params} {m : Memory} (h : Memory.within p m = true) (a : Nat) (s : List Byte)
    (ha : ∀ k < s.length, touchesBuffers p (a + k) 1 = true) : Memory.within p (Memory.writeBytes m a s) = true := by
  induction s generalizing m a with
  | nil => exact h
  | cons v s ih =>
    refine ih (Memory.within_write h v (by simpa using ha 0 (by simp))) (a + 1) fun k hk => ?_
    have := ha (k + 1) (by simpa using hk)
    rwa [show a + 1 + k = a + (k + 1) by omega]

/-- A read after writing a byte string at rising offsets. -/
theorem Memory.read_writeBytes {m : Memory} (h : Memory.wf m = true) (a x : Nat) (s : List Byte) :
    Memory.read (Memory.writeBytes m a s) x =
      if hx : a ≤ x ∧ x < a + s.length then s[x - a] else Memory.read m x := by
  induction s generalizing m a with
  | nil => simp [Memory.writeBytes]
  | cons v s ih =>
    rw [Memory.writeBytes, ih (Memory.wf_write h a v)]
    by_cases h1 : a + 1 ≤ x ∧ x < a + 1 + s.length
    · have h2 : a ≤ x ∧ x < a + (v :: s).length := by simp; omega
      have h3 : x - a = (x - (a + 1)) + 1 := by omega
      rw [dif_pos h1, dif_pos h2]
      simp [h3]
    · rw [dif_neg h1, Memory.read_write h]
      by_cases hx : x = a
      · subst hx; simp
      · have h2 : ¬ (a ≤ x ∧ x < a + (v :: s).length) := by simp; omega
        rw [if_neg hx, dif_neg h2]

@[simp] theorem Memory.length_readBytes (m : Memory) (a n : Nat) : (Memory.readBytes m a n).length = n := by
  simp [Memory.readBytes]

@[simp] theorem Memory.getElem_readBytes (m : Memory) (a n k : Nat) (hk : k < (Memory.readBytes m a n).length) :
    (Memory.readBytes m a n)[k] = Memory.read m (a + k) := by
  simp [Memory.readBytes]

theorem Memory.readBytes_congr {m m' : Memory} {a n : Nat}
    (h : ∀ k < n, Memory.read m' (a + k) = Memory.read m (a + k)) : Memory.readBytes m' a n = Memory.readBytes m a n := by
  simp only [Memory.readBytes]
  exact List.map_congr_left fun k hk => h k (List.mem_range.1 hk)

@[simp] theorem Memory.readBytes_zero (m : Memory) (a : Nat) : Memory.readBytes m a 0 = [] := rfl

theorem Memory.readBytes_succ (m : Memory) (a n : Nat) :
    Memory.readBytes m a (n + 1) = Memory.read m a :: Memory.readBytes m (a + 1) n := by
  simp only [Memory.readBytes, List.range_succ_eq_map, List.map_cons, List.map_map, Nat.add_zero]
  congr 1
  exact List.map_congr_left fun k _ => by simp [Nat.add_assoc, Nat.add_comm 1 k]

theorem Memory.readBytes_add (m : Memory) (a n k : Nat) :
    Memory.readBytes m a (n + k) = Memory.readBytes m a n ++ Memory.readBytes m (a + n) k := by
  induction n generalizing a with
  | zero => simp
  | succ n ih =>
    rw [show n + 1 + k = (n + k) + 1 by omega, Memory.readBytes_succ, Memory.readBytes_succ, ih]
    simp [show a + 1 + n = a + (n + 1) by omega]

/-- Reading back a byte string just written. -/
theorem Memory.readBytes_writeBytes {m : Memory} (h : Memory.wf m = true) (a : Nat) (s : List Byte) :
    Memory.readBytes (Memory.writeBytes m a s) a s.length = s := by
  refine List.ext_getElem (by simp) fun k h1 h2 => ?_
  rw [Memory.getElem_readBytes, Memory.read_writeBytes h, dif_pos ⟨by omega, by omega⟩]
  simp

/-! ### Initial images -/

theorem Memory.ofImages_wf_within (p : Params) (g : List Host.Cell) :
    Memory.wf (Memory.ofImages p g) = true ∧ Memory.within p (Memory.ofImages p g) = true := by
  suffices h : ∀ m : Memory, Memory.wf m = true → Memory.within p m = true →
      Memory.wf (g.foldl (fun m c => if touchesBuffers p c.1 1 then Memory.write m c.1 c.2 else m) m) = true ∧
        Memory.within p (g.foldl (fun m c => if touchesBuffers p c.1 1 then Memory.write m c.1 c.2 else m) m) = true from
    h [] rfl rfl
  induction g with
  | nil => exact fun m h1 h2 => ⟨h1, h2⟩
  | cons c g ih =>
    intro m h1 h2
    rw [List.foldl_cons]
    split
    · exact ih _ (Memory.wf_write h1 _ _) (Memory.within_write h2 _ ‹_›)
    · exact ih m h1 h2

/-! ### Where the buffers lie -/

theorem touchesBuf_one {p : Params} {b : Buf} {a : Nat} :
    touchesBuf p b a 1 = true ↔ bufBase b ≤ a ∧ a < bufBase b + bufSize p b := by
  simp [touchesBuf]

theorem touchesBuffers_of_lt {p : Params} (b : Buf) {a : Nat} (h : a < bufSize p b) :
    touchesBuffers p (bufBase b + a) 1 = true := by
  have := touchesBuf_one (p := p) (b := b) (a := bufBase b + a)
  cases b <;> simp_all [touchesBuffers]

/-- Writing a byte past every listed offset lists it last. -/
theorem Memory.write_past {m : Memory} {a : Nat} {v : Byte} (h : ∀ c ∈ m, c.1 < a) (hv : v ≠ blankByte) :
    Memory.write m a v = m ++ [(a, v)] := by
  induction m with
  | nil => simp [Memory.write, hv]
  | cons c m ih =>
    have h1 := h c (by simp)
    have := ih fun d hd => h d (by simp [hd])
    simp only [Memory.write, if_neg (show ¬ a < c.1 by omega), if_neg (show ¬ a = c.1 by omega), this]
    simp

/-- An image that is already a canonical memory inside the buffers is the memory it makes. -/
theorem Memory.ofImages_self {p : Params} {m : Memory} (h1 : Memory.wf m = true) (h2 : Memory.within p m = true) :
    Memory.ofImages p m = m := by
  unfold Memory.ofImages
  suffices h : ∀ m0 : Memory, (∀ c ∈ m0, Memory.above c.1 m) →
      m.foldl (fun m c => if touchesBuffers p c.1 1 then Memory.write m c.1 c.2 else m) m0 = m0 ++ m by
    simpa using h []
  induction m with
  | nil => simp
  | cons c m ih =>
    obtain ⟨a, v⟩ := c
    obtain ⟨hv, ha, hm⟩ := Memory.wf_cons.1 h1
    simp only [Memory.within, List.all_cons, Bool.and_eq_true] at h2
    intro m0 hm0
    rw [List.foldl_cons, if_pos h2.1, Memory.write_past (fun c hc => hm0 c hc (a, v) (by simp)) hv, ih hm h2.2]
    · simp
    · intro c hc
      rcases List.mem_append.1 hc with hc | hc
      · exact fun d hd => hm0 c hc d (by simp [hd])
      · simp at hc; subst hc; exact ha

end Sys2Proof.Machine
end

