-- ==== Sys2Proof/Laws/State.lean ====
section
/-! SUPPORT. Each field of the state after each named update: what the update writes, and that it writes nothing else. -/

namespace Sys2Proof.Machine

/-! ### `respond` -/

@[simp] theorem respond_params (s : State) (x : Status) (c l : Nat) : (respond s x c l).params = s.params := rfl
@[simp] theorem respond_st (s : State) (x : Status) (c l : Nat) : (respond s x c l).st = s.st := rfl
@[simp] theorem respond_ctlOut (s : State) (x : Status) (c l : Nat) : (respond s x c l).ctlOut = s.ctlOut := rfl
@[simp] theorem respond_argOff (s : State) (x : Status) (c l : Nat) : (respond s x c l).argOff = s.argOff := rfl
@[simp] theorem respond_argLen (s : State) (x : Status) (c l : Nat) : (respond s x c l).argLen = s.argLen := rfl
@[simp] theorem respond_status (s : State) (x : Status) (c l : Nat) : (respond s x c l).status = x := rfl
@[simp] theorem respond_resCount (s : State) (x : Status) (c l : Nat) : (respond s x c l).resCount = c := rfl
@[simp] theorem respond_resLen (s : State) (x : Status) (c l : Nat) : (respond s x c l).resLen = l := rfl
@[simp] theorem respond_bank (s : State) (x : Status) (c l : Nat) : (respond s x c l).bank = s.bank := rfl
@[simp] theorem respond_mem (s : State) (x : Status) (c l : Nat) : (respond s x c l).mem = s.mem := rfl
@[simp] theorem respond_fn (s : State) (x : Status) (c l : Nat) : (respond s x c l).fn = s.fn := rfl
@[simp] theorem respond_host (s : State) (x : Status) (c l : Nat) : (respond s x c l).host = s.host := rfl
@[simp] theorem respond_observed (s : State) (x : Status) (c l : Nat) : (respond s x c l).observed = s.observed := rfl

/-! ### `refuse` -/

@[simp] theorem refuse_params (s : State) : (refuse s).params = s.params := rfl
@[simp] theorem refuse_st (s : State) : (refuse s).st = s.st := rfl
@[simp] theorem refuse_ctlOut (s : State) : (refuse s).ctlOut = s.ctlOut := rfl
@[simp] theorem refuse_argOff (s : State) : (refuse s).argOff = s.argOff := rfl
@[simp] theorem refuse_argLen (s : State) : (refuse s).argLen = s.argLen := rfl
@[simp] theorem refuse_status (s : State) : (refuse s).status = .invalidArgument := rfl
@[simp] theorem refuse_resCount (s : State) : (refuse s).resCount = 0 := rfl
@[simp] theorem refuse_resLen (s : State) : (refuse s).resLen = 0 := rfl
@[simp] theorem refuse_bank (s : State) : (refuse s).bank = s.bank := rfl
@[simp] theorem refuse_mem (s : State) : (refuse s).mem = s.mem := rfl
@[simp] theorem refuse_fn (s : State) : (refuse s).fn = s.fn := rfl
@[simp] theorem refuse_host (s : State) : (refuse s).host = s.host := rfl
@[simp] theorem refuse_observed (s : State) : (refuse s).observed = s.observed := rfl

/-! ### `resetDecoder` -/

@[simp] theorem resetDecoder_params (s : State) : (resetDecoder s).params = s.params := rfl
@[simp] theorem resetDecoder_st (s : State) : (resetDecoder s).st = initState s.params := rfl
@[simp] theorem resetDecoder_ctlOut (s : State) : (resetDecoder s).ctlOut = s.ctlOut := rfl
@[simp] theorem resetDecoder_argOff (s : State) : (resetDecoder s).argOff = s.argOff := rfl
@[simp] theorem resetDecoder_argLen (s : State) : (resetDecoder s).argLen = s.argLen := rfl
@[simp] theorem resetDecoder_status (s : State) : (resetDecoder s).status = s.status := rfl
@[simp] theorem resetDecoder_resCount (s : State) : (resetDecoder s).resCount = s.resCount := rfl
@[simp] theorem resetDecoder_resLen (s : State) : (resetDecoder s).resLen = s.resLen := rfl
@[simp] theorem resetDecoder_bank (s : State) : (resetDecoder s).bank = s.bank := rfl
@[simp] theorem resetDecoder_mem (s : State) : (resetDecoder s).mem = s.mem := rfl
@[simp] theorem resetDecoder_fn (s : State) : (resetDecoder s).fn = s.fn := rfl
@[simp] theorem resetDecoder_host (s : State) : (resetDecoder s).host = s.host := rfl
@[simp] theorem resetDecoder_observed (s : State) : (resetDecoder s).observed = s.observed := rfl

/-! ### `withSt` -/

@[simp] theorem withSt_params (s : State) (st : DecState) : (withSt s st).params = s.params := rfl
@[simp] theorem withSt_st (s : State) (st : DecState) : (withSt s st).st = st := rfl
@[simp] theorem withSt_ctlOut (s : State) (st : DecState) : (withSt s st).ctlOut = s.ctlOut := rfl
@[simp] theorem withSt_argOff (s : State) (st : DecState) : (withSt s st).argOff = s.argOff := rfl
@[simp] theorem withSt_argLen (s : State) (st : DecState) : (withSt s st).argLen = s.argLen := rfl
@[simp] theorem withSt_status (s : State) (st : DecState) : (withSt s st).status = s.status := rfl
@[simp] theorem withSt_resCount (s : State) (st : DecState) : (withSt s st).resCount = s.resCount := rfl
@[simp] theorem withSt_resLen (s : State) (st : DecState) : (withSt s st).resLen = s.resLen := rfl
@[simp] theorem withSt_bank (s : State) (st : DecState) : (withSt s st).bank = s.bank := rfl
@[simp] theorem withSt_mem (s : State) (st : DecState) : (withSt s st).mem = s.mem := rfl
@[simp] theorem withSt_fn (s : State) (st : DecState) : (withSt s st).fn = s.fn := rfl
@[simp] theorem withSt_host (s : State) (st : DecState) : (withSt s st).host = s.host := rfl
@[simp] theorem withSt_observed (s : State) (st : DecState) : (withSt s st).observed = s.observed := rfl

/-! ### `withBank` -/

@[simp] theorem withBank_params (s : State) (b : Bank) : (withBank s b).params = s.params := rfl
@[simp] theorem withBank_st (s : State) (b : Bank) : (withBank s b).st = s.st := rfl
@[simp] theorem withBank_ctlOut (s : State) (b : Bank) : (withBank s b).ctlOut = s.ctlOut := rfl
@[simp] theorem withBank_argOff (s : State) (b : Bank) : (withBank s b).argOff = s.argOff := rfl
@[simp] theorem withBank_argLen (s : State) (b : Bank) : (withBank s b).argLen = s.argLen := rfl
@[simp] theorem withBank_status (s : State) (b : Bank) : (withBank s b).status = s.status := rfl
@[simp] theorem withBank_resCount (s : State) (b : Bank) : (withBank s b).resCount = s.resCount := rfl
@[simp] theorem withBank_resLen (s : State) (b : Bank) : (withBank s b).resLen = s.resLen := rfl
@[simp] theorem withBank_bank (s : State) (b : Bank) : (withBank s b).bank = b := rfl
@[simp] theorem withBank_mem (s : State) (b : Bank) : (withBank s b).mem = s.mem := rfl
@[simp] theorem withBank_fn (s : State) (b : Bank) : (withBank s b).fn = s.fn := rfl
@[simp] theorem withBank_host (s : State) (b : Bank) : (withBank s b).host = s.host := rfl
@[simp] theorem withBank_observed (s : State) (b : Bank) : (withBank s b).observed = s.observed := rfl

/-! ### `withMem` -/

@[simp] theorem withMem_params (s : State) (m : Memory) : (withMem s m).params = s.params := rfl
@[simp] theorem withMem_st (s : State) (m : Memory) : (withMem s m).st = s.st := rfl
@[simp] theorem withMem_ctlOut (s : State) (m : Memory) : (withMem s m).ctlOut = s.ctlOut := rfl
@[simp] theorem withMem_argOff (s : State) (m : Memory) : (withMem s m).argOff = s.argOff := rfl
@[simp] theorem withMem_argLen (s : State) (m : Memory) : (withMem s m).argLen = s.argLen := rfl
@[simp] theorem withMem_status (s : State) (m : Memory) : (withMem s m).status = s.status := rfl
@[simp] theorem withMem_resCount (s : State) (m : Memory) : (withMem s m).resCount = s.resCount := rfl
@[simp] theorem withMem_resLen (s : State) (m : Memory) : (withMem s m).resLen = s.resLen := rfl
@[simp] theorem withMem_bank (s : State) (m : Memory) : (withMem s m).bank = s.bank := rfl
@[simp] theorem withMem_mem (s : State) (m : Memory) : (withMem s m).mem = m := rfl
@[simp] theorem withMem_fn (s : State) (m : Memory) : (withMem s m).fn = s.fn := rfl
@[simp] theorem withMem_host (s : State) (m : Memory) : (withMem s m).host = s.host := rfl
@[simp] theorem withMem_observed (s : State) (m : Memory) : (withMem s m).observed = s.observed := rfl

/-! ### `withScan` -/

@[simp] theorem withScan_params (s : State) (st : DecState) (c : BitVec 5) (m : Memory) : (withScan s st c m).params = s.params := rfl
@[simp] theorem withScan_st (s : State) (st : DecState) (c : BitVec 5) (m : Memory) : (withScan s st c m).st = st := rfl
@[simp] theorem withScan_ctlOut (s : State) (st : DecState) (c : BitVec 5) (m : Memory) : (withScan s st c m).ctlOut = c := rfl
@[simp] theorem withScan_argOff (s : State) (st : DecState) (c : BitVec 5) (m : Memory) : (withScan s st c m).argOff = s.argOff := rfl
@[simp] theorem withScan_argLen (s : State) (st : DecState) (c : BitVec 5) (m : Memory) : (withScan s st c m).argLen = s.argLen := rfl
@[simp] theorem withScan_status (s : State) (st : DecState) (c : BitVec 5) (m : Memory) : (withScan s st c m).status = s.status := rfl
@[simp] theorem withScan_resCount (s : State) (st : DecState) (c : BitVec 5) (m : Memory) : (withScan s st c m).resCount = s.resCount := rfl
@[simp] theorem withScan_resLen (s : State) (st : DecState) (c : BitVec 5) (m : Memory) : (withScan s st c m).resLen = s.resLen := rfl
@[simp] theorem withScan_bank (s : State) (st : DecState) (c : BitVec 5) (m : Memory) : (withScan s st c m).bank = s.bank := rfl
@[simp] theorem withScan_mem (s : State) (st : DecState) (c : BitVec 5) (m : Memory) : (withScan s st c m).mem = m := rfl
@[simp] theorem withScan_fn (s : State) (st : DecState) (c : BitVec 5) (m : Memory) : (withScan s st c m).fn = s.fn := rfl
@[simp] theorem withScan_host (s : State) (st : DecState) (c : BitVec 5) (m : Memory) : (withScan s st c m).host = s.host := rfl
@[simp] theorem withScan_observed (s : State) (st : DecState) (c : BitVec 5) (m : Memory) : (withScan s st c m).observed = s.observed := rfl

/-! ### `withFn` -/

@[simp] theorem withFn_params (s : State) (r : FnResult) : (withFn s r).params = s.params := rfl
@[simp] theorem withFn_st (s : State) (r : FnResult) : (withFn s r).st = s.st := rfl
@[simp] theorem withFn_ctlOut (s : State) (r : FnResult) : (withFn s r).ctlOut = s.ctlOut := rfl
@[simp] theorem withFn_argOff (s : State) (r : FnResult) : (withFn s r).argOff = s.argOff := rfl
@[simp] theorem withFn_argLen (s : State) (r : FnResult) : (withFn s r).argLen = s.argLen := rfl
@[simp] theorem withFn_status (s : State) (r : FnResult) : (withFn s r).status = s.status := rfl
@[simp] theorem withFn_resCount (s : State) (r : FnResult) : (withFn s r).resCount = s.resCount := rfl
@[simp] theorem withFn_resLen (s : State) (r : FnResult) : (withFn s r).resLen = s.resLen := rfl
@[simp] theorem withFn_bank (s : State) (r : FnResult) : (withFn s r).bank = s.bank := rfl
@[simp] theorem withFn_mem (s : State) (r : FnResult) : (withFn s r).mem = s.mem := rfl
@[simp] theorem withFn_fn (s : State) (r : FnResult) : (withFn s r).fn = r := rfl
@[simp] theorem withFn_host (s : State) (r : FnResult) : (withFn s r).host = s.host := rfl
@[simp] theorem withFn_observed (s : State) (r : FnResult) : (withFn s r).observed = s.observed := rfl

/-! ### `withHost` -/

@[simp] theorem withHost_params (s : State) (h : List HostEvent) : (withHost s h).params = s.params := rfl
@[simp] theorem withHost_st (s : State) (h : List HostEvent) : (withHost s h).st = s.st := rfl
@[simp] theorem withHost_ctlOut (s : State) (h : List HostEvent) : (withHost s h).ctlOut = s.ctlOut := rfl
@[simp] theorem withHost_argOff (s : State) (h : List HostEvent) : (withHost s h).argOff = s.argOff := rfl
@[simp] theorem withHost_argLen (s : State) (h : List HostEvent) : (withHost s h).argLen = s.argLen := rfl
@[simp] theorem withHost_status (s : State) (h : List HostEvent) : (withHost s h).status = s.status := rfl
@[simp] theorem withHost_resCount (s : State) (h : List HostEvent) : (withHost s h).resCount = s.resCount := rfl
@[simp] theorem withHost_resLen (s : State) (h : List HostEvent) : (withHost s h).resLen = s.resLen := rfl
@[simp] theorem withHost_bank (s : State) (h : List HostEvent) : (withHost s h).bank = s.bank := rfl
@[simp] theorem withHost_mem (s : State) (h : List HostEvent) : (withHost s h).mem = s.mem := rfl
@[simp] theorem withHost_fn (s : State) (h : List HostEvent) : (withHost s h).fn = s.fn := rfl
@[simp] theorem withHost_host (s : State) (h : List HostEvent) : (withHost s h).host = h := rfl
@[simp] theorem withHost_observed (s : State) (h : List HostEvent) : (withHost s h).observed = s.observed := rfl

/-! ### `observe` -/

@[simp] theorem observe_params (s : State) (v : Word) : (observe s v).params = s.params := rfl
@[simp] theorem observe_st (s : State) (v : Word) : (observe s v).st = s.st := rfl
@[simp] theorem observe_ctlOut (s : State) (v : Word) : (observe s v).ctlOut = s.ctlOut := rfl
@[simp] theorem observe_argOff (s : State) (v : Word) : (observe s v).argOff = s.argOff := rfl
@[simp] theorem observe_argLen (s : State) (v : Word) : (observe s v).argLen = s.argLen := rfl
@[simp] theorem observe_status (s : State) (v : Word) : (observe s v).status = s.status := rfl
@[simp] theorem observe_resCount (s : State) (v : Word) : (observe s v).resCount = s.resCount := rfl
@[simp] theorem observe_resLen (s : State) (v : Word) : (observe s v).resLen = s.resLen := rfl
@[simp] theorem observe_bank (s : State) (v : Word) : (observe s v).bank = s.bank := rfl
@[simp] theorem observe_mem (s : State) (v : Word) : (observe s v).mem = s.mem := rfl
@[simp] theorem observe_fn (s : State) (v : Word) : (observe s v).fn = s.fn := rfl
@[simp] theorem observe_host (s : State) (v : Word) : (observe s v).host = s.host := rfl
@[simp] theorem observe_observed (s : State) (v : Word) : (observe s v).observed = s.observed ++ [v] := rfl

/-! ### `hardReset` -/

@[simp] theorem hardReset_params (g : List Host.Cell) (s : State) : (hardReset g s).params = s.params := rfl
@[simp] theorem hardReset_st (g : List Host.Cell) (s : State) : (hardReset g s).st = initState s.params := rfl
@[simp] theorem hardReset_ctlOut (g : List Host.Cell) (s : State) : (hardReset g s).ctlOut = 0#5 := rfl
@[simp] theorem hardReset_argOff (g : List Host.Cell) (s : State) : (hardReset g s).argOff = 0 := rfl
@[simp] theorem hardReset_argLen (g : List Host.Cell) (s : State) : (hardReset g s).argLen = 0 := rfl
@[simp] theorem hardReset_status (g : List Host.Cell) (s : State) : (hardReset g s).status = .ok := rfl
@[simp] theorem hardReset_resCount (g : List Host.Cell) (s : State) : (hardReset g s).resCount = 0 := rfl
@[simp] theorem hardReset_resLen (g : List Host.Cell) (s : State) : (hardReset g s).resLen = 0 := rfl
@[simp] theorem hardReset_bank (g : List Host.Cell) (s : State) : (hardReset g s).bank = imageOf (initState s.params) := rfl
@[simp] theorem hardReset_mem (g : List Host.Cell) (s : State) : (hardReset g s).mem = Memory.ofImages s.params g := rfl
@[simp] theorem hardReset_fn (g : List Host.Cell) (s : State) : (hardReset g s).fn = .none := rfl
@[simp] theorem hardReset_host (g : List Host.Cell) (s : State) : (hardReset g s).host = s.host := rfl
@[simp] theorem hardReset_observed (g : List Host.Cell) (s : State) : (hardReset g s).observed = s.observed := rfl

end Sys2Proof.Machine
end

