-- ==== Sys2Proof/Laws/Decoder.lean ====
section
/-! SUPPORT. What a DECODE scan can do: one inversion lemma for a byte, one induction over the chunk, and the ends of a scan. -/

namespace Sys2Proof.Machine

/-! ### One byte -/

/-- The scan after a start FLAG (R101). -/
def startedAt (w : Scan) : Scan :=
  { w with st := { w.st with startValid := true, startPos := w.st.pos, pos := w.st.pos + 1 } }

/-- The scan after an In-frame ESC (R105). -/
def escaped (w : Scan) : Scan := { w with st := { w.st with esc := true, pos := w.st.pos + 1 } }

/-- The scan at the terminating FLAG (R104). -/
def endedAt (w : Scan) : Scan := { w with st := { w.st with endValid := true, endPos := w.st.pos } }

/-- The byte a data byte resolves to (R106). -/
def resolvedByte (b : Byte) (w : Scan) : Byte := if w.st.esc then b ^^^ 0x20#8 else b

/-- A data byte would be written to `DBUF` and `DBUF` is full (R109). -/
def dbufFull (p : Params) (w : Scan) : Prop := w.st.startPos + 2 < w.st.pos ∧ p.dbufSize ≤ w.st.out

theorem frameByte_esc {p : Params} {w : Scan} (h : w.st.pos ≠ p.posMax) : frameByte p p.esc w = .next (escaped w) := by
  simp [frameByte, h, escDecodeOne, escaped]

theorem frameByte_data {p : Params} {w : Scan} {b : Byte} (h : w.st.pos ≠ p.posMax) (hb : b ≠ p.esc)
    (hf : ¬ dbufFull p w) : frameByte p b w = .next (countByte p (resolvedByte b w) w) := by
  unfold dbufFull at hf
  cases he : w.st.esc <;> simp [frameByte, h, escDecodeOne, hb, he, hf, resolvedByte]

theorem frameByte_full {p : Params} {w : Scan} {b : Byte} (hb : b ≠ p.esc) (hf : dbufFull p w) :
    frameByte p b w = .abandoned := by
  unfold dbufFull at hf
  cases he : w.st.esc <;> simp [frameByte, escDecodeOne, hb, he, hf]

theorem frameByte_posMax {p : Params} {w : Scan} {b : Byte} (h : w.st.pos = p.posMax) : frameByte p b w = .abandoned := by
  simp [frameByte, h]

/-- All that one round of the scan can do to go on. -/
theorem scanByte_next {p : Params} {b : Byte} {nf : Bool} {w w' : Scan} (h : scanByte p b nf w = .next w') :
    w' = w ∨
    (w.st.startValid = false ∧ b = p.flag ∧ nf = false ∧ w.st.pos ≠ p.posMax ∧ w' = startedAt w) ∨
    (w.st.startValid = true ∧ b = p.esc ∧ w.st.pos ≠ p.posMax ∧ w' = escaped w) ∨
    (w.st.startValid = true ∧ b ≠ p.flag ∧ b ≠ p.esc ∧ w.st.pos ≠ p.posMax ∧ ¬ dbufFull p w ∧
      w' = countByte p (resolvedByte b w) w) := by
  unfold scanByte at h
  split at h
  · rename_i hv
    split at h
    · unfold frameFlag at h
      split at h
      · exact .inl (by simpa using h.symm)
      · cases h
    · rename_i hb
      by_cases hp : w.st.pos = p.posMax
      · rw [frameByte_posMax hp] at h; cases h
      · by_cases he : b = p.esc
        · subst he
          rw [frameByte_esc hp] at h
          exact .inr (.inr (.inl ⟨hv, rfl, hp, by simpa using h.symm⟩))
        · by_cases hf : dbufFull p w
          · rw [frameByte_full he hf] at h; cases h
          · rw [frameByte_data hp he hf] at h
            exact .inr (.inr (.inr ⟨hv, hb, he, hp, hf, by simpa using h.symm⟩))
  · rename_i hv
    unfold seekByte at h
    split at h
    · split at h
      · exact .inl (by simpa using h.symm)
      · split at h
        · cases h
        · exact .inr (.inl ⟨by simpa using hv, ‹_›, by simpa using ‹¬ nf = true›, ‹_›, by simpa [startedAt] using h.symm⟩)
    · exact .inl (by simpa using h.symm)

/-- A byte terminates the scan only if it is an In-frame FLAG that R103 does not discard. -/
theorem scanByte_terminated {p : Params} {b : Byte} {nf : Bool} {w w' : Scan}
    (h : scanByte p b nf w = .terminated w') :
    w.st.startValid = true ∧ b = p.flag ∧ nf = false ∧ w.st.pos ≠ w.st.startPos + 1 ∧ w' = endedAt w := by
  unfold scanByte at h
  split at h
  · split at h
    · unfold frameFlag at h
      split at h
      · cases h
      · rename_i hn
        simp only [Bool.or_eq_true, beq_iff_eq, not_or] at hn
        exact ⟨‹_›, ‹_›, by simpa using hn.1, hn.2, by simpa [endedAt] using h.symm⟩
    · unfold frameByte at h
      split at h
      · cases h
      · split at h
        · cases h
        · split at h <;> cases h
  · unfold seekByte at h
    split at h
    · split at h
      · cases h
      · split at h <;> cases h
    · cases h

/-- A byte abandons the scan only if it would pass `POS_MAX`, or is a data byte that finds `DBUF` full. -/
theorem scanByte_abandoned {p : Params} {b : Byte} {nf : Bool} {w : Scan} (h : scanByte p b nf w = .abandoned) :
    (w.st.pos = p.posMax ∧ (w.st.startValid = true ∧ b ≠ p.flag ∨ w.st.startValid = false ∧ b = p.flag ∧ nf = false)) ∨
    (w.st.startValid = true ∧ b ≠ p.flag ∧ b ≠ p.esc ∧ dbufFull p w) := by
  unfold scanByte at h
  split at h
  · rename_i hv
    split at h
    · unfold frameFlag at h
      split at h <;> cases h
    · rename_i hb
      by_cases hp : w.st.pos = p.posMax
      · exact .inl ⟨hp, .inl ⟨hv, hb⟩⟩
      · by_cases he : b = p.esc
        · subst he; rw [frameByte_esc hp] at h; cases h
        · by_cases hf : dbufFull p w
          · exact .inr ⟨hv, hb, he, hf⟩
          · rw [frameByte_data hp he hf] at h; cases h
  · rename_i hv
    unfold seekByte at h
    split at h
    · split at h
      · cases h
      · split at h
        · exact .inl ⟨‹_›, .inr ⟨by simpa using hv, ‹_›, by simpa using ‹¬ nf = true›⟩⟩
        · cases h
    · cases h

/-! ### One byte, case by case -/

theorem scanByte_flag_before_flag (p : Params) (w : Scan) : scanByte p p.flag true w = .next w := by
  simp [scanByte, frameFlag, seekByte]

theorem scanByte_seek_other {p : Params} {b : Byte} {nf : Bool} {w : Scan} (hv : w.st.startValid = false) (hb : b ≠ p.flag) :
    scanByte p b nf w = .next w := by simp [scanByte, seekByte, hv, hb]

theorem scanByte_start {p : Params} {w : Scan} (hv : w.st.startValid = false) (hp : w.st.pos ≠ p.posMax) :
    scanByte p p.flag false w = .next (startedAt w) := by simp [scanByte, seekByte, hv, hp, startedAt]

theorem scanByte_start_posMax {p : Params} {w : Scan} (hv : w.st.startValid = false) (hp : w.st.pos = p.posMax) :
    scanByte p p.flag false w = .abandoned := by simp [scanByte, seekByte, hv, hp]

theorem scanByte_flag_after_start {p : Params} {nf : Bool} {w : Scan} (hv : w.st.startValid = true)
    (hp : w.st.pos = w.st.startPos + 1) : scanByte p p.flag nf w = .next w := by simp [scanByte, frameFlag, hv, hp]

theorem scanByte_terminates {p : Params} {w : Scan} (hv : w.st.startValid = true) (hp : w.st.pos ≠ w.st.startPos + 1) :
    scanByte p p.flag false w = .terminated (endedAt w) := by simp [scanByte, frameFlag, hv, hp, endedAt]

theorem scanByte_esc {p : Params} {nf : Bool} {w : Scan} (hv : w.st.startValid = true) (hp : w.st.pos ≠ p.posMax) :
    scanByte p p.esc nf w = .next (escaped w) := by
  simp [scanByte, hv, (flag_ne_esc p).symm, frameByte_esc hp]

theorem scanByte_data {p : Params} {b : Byte} {nf : Bool} {w : Scan} (hv : w.st.startValid = true) (hb : b ≠ p.flag)
    (he : b ≠ p.esc) (hp : w.st.pos ≠ p.posMax) (hf : ¬ dbufFull p w) :
    scanByte p b nf w = .next (countByte p (resolvedByte b w) w) := by
  simp [scanByte, hv, hb, frameByte_data hp he hf]

/-! ### The chunk -/

@[simp] theorem nextIsFlag_nil (p : Params) : nextIsFlag p [] = false := rfl

@[simp] theorem nextIsFlag_cons (p : Params) (b : Byte) (s : List Byte) :
    nextIsFlag p (b :: s) = true ↔ b = p.flag := by simp [nextIsFlag]

/-- What a scan of `chunk` from index `i` ended with, where `P` holds of the scan after every round: the index is one of the
chunk's, a terminating byte is an In-frame FLAG, and the end mark is the last thing written. -/
def ScanEnd.Sat (p : Params) (P : Scan → Prop) (chunk : List Byte) (i : Nat) : ScanEnd → Prop
  | .exhausted w => P w
  | .terminated k w => i ≤ k ∧ chunk[k - i]? = some p.flag ∧ ∃ w0, P w0 ∧ w = endedAt w0 ∧ w0.st.startValid = true
  | .abandoned k w => i ≤ k ∧ k < i + chunk.length ∧ P w

/-- A property kept by every round holds at each end of the scan. -/
theorem scan_ends {p : Params} {P : Scan → Prop}
    (hP : ∀ b nf w w', P w → scanByte p b nf w = .next w' → P w') (chunk : List Byte) (i : Nat) (w : Scan) (hw : P w) :
    (scan p chunk i w).Sat p P chunk i := by
  induction chunk generalizing i w with
  | nil => exact hw
  | cons b rest ih =>
    rw [scan]
    cases h1 : scanByte p b (nextIsFlag p rest) w with
    | next w1 =>
      have := ih (i + 1) w1 (hP b _ w w1 hw h1)
      revert this
      simp only
      cases scan p rest (i + 1) w1 with
      | exhausted w' => exact id
      | terminated k w' =>
        rintro ⟨hk, hget, hw0⟩
        refine ⟨by omega, ?_, hw0⟩
        rwa [show k - i = (k - (i + 1)) + 1 by omega, List.getElem?_cons_succ]
      | abandoned k w' =>
        rintro ⟨hk, hlt, h0⟩
        exact ⟨by omega, by simp; omega, h0⟩
    | terminated w1 =>
      obtain ⟨hv, hb, -, -, rfl⟩ := scanByte_terminated h1
      exact ⟨le_refl _, by simpa using hb, w, hw, rfl, hv⟩
    | abandoned => exact ⟨le_refl _, by simp, hw⟩

/-- The index only names the byte: a scan from index `i` is the scan from 0, with its end index moved by `i`. -/
def ScanEnd.shift (i : Nat) : ScanEnd → ScanEnd
  | .exhausted w => .exhausted w
  | .terminated k w => .terminated (i + k) w
  | .abandoned k w => .abandoned (i + k) w

theorem scan_shift (p : Params) (chunk : List Byte) (i : Nat) (w : Scan) :
    scan p chunk i w = (scan p chunk 0 w).shift i := by
  induction chunk generalizing i w with
  | nil => rfl
  | cons b rest ih =>
    simp only [scan]
    split
    · rename_i w1 _
      rw [ih (i + 1), ih (0 + 1)]
      cases scan p rest 0 w1 <;> simp [ScanEnd.shift, Nat.add_assoc]
    · simp [ScanEnd.shift]
    · simp [ScanEnd.shift]

/-- Scanning on with the rest of the chunk after a first part that had no end. -/
def ScanEnd.andThen (p : Params) (rest : List Byte) (i : Nat) : ScanEnd → ScanEnd
  | .exhausted w => scan p rest i w
  | .terminated k w => .terminated k w
  | .abandoned k w => .abandoned k w

/-- In the Seeking-start phase bytes without a FLAG are skipped. -/
theorem scan_seek_skip {p : Params} {x : List Byte} (hx : p.flag ∉ x) (y : List Byte) (i : Nat) {w : Scan}
    (hv : w.st.startValid = false) : scan p (x ++ y) i w = scan p y (i + x.length) w := by
  induction x generalizing i with
  | nil => rfl
  | cons b x ih =>
    simp only [List.mem_cons, not_or] at hx
    rw [List.cons_append, scan, scanByte_seek_other hv (Ne.symm hx.1)]
    simp [ih hx.2, Nat.add_assoc, Nat.add_comm 1]

/-- A cut that parts no two FLAGs leaves every look-ahead as it was. -/
theorem scan_append {p : Params} {x y : List Byte} (hcut : ¬ (x.getLast? = some p.flag ∧ y.head? = some p.flag))
    (i : Nat) (w : Scan) : scan p (x ++ y) i w = (scan p x i w).andThen p y (i + x.length) := by
  induction x generalizing i w with
  | nil => simp [scan, ScanEnd.andThen]
  | cons b x ih =>
    have hnf : scanByte p b (nextIsFlag p (x ++ y)) w = scanByte p b (nextIsFlag p x) w := by
      cases x with
      | cons c x => simp [nextIsFlag]
      | nil =>
        by_cases hb : b = p.flag
        · have hy : nextIsFlag p y = false := by
            have : y.head? ≠ some p.flag := fun hy => hcut ⟨by simp [hb], hy⟩
            simpa [nextIsFlag] using this
          simp [hy]
        · simp only [scanByte, seekByte, hb, if_false]
    rw [List.cons_append, scan, scan, hnf]
    cases h : scanByte p b (nextIsFlag p x) w with
    | next w1 =>
      simp only
      rw [ih _ (i + 1) w1]
      · simp [Nat.add_assoc, Nat.add_comm 1]
      · rintro ⟨h1, h2⟩
        refine hcut ⟨?_, h2⟩
        rw [List.getLast?_cons]
        simp [h1]
    | terminated w1 => rfl
    | abandoned => rfl

end Sys2Proof.Machine
end

