-- ==== Sys2Proof/Laws/Commands.lean ====
section
/-! SUPPORT. What each command can do, once per command, and that every instruction keeps the invariant. -/

namespace Sys2Proof.Machine

/-! ### The outcomes of a command -/

/-- The state after a successful ENCODE (43_frame_encoder.md R94). -/
def encoded (kind : Kind) (seq : BitVec 3) (s : State) : State :=
  respond (withMem s (Memory.writeBytes s.mem (bufBase .ebuf) (frameBytes s.params kind seq (payloadOf kind s)))) .ok
    (frameBytes s.params kind seq (payloadOf kind s)).length 0

/-- ENCODE is turned away, or its range and its frame fit. -/
theorem encodeFrame_cases {kind : Kind} {seq : BitVec 3} {s t : State} (h : encodeFrame kind seq s = .next t) :
    t = refuse s ∨ (rangeOk s = true ∧ (frameBytes s.params kind seq (payloadOf kind s)).length ≤ s.params.ebufSize ∧
      t = encoded kind seq s) := by
  unfold encodeFrame at h
  split at h
  · simp only at h
    split at h
    · exact .inr ⟨‹_›, ‹_›, by simpa [encoded] using h.symm⟩
    · exact .inl (by simpa using h.symm)
  · exact .inl (by simpa using h.symm)

/-- The scan of a DECODE (44_decoder.md R99). -/
def decodeScan (s : State) : ScanEnd := scan s.params (inputBytes s) 0 ⟨s.st, s.ctlOut, s.mem⟩

theorem execDecode_cases {s t : State} (h : execDecode s = .next t) :
    (rangeOk s = false ∧ t = refuse s) ∨ (rangeOk s = true ∧ t = finishDecode s (decodeScan s)) := by
  unfold execDecode at h
  split at h
  · exact .inr ⟨‹_›, by simpa [decodeScan] using h.symm⟩
  · rename_i hr
    exact .inl ⟨by simpa using hr, by simpa using h.symm⟩

theorem execDecode_ok {s : State} (h : rangeOk s = true) : execDecode s = .next (finishDecode s (decodeScan s)) := by
  simp [execDecode, h, decodeScan]

theorem execSetState_cases {s t : State} (h : execSetState s = .next t) :
    (imageOk s.params s.bank = false ∧ t = refuse s) ∨
      (imageOk s.params s.bank = true ∧ t = respond (withSt s (stateOf s.bank)) .ok 0 0) := by
  unfold execSetState at h
  split at h
  · exact .inr ⟨‹_›, by simpa using h.symm⟩
  · rename_i hr
    exact .inl ⟨by simpa using hr, by simpa using h.symm⟩

/-- The state a DECODE ends in, by the end of its scan. -/
theorem finishDecode_cases (s : State) (e : ScanEnd) :
    (∃ w, e = .exhausted w ∧ finishDecode s e = respond (keepScan s w) .noCompleteFrame s.argLen 0) ∨
    (∃ i w, e = .terminated i w ∧ frameValid s.params w.st = true ∧
      finishDecode s e = respond (resetDecoder (keepScan s w)) .frame i (w.st.out - s.params.fcsLen)) ∨
    (∃ i w, e = .terminated i w ∧ frameValid s.params w.st = false ∧
      finishDecode s e = respond (resetDecoder (keepScan s w)) .checksumOrFramingError i 0) ∨
    (∃ i w, e = .abandoned i w ∧
      finishDecode s e = respond (resetDecoder (keepScan s w)) .capacityExceeded (i + 1) 0) := by
  cases e with
  | exhausted w => exact .inl ⟨w, rfl, rfl⟩
  | terminated i w =>
    by_cases hv : frameValid s.params w.st = true
    · exact .inr (.inl ⟨i, w, rfl, hv, by simp [finishDecode, hv]⟩)
    · exact .inr (.inr (.inl ⟨i, w, rfl, by simpa using hv, by simp [finishDecode, hv]⟩))
  | abandoned i w => exact .inr (.inr (.inr ⟨i, w, rfl, rfl⟩))

theorem rangeOk_iff {s : State} : rangeOk s = true ↔ s.argOff + s.argLen ≤ s.params.ibufSize := by simp [rangeOk]

theorem imageOk_iff {p : Params} {b : Bank} :
    imageOk p b = true ↔ flagsEndValid b.flags = false ∧ b.endPos = 0 ∧ b.out ≤ p.dbufSize := by
  simp [imageOk, and_assoc]

/-- The three conditions of 44_decoder.md R112, at a terminating FLAG. -/
theorem frameValid_iff {p : Params} {st : DecState} : frameValid p st = true ↔
    st.startPos + 3 + p.fcsLen ≤ st.endPos ∧ p.fcsLen ≤ st.out ∧ st.crc = crcGood p := by
  simp [frameValid, and_assoc]

/-! ### The parameters -/

theorem size_lt {p : Params} (h : p.ok = true) :
    p.ibufSize < 2 ^ p.cw ∧ p.dbufSize < 2 ^ p.cw ∧ p.ebufSize < 2 ^ p.cw ∧ 0 < 2 ^ p.cw := by
  simp only [Params.ok, Params.sizeOk, Bool.and_eq_true, decide_eq_true_eq] at h
  have := Nat.two_pow_pos p.cw
  have : p.posMax = 2 ^ p.cw - 1 := rfl
  omega

theorem size_le {p : Params} (h : p.ok = true) : p.ibufSize ≤ 0xFFFF ∧ p.dbufSize ≤ 0xFFFF ∧ p.ebufSize ≤ 0xFFFF := by
  simp only [Params.ok, Params.sizeOk, Bool.and_eq_true, decide_eq_true_eq] at h
  omega

/-! ### The invariant -/

/-- The buffers after reset are in canonical form and inside their sizes. -/
theorem reset_memory : Memory.wf State.reset.mem = true ∧ Memory.within State.reset.params State.reset.mem = true := ⟨rfl, rfl⟩

theorem initState_fits {p : Params} (h : p.ok = true) : (initState p).Fits p :=
  have := size_lt h
  ⟨crcInit_lt p, this.2.2.2, this.2.2.2, Nat.zero_le _, rfl, rfl⟩

theorem imageOf_fits {p : Params} (h : p.ok = true) {st : DecState} (hs : st.Fits p) : (imageOf st).Fits p :=
  have := size_lt h
  ⟨hs.crc, hs.startPos, by show st.endPos < _; rw [hs.noEnd.2]; exact this.2.2.2, hs.pos, Nat.lt_of_le_of_lt hs.out this.2.1⟩

/-- The invariant of a scan in progress. -/
structure Scan.Inv (p : Params) (w : Scan) : Prop where
  st : w.st.Fits p
  ctl : ctlOutKind w.ctl ≠ 3#2
  memWf : Memory.wf w.mem = true
  memWithin : Memory.within p w.mem = true

theorem scan_inv_step {p : Params} {b : Byte} {nf : Bool} {w w' : Scan} (hw : w.Inv p) (h : scanByte p b nf w = .next w') :
    w'.Inv p := by
  have hpos : w.st.pos ≠ p.posMax → w.st.pos + 1 < 2 ^ p.cw := fun hne => by
    have := hw.st.pos
    unfold Params.posMax at hne
    omega
  rcases scanByte_next h with rfl | ⟨-, -, -, hp, rfl⟩ | ⟨-, -, hp, rfl⟩ | ⟨-, -, -, hp, hf, rfl⟩
  · exact hw
  · exact ⟨⟨hw.st.crc, hw.st.pos, hpos hp, hw.st.out, hw.st.noEnd⟩, hw.ctl, hw.memWf, hw.memWithin⟩
  · exact ⟨⟨hw.st.crc, hw.st.startPos, hpos hp, hw.st.out, hw.st.noEnd⟩, hw.ctl, hw.memWf, hw.memWithin⟩
  · unfold dbufFull at hf
    simp only [countByte, placeByte]
    split
    · refine ⟨⟨crcStep_lt _ _ _, hw.st.startPos, hpos hp, hw.st.out, hw.st.noEnd⟩, ?_, hw.memWf, hw.memWithin⟩
      rw [ctlOutKind_packCtl]
      exact kindCode_ne_three _
    · split
      · have hout : w.st.out < p.dbufSize := by
          by_contra hc
          exact hf ⟨‹_›, Nat.le_of_not_lt hc⟩
        exact ⟨⟨crcStep_lt _ _ _, hw.st.startPos, hpos hp, hout, hw.st.noEnd⟩, hw.ctl, Memory.wf_write hw.memWf _ _,
          Memory.within_write hw.memWithin _ (touchesBuffers_of_lt .dbuf hout)⟩
      · exact ⟨⟨crcStep_lt _ _ _, hw.st.startPos, hpos hp, hw.st.out, hw.st.noEnd⟩, hw.ctl, hw.memWf, hw.memWithin⟩

/-- What the scan of a DECODE ended with, in a state that meets the invariant. -/
theorem decodeScan_ends {s : State} (hs : s.Inv) : (decodeScan s).Sat s.params (Scan.Inv s.params) (inputBytes s) 0 :=
  scan_ends (fun _ _ _ _ hw h => scan_inv_step hw h) _ _ _ ⟨hs.st, hs.ctlOut, hs.memWf, hs.memWithin⟩

@[simp] theorem length_inputBytes (s : State) : (inputBytes s).length = s.argLen := by
  simp [inputBytes, readBufBytes]

/-- An update that leaves everything but the result registers as it was keeps the invariant. -/
theorem respond_inv {s : State} (hs : s.Inv) (x : Status) {c l : Nat} (hc : c < 2 ^ s.params.cw) (hl : l < 2 ^ s.params.cw) :
    (respond s x c l).Inv :=
  ⟨hs.params, hs.st, hs.bank, hs.argOff, hs.argLen, hc, hl, hs.ctlOut, hs.memWf, hs.memWithin⟩

theorem refuse_inv {s : State} (hs : s.Inv) : (refuse s).Inv :=
  respond_inv hs _ (Nat.two_pow_pos _) (Nat.two_pow_pos _)

theorem withFn_inv {s : State} (hs : s.Inv) (r : FnResult) : (withFn s r).Inv :=
  ⟨hs.params, hs.st, hs.bank, hs.argOff, hs.argLen, hs.resCount, hs.resLen, hs.ctlOut, hs.memWf, hs.memWithin⟩

theorem withHost_inv {s : State} (hs : s.Inv) (h : List HostEvent) : (withHost s h).Inv :=
  ⟨hs.params, hs.st, hs.bank, hs.argOff, hs.argLen, hs.resCount, hs.resLen, hs.ctlOut, hs.memWf, hs.memWithin⟩

theorem observe_inv {s : State} (hs : s.Inv) (v : Word) : (observe s v).Inv :=
  ⟨hs.params, hs.st, hs.bank, hs.argOff, hs.argLen, hs.resCount, hs.resLen, hs.ctlOut, hs.memWf, hs.memWithin⟩

theorem withSt_inv {s : State} (hs : s.Inv) {st : DecState} (h : st.Fits s.params) : (withSt s st).Inv :=
  ⟨hs.params, h, hs.bank, hs.argOff, hs.argLen, hs.resCount, hs.resLen, hs.ctlOut, hs.memWf, hs.memWithin⟩

theorem withBank_inv {s : State} (hs : s.Inv) {b : Bank} (h : b.Fits s.params) : (withBank s b).Inv :=
  ⟨hs.params, hs.st, h, hs.argOff, hs.argLen, hs.resCount, hs.resLen, hs.ctlOut, hs.memWf, hs.memWithin⟩

theorem withMem_inv {s : State} (hs : s.Inv) {m : Memory} (h : Memory.wf m = true) (h' : Memory.within s.params m = true) :
    (withMem s m).Inv :=
  ⟨hs.params, hs.st, hs.bank, hs.argOff, hs.argLen, hs.resCount, hs.resLen, hs.ctlOut, h, h'⟩

theorem resetDecoder_inv {s : State} (hs : s.Inv) : (resetDecoder s).Inv := withSt_inv hs (initState_fits hs.params)

theorem keepScan_inv {s : State} (hs : s.Inv) {w : Scan} (hw : w.Inv s.params) : (keepScan s w).Inv :=
  ⟨hs.params, hw.st, hs.bank, hs.argOff, hs.argLen, hs.resCount, hs.resLen, hw.ctl, hw.memWf, hw.memWithin⟩

theorem encoded_inv {kind : Kind} {seq : BitVec 3} {s : State} (hs : s.Inv)
    (h : (frameBytes s.params kind seq (payloadOf kind s)).length ≤ s.params.ebufSize) : (encoded kind seq s).Inv := by
  have := size_lt hs.params
  refine respond_inv (withMem_inv hs (Memory.wf_writeBytes hs.memWf _ _) (Memory.within_writeBytes hs.memWithin _ _ ?_)) _
    ?_ this.2.2.2
  · exact fun k hk => touchesBuffers_of_lt .ebuf (Nat.lt_of_lt_of_le hk h)
  · show (frameBytes s.params kind seq (payloadOf kind s)).length < 2 ^ s.params.cw
    omega

theorem encodeFrame_inv {kind : Kind} {seq : BitVec 3} {s t : State} (hs : s.Inv) (h : encodeFrame kind seq s = .next t) :
    t.Inv := by
  rcases encodeFrame_cases h with rfl | ⟨-, hl, rfl⟩
  · exact refuse_inv hs
  · exact encoded_inv hs hl

/-- The scan that ended at the terminating FLAG, put back to `INIT_STATE`: only its `CTL_OUT` and buffers are kept. -/
theorem resetDecoder_keepScan_inv {s : State} (hs : s.Inv) {w : Scan} (hctl : ctlOutKind w.ctl ≠ 3#2)
    (hwf : Memory.wf w.mem = true) (hwi : Memory.within s.params w.mem = true) : (resetDecoder (keepScan s w)).Inv :=
  ⟨hs.params, initState_fits hs.params, hs.bank, hs.argOff, hs.argLen, hs.resCount, hs.resLen, hctl, hwf, hwi⟩

theorem execDecode_inv {s t : State} (hs : s.Inv) (h : execDecode s = .next t) : t.Inv := by
  have hsz := size_lt hs.params
  have ha := hs.argLen
  have he := decodeScan_ends hs
  rcases execDecode_cases h with ⟨-, rfl⟩ | ⟨hr, rfl⟩
  · exact refuse_inv hs
  · rcases finishDecode_cases s (decodeScan s) with ⟨w, h1, h2⟩ | ⟨i, w, h1, -, h2⟩ | ⟨i, w, h1, -, h2⟩ | ⟨i, w, h1, h2⟩ <;>
      rw [h1] at he <;> rw [h2]
    · exact respond_inv (keepScan_inv hs he) _ ha hsz.2.2.2
    · obtain ⟨-, hi, w0, hw0, rfl, -⟩ := he
      obtain ⟨hi, -⟩ := List.getElem?_eq_some_iff.1 hi
      rw [length_inputBytes] at hi
      refine respond_inv (resetDecoder_keepScan_inv hs hw0.ctl hw0.memWf hw0.memWithin) _ ?_ ?_
      · show i < 2 ^ s.params.cw
        omega
      · have := hw0.st.out
        show w0.st.out - s.params.fcsLen < 2 ^ s.params.cw
        omega
    · obtain ⟨-, hi, w0, hw0, rfl, -⟩ := he
      obtain ⟨hi, -⟩ := List.getElem?_eq_some_iff.1 hi
      rw [length_inputBytes] at hi
      refine respond_inv (resetDecoder_keepScan_inv hs hw0.ctl hw0.memWf hw0.memWithin) _ ?_ hsz.2.2.2
      show i < 2 ^ s.params.cw
      omega
    · obtain ⟨-, hi, hw⟩ := he
      rw [length_inputBytes] at hi
      refine respond_inv (resetDecoder_keepScan_inv hs hw.ctl hw.memWf hw.memWithin) _ ?_ hsz.2.2.2
      show i + 1 < 2 ^ s.params.cw
      simp only [rangeOk, decide_eq_true_eq] at hr
      omega

theorem stateOf_fits {p : Params} {b : Bank} (hb : b.Fits p) (h : imageOk p b = true) : (stateOf b).Fits p := by
  simp only [imageOk, Bool.and_eq_true, decide_eq_true_eq, beq_iff_eq, Bool.not_eq_true'] at h
  exact ⟨hb.crc, hb.startPos, hb.pos, h.2, h.1.1, h.1.2⟩

/-- Every instruction keeps the invariant: the commands, the internal functions and the control byte classes. -/
theorem exec_keeps_inv {i : Instr} {s t : State} (hs : s.Inv) (h : exec i s = .next t) : t.Inv := by
  have h0 := Nat.two_pow_pos s.params.cw
  cases i <;> simp only [exec] at h
  case encodeData => exact encodeFrame_inv hs h
  case encodeAck => exact encodeFrame_inv hs h
  case encodeNack => exact encodeFrame_inv hs h
  case decode => exact execDecode_inv hs h
  case resetState => cases h; exact respond_inv (resetDecoder_inv hs) _ h0 h0
  case getState => cases h; exact respond_inv (withBank_inv hs (imageOf_fits hs.params hs.st)) _ h0 h0
  case setState =>
    rcases execSetState_cases h with ⟨-, rfl⟩ | ⟨hi, rfl⟩
    · exact refuse_inv hs
    · exact respond_inv (withSt_inv hs (stateOf_fits hs.bank hi)) _ h0 h0
  case encodeKind3 => cases h; exact refuse_inv hs
  case reserved5 => cases h; exact refuse_inv hs
  case reserved6 => cases h; exact refuse_inv hs
  case reserved7 => cases h; exact refuse_inv hs
  case illegalHighBits => cases h; exact refuse_inv hs
  all_goals cases h; exact withFn_inv hs _

end Sys2Proof.Machine
end

