-- ==== Sys2Proof/Laws/Step.lean ====
section
/-! SUPPORT. Where a host access goes, and all that one step can do. -/

namespace Sys2Proof.Machine

theorem regAt_some {off : BitVec 18} {r : Reg} (h : regAt off = some r) : off = regOffset r := by
  unfold regAt at h
  exact Eq.symm (by simpa using List.find?_some h)

@[simp] theorem regAt_regOffset (r : Reg) : regAt (regOffset r) = some r := by cases r <;> decide

/-- A word access at a register's offset reaches that register. -/
@[simp] theorem target_regOffset (p : Params) (r : Reg) : target p (regOffset r) .word = .ok (.register r) := by
  unfold target
  have h : (regOffset r).toNat < 0x100 ∧ (regOffset r).toNat % 4 = 0 := by cases r <;> decide
  rw [if_neg (by simp only [widthBytes]; omega), if_pos h.1, if_neg (by simp), if_neg (by omega), regAt_regOffset]

/-- Only a word access at its offset reaches a register. -/
theorem target_register {p : Params} {off : BitVec 18} {w : Width} {r : Reg} (h : target p off w = .ok (.register r)) :
    off = regOffset r ∧ w = .word := by
  unfold target at h
  split at h
  · cases h
  split at h
  · split at h
    · cases h
    split at h
    · cases h
    split at h
    · rename_i h1 _ _ r h2
      cases h
      exact ⟨regAt_some h2, by simpa using h1⟩
    · cases h
  · split at h
    · split at h <;> cases h
    · cases h

/-- Only a byte access at its offset reaches a buffer byte. -/
theorem target_bufByte {p : Params} {off : BitVec 18} {w : Width} {a : Nat} (h : target p off w = .ok (.bufByte a)) :
    a = off.toNat ∧ w = .byte ∧ touchesBuffers p a 1 = true := by
  unfold target at h
  split at h
  · cases h
  split at h
  · split at h
    · cases h
    split at h
    · cases h
    split at h <;> cases h
  · split at h
    · rename_i ht
      split at h
      · cases h
      · rename_i hw
        cases h
        have hw : w = .byte := by simpa using hw
        subst hw
        exact ⟨rfl, rfl, ht⟩
    · cases h

/-- All that one step can do to answer a next state. -/
theorem step_cases {s t : State} (h : step s = .next t) :
    (s.host = [] ∧ t = s) ∨
    (∃ rest w, s.host = writeEvent .cmd w :: rest ∧ exec (decodeCmd w) (withHost s rest) = .next t) ∨
    (∃ rest images, s.host = .reset images :: rest ∧ t = hardReset images (withHost s rest)) ∨
    (∃ rest off len, s.host = .feed off len :: rest ∧
      t = withHost s (decodeEvents off len ++ .feedResult off len :: rest)) ∨
    (∃ rest off len, s.host = .feedResult off len :: rest ∧ t = withHost s (feedEvents off len (withHost s rest) ++ rest)) ∨
    (∃ rest off width v, s.host = .read off width :: rest ∧ t = observe (withHost s rest) v) ∨
    (∃ rest r v, s.host = writeEvent r v :: rest ∧ r ≠ .cmd ∧ t = writeReg (withHost s rest) r v) ∨
    (∃ rest off v, s.host = .write off .byte v :: rest ∧ touchesBuffers s.params off.toNat 1 = true ∧
      t = withMem (withHost s rest) (Memory.write s.mem off.toNat (v.setWidth 8))) ∨
    (∃ rest off width v, s.host = .write off width v :: rest ∧ target s.params off width = .ok .reserved ∧
      t = withHost s rest) := by
  unfold step at h
  cases hh : s.host with
  | nil =>
    simp [nextAction, hh] at h
    exact .inl ⟨rfl, h.symm⟩
  | cons e rest =>
    simp only [nextAction, hh] at h
    cases e with
    | reset images => simp [eventAction] at h; exact .inr (.inr (.inl ⟨_, _, rfl, h.symm⟩))
    | feed off len => simp [eventAction] at h; exact .inr (.inr (.inr (.inl ⟨_, _, _, rfl, h.symm⟩)))
    | feedResult off len => simp [eventAction] at h; exact .inr (.inr (.inr (.inr (.inl ⟨_, _, _, rfl, h.symm⟩))))
    | read off w =>
      refine .inr (.inr (.inr (.inr (.inr (.inl ?_)))))
      simp only [eventAction, hostRead] at h
      cases ht : target (withHost s rest).params off w with
      | error r => rw [ht] at h; simp at h
      | ok x => rw [ht] at h; cases x <;> (simp at h; exact ⟨_, _, _, _, rfl, h.symm⟩)
    | write off w v =>
      simp only [eventAction, hostWrite] at h
      cases ht : target (withHost s rest).params off w with
      | error r => rw [ht] at h; simp at h
      | ok x =>
        rw [ht] at h
        cases x with
        | register r =>
          obtain ⟨rfl, rfl⟩ := target_register ht
          by_cases hr : r = .cmd
          · subst hr
            exact .inr (.inl ⟨_, _, rfl, by simpa using h⟩)
          · refine .inr (.inr (.inr (.inr (.inr (.inr (.inl ⟨_, _, _, rfl, hr, ?_⟩))))))
            cases r <;> simp_all
        | bufByte a =>
          obtain ⟨rfl, rfl, htb⟩ := target_bufByte ht
          refine .inr (.inr (.inr (.inr (.inr (.inr (.inr (.inl ⟨_, _, _, rfl, htb, ?_⟩)))))))
          simpa using h.symm
        | reserved =>
          refine .inr (.inr (.inr (.inr (.inr (.inr (.inr (.inr ⟨_, _, _, _, rfl, ht, ?_⟩)))))))
          simpa using h.symm

@[simp] theorem writeReg_params (s : State) (r : Reg) (v : Word) : (writeReg s r v).params = s.params := by cases r <;> rfl
@[simp] theorem writeReg_st (s : State) (r : Reg) (v : Word) : (writeReg s r v).st = s.st := by cases r <;> rfl
@[simp] theorem writeReg_ctlOut (s : State) (r : Reg) (v : Word) : (writeReg s r v).ctlOut = s.ctlOut := by cases r <;> rfl
@[simp] theorem writeReg_status (s : State) (r : Reg) (v : Word) : (writeReg s r v).status = s.status := by cases r <;> rfl
@[simp] theorem writeReg_resCount (s : State) (r : Reg) (v : Word) : (writeReg s r v).resCount = s.resCount := by cases r <;> rfl
@[simp] theorem writeReg_resLen (s : State) (r : Reg) (v : Word) : (writeReg s r v).resLen = s.resLen := by cases r <;> rfl
@[simp] theorem writeReg_mem (s : State) (r : Reg) (v : Word) : (writeReg s r v).mem = s.mem := by cases r <;> rfl
@[simp] theorem writeReg_fn (s : State) (r : Reg) (v : Word) : (writeReg s r v).fn = s.fn := by cases r <;> rfl
@[simp] theorem writeReg_host (s : State) (r : Reg) (v : Word) : (writeReg s r v).host = s.host := by cases r <;> rfl
@[simp] theorem writeReg_observed (s : State) (r : Reg) (v : Word) : (writeReg s r v).observed = s.observed := by cases r <;> rfl

end Sys2Proof.Machine
end

