-- ==== Sys2Proof/Laws/Bus.lean ====
section
/-! SUPPORT. A host write to a register and a hardware reset keep the invariant. -/

namespace Sys2Proof.Machine

theorem counterBits_lt (p : Params) (v : Word) : counterBits p v < 2 ^ p.cw := Nat.mod_lt _ (Nat.two_pow_pos _)

theorem crcRegBits_lt (p : Params) (v : Word) : (crcRegBits p v).toNat < 2 ^ p.crcBits := by
  unfold crcRegBits Params.crcBits
  cases p.crcWidth
  · exact BitVec16_in_word _
  · exact v.isLt

theorem writeReg_inv {s : State} (hs : s.Inv) (r : Reg) (v : Word) : (writeReg s r v).Inv := by
  have hb := hs.bank
  have hc := counterBits_lt s.params v
  cases r
  case argOff =>
    exact ⟨hs.params, hs.st, hs.bank, hc, hs.argLen, hs.resCount, hs.resLen, hs.ctlOut, hs.memWf, hs.memWithin⟩
  case argLen =>
    exact ⟨hs.params, hs.st, hs.bank, hs.argOff, hc, hs.resCount, hs.resLen, hs.ctlOut, hs.memWf, hs.memWithin⟩
  case snFlags => exact withBank_inv hs ⟨hb.crc, hb.startPos, hb.endPos, hb.pos, hb.out⟩
  case snStart => exact withBank_inv hs ⟨hb.crc, hc, hb.endPos, hb.pos, hb.out⟩
  case snEnd => exact withBank_inv hs ⟨hb.crc, hb.startPos, hc, hb.pos, hb.out⟩
  case snPos => exact withBank_inv hs ⟨hb.crc, hb.startPos, hb.endPos, hc, hb.out⟩
  case snOut => exact withBank_inv hs ⟨hb.crc, hb.startPos, hb.endPos, hb.pos, hc⟩
  case snCrc => exact withBank_inv hs ⟨crcRegBits_lt _ _, hb.startPos, hb.endPos, hb.pos, hb.out⟩
  all_goals exact hs

theorem hardReset_inv {s : State} (hs : s.Inv) (images : List Host.Cell) : (hardReset images s).Inv := by
  have hsz := size_lt hs.params
  obtain ⟨h1, h2⟩ := Memory.ofImages_wf_within s.params images
  exact ⟨hs.params, initState_fits hs.params, imageOf_fits hs.params (initState_fits hs.params), hsz.2.2.2, hsz.2.2.2,
    hsz.2.2.2, hsz.2.2.2, by show ctlOutKind 0#5 ≠ 3#2; decide, h1, h2⟩

end Sys2Proof.Machine
end

