-- ==== Sys2Proof/Laws/Encoder.lean ====
section
/-! SUPPORT. What the encoder's two loops do to a byte string. -/

namespace Sys2Proof.Machine

/-- Folding and emitting a string folds it un-escaped and appends it escaped (43_frame_encoder.md R90). -/
theorem foldl_foldAndEmit (p : Params) (s : List Byte) (f : FrameWork) :
    s.foldl (foldAndEmit p) f = ⟨crcFold p f.crc s, f.bytes ++ escEncode p s⟩ := by
  induction s generalizing f with
  | nil => simp
  | cons b s ih => simp [ih, foldAndEmit]

/-- Emitting a string appends it escaped and leaves the checksum (43_frame_encoder.md R92). -/
theorem foldl_emitOnly (p : Params) (s : List Byte) (f : FrameWork) :
    s.foldl (emitOnly p) f = ⟨f.crc, f.bytes ++ escEncode p s⟩ := by
  induction s generalizing f with
  | nil => simp
  | cons b s ih => simp [ih, emitOnly]

/-- The length of an escaped byte (41_escape_codec.md R81). -/
theorem length_escEncodeOne (p : Params) (b : Byte) :
    (escEncodeOne p b).length = if b = p.flag ∨ b = p.esc then 2 else 1 := by
  by_cases h : b = p.flag ∨ b = p.esc
  · simp [escEncodeOne_reserved h, h]
  · simp [escEncodeOne_plain h, h]

end Sys2Proof.Machine
end

