-- ==== Sys2Proof/Laws/Fields.lean ====
section
/-! SUPPORT. A command word is the concatenation of its fields, and a concatenation has the fields it was made of. -/

namespace Sys2Proof

theorem getLsbD_append_op (a : BitVec 29) (b : BitVec 3) (i : Nat) :
    (a ++ b : BitVec 32).getLsbD i = if i < 3 then b.getLsbD i else a.getLsbD (i - 3) := BitVec.getLsbD_append

theorem getLsbD_append_kind (a : BitVec 27) (b : BitVec 2) (i : Nat) :
    (a ++ b : BitVec 29).getLsbD i = if i < 2 then b.getLsbD i else a.getLsbD (i - 2) := BitVec.getLsbD_append

theorem getLsbD_append_seq (a : BitVec 24) (b : BitVec 3) (i : Nat) :
    (a ++ b : BitVec 27).getLsbD i = if i < 3 then b.getLsbD i else a.getLsbD (i - 3) := BitVec.getLsbD_append

/-- A command word is its opcode below all the rest. -/
theorem cmd_eq_rest_op (w : Word) : (cmdRest w ++ cmdOp w : BitVec 32) = w := by
  unfold cmdRest cmdOp
  apply BitVec.eq_of_getLsbD_eq
  intro i hi
  rw [getLsbD_append_op]
  by_cases h : i < 3
  · simp [h]
  · have : 3 + (i - 3) = i := by omega
    have h' : i - 3 < 29 := by omega
    simp [h, this, h']

/-- A command word is its four fields. -/
theorem cmd_eq_fields (w : Word) : (cmdHigh w ++ cmdSeq w ++ cmdKind w ++ cmdOp w : BitVec 32) = w := by
  unfold cmdHigh cmdOp cmdSeq cmdKind
  apply BitVec.eq_of_getLsbD_eq
  intro i hi
  rw [getLsbD_append_op, getLsbD_append_kind, getLsbD_append_seq]
  by_cases h : i < 3
  · simp [h]
  by_cases h2 : i < 5
  · have h3 : i - 3 < 2 := by omega
    have h4 : 3 + (i - 3) = i := by omega
    simp [h, h3, h4]
  have h3 : ¬ i - 3 < 2 := by omega
  by_cases h4 : i < 8
  · have h5 : i - 3 - 2 < 3 := by omega
    have h6 : 5 + (i - 3 - 2) = i := by omega
    simp [h, h3, h5, h6]
  · have h5 : ¬ i - 3 - 2 < 3 := by omega
    have h6 : 8 + (i - 3 - 2 - 3) = i := by omega
    have h7 : i - 3 - 2 - 3 < 24 := by omega
    simp [h, h3, h5, h6, h7]

@[simp] theorem cmdOp_append (a : BitVec 29) (b : BitVec 3) : cmdOp (a ++ b : BitVec 32) = b := by
  unfold cmdOp
  apply BitVec.eq_of_getLsbD_eq
  intro i hi
  rw [BitVec.getLsbD_extractLsb', getLsbD_append_op]
  simp [hi]

@[simp] theorem cmdRest_append (a : BitVec 29) (b : BitVec 3) : cmdRest (a ++ b : BitVec 32) = a := by
  unfold cmdRest
  apply BitVec.eq_of_getLsbD_eq
  intro i hi
  rw [BitVec.getLsbD_extractLsb', getLsbD_append_op]
  simp [hi]

theorem cmdOp_cases (w : Word) : cmdOp w = 0#3 ∨ cmdOp w = 1#3 ∨ cmdOp w = 2#3 ∨ cmdOp w = 3#3 ∨ cmdOp w = 4#3 ∨
    cmdOp w = 5#3 ∨ cmdOp w = 6#3 ∨ cmdOp w = 7#3 := by
  generalize cmdOp w = x
  revert x
  decide

theorem cmdKind_cases (w : Word) : cmdKind w = 0#2 ∨ cmdKind w = 1#2 ∨ cmdKind w = 2#2 ∨ cmdKind w = 3#2 := by
  generalize cmdKind w = x
  revert x
  decide

end Sys2Proof
end

