-- ==== Sys2Proof/Laws/PerInstr.lean ====
section
/-! SUPPORT. Per constructor: an instruction with a code has one of the format its table row names, and its fixed bits. -/

namespace Sys2Proof.Laws.Coded

/-- The code's format and the low bits every word of the row shares: the opcode of a command word, `c[0]` or `c[1:0]` of a
control byte (30_encoding.md R61, R64, R66). An internal function has no code (R73, R81, R82, R84, R85). -/
def Statement : Instr → Prop
  | .resetState => ∃ w, encode .resetState = some (.cmd w) ∧ cmdOp w = 0#3
  | .encodeData seq => ∃ w, encode (.encodeData seq) = some (.cmd w) ∧ cmdOp w = 1#3
  | .encodeAck seq => ∃ w, encode (.encodeAck seq) = some (.cmd w) ∧ cmdOp w = 1#3
  | .encodeNack seq => ∃ w, encode (.encodeNack seq) = some (.cmd w) ∧ cmdOp w = 1#3
  | .encodeKind3 seq => ∃ w, encode (.encodeKind3 seq) = some (.cmd w) ∧ cmdOp w = 1#3
  | .decode => ∃ w, encode .decode = some (.cmd w) ∧ cmdOp w = 2#3
  | .getState => ∃ w, encode .getState = some (.cmd w) ∧ cmdOp w = 3#3
  | .setState => ∃ w, encode .setState = some (.cmd w) ∧ cmdOp w = 4#3
  | .reserved5 rest => ∃ w, encode (.reserved5 rest) = some (.cmd w) ∧ cmdOp w = 5#3
  | .reserved6 rest => ∃ w, encode (.reserved6 rest) = some (.cmd w) ∧ cmdOp w = 6#3
  | .reserved7 rest => ∃ w, encode (.reserved7 rest) = some (.cmd w) ∧ cmdOp w = 7#3
  | .illegalHighBits word => encode (.illegalHighBits word) = some (.cmd word)
  | .crcStep c b => encode (.crcStep c b) = none
  | .escEncodeOne b => encode (.escEncodeOne b) = none
  | .escDecodeOne b pending => encode (.escDecodeOne b pending) = none
  | .ctlEncode kind seq => encode (.ctlEncode kind seq) = none
  | .ctlDecode c => encode (.ctlDecode c) = none
  | .ctlI ns pf nr => ∃ c : Byte, encode (.ctlI ns pf nr) = some (.ctl c) ∧ c.getLsbD 0 = false
  | .ctlSRr pf nr => ∃ c : Byte, encode (.ctlSRr pf nr) = some (.ctl c) ∧ ctlLow c = 1#2
  | .ctlSRnr pf nr => ∃ c : Byte, encode (.ctlSRnr pf nr) = some (.ctl c) ∧ ctlLow c = 1#2
  | .ctlSRej pf nr => ∃ c : Byte, encode (.ctlSRej pf nr) = some (.ctl c) ∧ ctlLow c = 1#2
  | .ctlSSrej pf nr => ∃ c : Byte, encode (.ctlSSrej pf nr) = some (.ctl c) ∧ ctlLow c = 1#2
  | .ctlU mid nr => ∃ c : Byte, encode (.ctlU mid nr) = some (.ctl c) ∧ ctlLow c = 3#2

theorem resetState : Statement .resetState := ⟨_, rfl, by decide⟩
theorem encodeData (seq : BitVec 3) : Statement (.encodeData seq) := ⟨_, rfl, by revert seq; decide⟩
theorem encodeAck (seq : BitVec 3) : Statement (.encodeAck seq) := ⟨_, rfl, by revert seq; decide⟩
theorem encodeNack (seq : BitVec 3) : Statement (.encodeNack seq) := ⟨_, rfl, by revert seq; decide⟩
theorem encodeKind3 (seq : BitVec 3) : Statement (.encodeKind3 seq) := ⟨_, rfl, by revert seq; decide⟩
theorem decode : Statement .decode := ⟨_, rfl, by decide⟩
theorem getState : Statement .getState := ⟨_, rfl, by decide⟩
theorem setState : Statement .setState := ⟨_, rfl, by decide⟩
theorem reserved5 (rest : BitVec 29) : Statement (.reserved5 rest) := ⟨_, rfl, cmdOp_append _ _⟩
theorem reserved6 (rest : BitVec 29) : Statement (.reserved6 rest) := ⟨_, rfl, cmdOp_append _ _⟩
theorem reserved7 (rest : BitVec 29) : Statement (.reserved7 rest) := ⟨_, rfl, cmdOp_append _ _⟩
theorem illegalHighBits (word : Word) : Statement (.illegalHighBits word) := rfl
theorem crcStep (c : Word) (b : Byte) : Statement (.crcStep c b) := rfl
theorem escEncodeOne (b : Byte) : Statement (.escEncodeOne b) := rfl
theorem escDecodeOne (b : Byte) (pending : Bool) : Statement (.escDecodeOne b pending) := rfl
theorem ctlEncode (kind : Kind) (seq : BitVec 3) : Statement (.ctlEncode kind seq) := rfl
theorem ctlDecode (c : Byte) : Statement (.ctlDecode c) := rfl
theorem ctlI (ns : BitVec 3) (pf : BitVec 1) (nr : BitVec 3) : Statement (.ctlI ns pf nr) :=
  ⟨_, rfl, by revert ns pf nr; decide⟩
theorem ctlSRr (pf : BitVec 1) (nr : BitVec 3) : Statement (.ctlSRr pf nr) := ⟨_, rfl, by revert pf nr; decide⟩
theorem ctlSRnr (pf : BitVec 1) (nr : BitVec 3) : Statement (.ctlSRnr pf nr) := ⟨_, rfl, by revert pf nr; decide⟩
theorem ctlSRej (pf : BitVec 1) (nr : BitVec 3) : Statement (.ctlSRej pf nr) := ⟨_, rfl, by revert pf nr; decide⟩
theorem ctlSSrej (pf : BitVec 1) (nr : BitVec 3) : Statement (.ctlSSrej pf nr) := ⟨_, rfl, by revert pf nr; decide⟩
theorem ctlU (mid : BitVec 3) (nr : BitVec 3) : Statement (.ctlU mid nr) := ⟨_, rfl, by revert mid nr; decide⟩

end Sys2Proof.Laws.Coded
end

