-- ==== Sys2Proof/Laws/Platform.lean ====
section
/-! SUPPORT. What a step of a platform can do, and that it keeps `N_INST` and its bound (R11, R156). -/

namespace Sys2Proof.Machine

@[simp] theorem Platform.ok_iff (pl : Platform) : pl.ok = true ↔ 1 ≤ pl.nInst := decide_eq_true_iff

@[simp] theorem Platform.nInst_reset (n : Nat) : (Platform.reset n).nInst = n := List.length_replicate

/-- A step of instance `k` changes nothing where there is no such instance, and is that instance's own step otherwise. -/
theorem Platform.stepCore_cases {k : Nat} {a b : Platform} (h : a.stepCore k = .next b) :
    (a.cores[k]? = none ∧ b = a) ∨
      ∃ s t, a.cores[k]? = some s ∧ step s = .next t ∧ b = ⟨a.cores.set k t⟩ := by
  unfold Platform.stepCore at h
  split at h
  case h_1 hk =>
    cases h
    exact .inl ⟨hk, rfl⟩
  case h_2 s hk =>
    split at h <;> cases h
    exact .inr ⟨s, _, hk, ‹_›, rfl⟩

/-- No step changes `N_INST` (R11). -/
theorem Platform.nInst_stepCore {k : Nat} {a b : Platform} (h : a.stepCore k = .next b) : b.nInst = a.nInst := by
  obtain ⟨_, rfl⟩ | ⟨s, t, _, _, rfl⟩ := stepCore_cases h
  · rfl
  · exact List.length_set

/-- Every step keeps the bound on `N_INST` (R11). -/
theorem Platform.ok_stepCore {k : Nat} {a b : Platform} (h : a.stepCore k = .next b) (ha : a.ok = true) : b.ok = true := by
  rw [ok_iff, nInst_stepCore h, ← ok_iff, ha]

/-- A step of one instance leaves every other instance as it is (R156). -/
theorem Platform.getElem?_stepCore {j k : Nat} {a b : Platform} (h : a.stepCore k = .next b) (hjk : j ≠ k) :
    b.cores[j]? = a.cores[j]? := by
  obtain ⟨_, rfl⟩ | ⟨s, t, _, _, rfl⟩ := stepCore_cases h
  · rfl
  · exact List.getElem?_set_ne hjk.symm

end Sys2Proof.Machine
end

