-- ==== Sys2Proof/Tests/Slice0.lean ====
section
/-! SUPPORT. The model's own tests. An expected value is one the spec prints: the table or rule it stands in is named. The
witnesses at the end meet, together, the hypotheses of each statement that has any. -/

open Sys2Proof Sys2Proof.Machine

namespace Sys2Proof.Tests

set_option Elab.async false

/-! ## Helpers -/

/-- The next state of an outcome, or `State.reset`. -/
def nextOr (o : Result) : State :=
  match o with
  | .next t => t
  | .fault _ => State.reset
  | .refused _ => State.reset

/-- The outcome is a next state. -/
def isNext (o : Result) : Bool :=
  match o with
  | .next _ => true
  | .fault _ => false
  | .refused _ => false

theorem eq_nextOr {o : Result} (h : isNext o = true) : o = .next (nextOr o) := by
  cases o <;> simp_all [isNext, nextOr]

/-- After reset, with `bytes` in `IBUF` from 0 on and named by the argument registers. -/
def withBytes (bytes : List Byte) : State :=
  { State.reset with mem := Memory.writeBytes [] (bufBase .ibuf) bytes, argLen := bytes.length }

/-- The same with another decoder state record. -/
def withRecord (bytes : List Byte) (st : DecState) : State := withSt (withBytes bytes) st

/-- In-frame after `7E` at position 0 (95_test_vectors.md section 1.7, row 1). -/
def started : DecState := { initState Params.vectors with startValid := true, pos := 1 }

/-- The status, the two counts and `CTL_OUT` after an outcome. -/
def results (o : Result) : BitVec 4 × Nat × Nat × Word :=
  (statusCode (nextOr o).status, (nextOr o).resCount, (nextOr o).resLen, (nextOr o).ctlOut.setWidth 32)

/-- DECODE of a chunk from the state after reset. -/
def decodeOf (bytes : List Byte) : Result := exec .decode (withBytes bytes)

/-- `7E FF 16 7D 5E 87 5B 7E`, a Data frame with sequence 3 and payload `7E` (43_frame_encoder.md R96). -/
def frame3 : List Byte := [0x7E#8, 0xFF#8, 0x16#8, 0x7D#8, 0x5E#8, 0x87#8, 0x5B#8, 0x7E#8]

/-! ## Ill-formed terms -/

theorem test_wf_refuses_a_legal_word_as_illegal : (Instr.illegalHighBits 0x41#32).wf Params.vectors = false := by decide
theorem test_wf_refuses_a_reserved_opcode_as_illegal : (Instr.illegalHighBits 0x105#32).wf Params.vectors = false := by decide
theorem test_wf_refuses_kind3_as_illegal : (Instr.illegalHighBits 0x19#32).wf Params.vectors = false := by decide
theorem test_wf_refuses_a_checksum_past_its_width : (Instr.crcStep 0x10000#32 0#8).wf Params.vectors = false := by decide
theorem test_wf_refuses_flag_to_the_escape_decoder : (Instr.escDecodeOne 0x7E#8 true).wf Params.vectors = false := by decide
theorem test_wf_accepts : (Instr.illegalHighBits 0x101#32).wf Params.vectors = true ∧
    (Instr.crcStep 0xFFFF#32 0#8).wf Params.vectors = true ∧ (Instr.escDecodeOne 0x5E#8 true).wf Params.vectors = true := by
  decide

/-! ## Decoding: words from 30_encoding.md R64, R66, R68 and R72 -/

theorem test_decode_reset_state : decodeTableWord 32 0x00000000 = some .resetState := by decide
theorem test_decode_encode_data : decodeTableWord 32 0x00000041 = some (.encodeData 2#3) := by decide
theorem test_decode_encode_ack : decodeTableWord 32 0x000000A9 = some (.encodeAck 5#3) := by decide
theorem test_decode_encode_nack : decodeTableWord 32 0x000000F1 = some (.encodeNack 7#3) := by decide
theorem test_decode_encode_kind3 : decodeTableWord 32 0x00000019 = some (.encodeKind3 0#3) := by decide
theorem test_decode_decode : decodeTableWord 32 0x00000002 = some .decode := by decide
theorem test_decode_get_state : decodeTableWord 32 0x00000003 = some .getState := by decide
theorem test_decode_set_state : decodeTableWord 32 0x00000004 = some .setState := by decide
theorem test_decode_reserved5 : decodeTableWord 32 0x0000000D = some (.reserved5 1#29) := by decide
theorem test_decode_reserved6 : decodeTableWord 32 0x00000006 = some (.reserved6 0#29) := by decide
theorem test_decode_reserved7 : decodeTableWord 32 0x80000007 = some (.reserved7 0x10000000#29) := by decide
theorem test_decode_illegal_high_bits : decodeTableWord 32 0x00000101 = some (.illegalHighBits 0x101#32) ∧
    decodeTableWord 32 0x0000000A = some (.illegalHighBits 0x0A#32) := by decide
theorem test_decode_control_bytes : decodeTableWord 8 0x1E = some (.ctlI 7#3 1#1 0#3) ∧
    decodeTableWord 8 0xE1 = some (.ctlSRr 0#1 7#3) ∧ decodeTableWord 8 0x25 = some (.ctlSRnr 0#1 1#3) ∧
    decodeTableWord 8 0x49 = some (.ctlSRej 0#1 2#3) ∧ decodeTableWord 8 0x7D = some (.ctlSSrej 1#1 3#3) ∧
    decodeTableWord 8 0x0B = some (.ctlU 2#3 0#3) := by decide
theorem test_decode_refuses_by_name : decodeBits 33 0 = .error (.noFormatOfWidth 33) ∧
    decodeBits 8 0x100 = .error (.bitsAboveWidth 8 0x100) := by constructor <;> rfl

/-! ## A step runs the word placed for it -/

theorem test_step_reserved5 : results (step (State.reset.withFetchWord 32 0x05)) = (4#4, 0, 0, 0#32) := by decide +kernel

/-- An empty Data frame (95_test_vectors.md section 1.1). -/
theorem test_step_encode_data : results (step (State.reset.withFetchWord 32 0x01)) = (0#4, 6, 0, 0#32) := by decide +kernel

/-- A received control byte goes to `CTL_OUT`: `E1` is (Acknowledge, 7) (section 2.3). -/
theorem test_step_control_byte : results (step (State.reset.withFetchWord 8 0xE1)) = (1#4, 1, 0, 0x1D#32) := by decide +kernel

/-- `7E`, a reserved byte, is received escaped and is (Data, 7) (section 2.3). -/
theorem test_step_reserved_control_byte : results (step (State.reset.withFetchWord 8 0x7E)) = (1#4, 1, 0, 0x1C#32) := by
  decide +kernel

/-! ## ENCODE (43_frame_encoder.md R96; 95_test_vectors.md sections 1.5 and 2.4) -/

theorem test_encode_data_escapes : readBufBytes (nextOr (exec (.encodeData 2#3) (withBytes [0x7D#8, 0x7E#8, 0x20#8]))) .ebuf 0 11 =
    [0x7E#8, 0xFF#8, 0x14#8, 0x7D#8, 0x5D#8, 0x7D#8, 0x5E#8, 0x20#8, 0x11#8, 0xBF#8, 0x7E#8] := by decide +kernel

theorem test_encode_ack_drops_the_payload : readBufBytes (nextOr (exec (.encodeAck 2#3) (withBytes [0x11#8, 0x22#8]))) .ebuf 0 7 =
    [0x7E#8, 0xFF#8, 0x41#8, 0x0A#8, 0xA3#8, 0x7E#8, 0x00#8] := by decide +kernel

theorem test_encode_nack : readBufBytes (nextOr (exec (.encodeNack 7#3) State.reset)) .ebuf 0 6 =
    [0x7E#8, 0xFF#8, 0xE9#8, 0x48#8, 0x8A#8, 0x7E#8] := by decide +kernel

theorem test_encode_checks_the_range :
    results (exec (.encodeAck 0#3) { State.reset with argOff := 250, argLen := 7 }) = (4#4, 0, 0, 0#32) := by decide +kernel

theorem test_encode_crc32_swapped : frameBytes { Params.vectors with flagSwap := true, crcWidth := .w32 } .data 1#3 [0x01#8] =
    [0x7D#8, 0xFF#8, 0x12#8, 0x01#8, 0xBA#8, 0xAD#8, 0x2A#8, 0x4E#8, 0x7D#8] := by decide +kernel

/-! ## DECODE (95_test_vectors.md section 2.5) -/

theorem test_decode_frame : results (decodeOf frame3) = (2#4, 7, 1, 0x0C#32) ∧
    readBuf (nextOr (decodeOf frame3)) .dbuf 0 = 0x7E#8 := by decide +kernel

theorem test_decode_esc_then_flags :
    results (decodeOf [0x7E#8, 0xFF#8, 0x10#8, 0x7D#8, 0x7E#8, 0x7E#8, 0x26#8, 0xE0#8, 0x7E#8]) = (3#4, 5, 0, 0#32) := by
  decide +kernel

/-! ## GET_STATE, SET_STATE, RESET_STATE (95_test_vectors.md section 2.6) -/

/-- After DECODE of `7E FF 16 7D`. -/
def midFrame : State := nextOr (decodeOf [0x7E#8, 0xFF#8, 0x16#8, 0x7D#8])

theorem test_get_state : (nextOr (exec .getState midFrame)).bank = ⟨3#3, 0, 0, 4, 0, 0x7ACF#32⟩ := by decide +kernel

theorem test_set_state : (nextOr (exec .setState { State.reset with bank := ⟨3#3, 0, 0, 4, 0, 0x7ACF#32⟩ })).st = midFrame.st := by
  decide +kernel

theorem test_set_state_refuses :
    (nextOr (exec .setState { State.reset with bank := ⟨0#3, 0, 0, 0, 257, 0#32⟩ })).status = .invalidArgument ∧
    (nextOr (exec .setState { State.reset with bank := ⟨0#3, 0, 0, 0, 256, 0#32⟩ })).status = .ok := by decide +kernel

theorem test_reset_state : (nextOr (exec .resetState midFrame)).st = initState Params.vectors := by decide +kernel

theorem test_reset_state_with_a_reserved_bit : (nextOr (exec (decodeCmd 0x08#32) midFrame)).st = midFrame.st := by decide +kernel

/-! ## The internal functions (95_test_vectors.md sections 2.1 to 2.3) -/

theorem test_crc_step : crcStep Params.vectors 0x00FF#32 0x10#8 = 0x1FF9#32 := by decide +kernel
theorem test_crc_step_32 : crcStep { Params.vectors with crcWidth := .w32 } 0xFFFFFFFF#32 0x00#8 = 0x2DFD1072#32 := by
  decide +kernel
theorem test_esc_encode_one : escEncodeOne Params.vectors 0x7D#8 = [0x7D#8, 0x5D#8] ∧
    escEncodeOne { Params.vectors with flagSwap := true } 0x7D#8 = [0x7E#8, 0x5D#8] := by decide
theorem test_esc_decode_one : escDecodeOne Params.vectors 0x41#8 true = (some 0x61#8, false) ∧
    escDecodeOne Params.vectors 0x7D#8 true = (none, true) := by decide
theorem test_ctl_encode : ctlEncode .ack 5#3 = 0xA1#8 ∧ ctlEncode .nack 7#3 = 0xE9#8 ∧ ctlEncode .data 3#3 = 0x16#8 := by decide
theorem test_ctl_decode : ctlDecode 0xF0#8 = ⟨.data, 0#3⟩ ∧ ctlDecode 0x11#8 = ⟨.ack, 0#3⟩ ∧ ctlDecode 0xFF#8 = ⟨.nack, 7#3⟩ := by
  decide
theorem test_ctl_classes : (nextOr (exec (decodeCtl 0xF0#8) State.reset)).fn = .descriptor ⟨.data, 0#3⟩ ∧
    (nextOr (exec (decodeCtl 0xE1#8) State.reset)).fn = .descriptor ⟨.ack, 7#3⟩ ∧
    (nextOr (exec (decodeCtl 0x05#8) State.reset)).fn = .descriptor ⟨.nack, 0#3⟩ ∧
    (nextOr (exec (decodeCtl 0x7D#8) State.reset)).fn = .descriptor ⟨.nack, 3#3⟩ := by decide +kernel

/-! ## Witnesses: states that meet the hypotheses of the statements -/

theorem vectors_ok : Params.vectors.ok = true := by decide

theorem withBytes_inv {bytes : List Byte} (h : bytes.length ≤ 256) : (withBytes bytes).Inv where
  params := vectors_ok
  st := initState_fits vectors_ok
  bank := imageOf_fits vectors_ok (initState_fits vectors_ok)
  argOff := show 0 < 2 ^ 16 by decide
  argLen := by show bytes.length < 2 ^ 16; omega
  resCount := show 0 < 2 ^ 16 by decide
  resLen := show 0 < 2 ^ 16 by decide
  ctlOut := show ctlOutKind 0#5 ≠ 3#2 by decide
  memWf := Memory.wf_writeBytes rfl _ _
  memWithin := Memory.within_writeBytes rfl _ _ fun k hk => touchesBuffers_of_lt .ibuf
    (show k < 256 by omega)

theorem started_fits : started.Fits Params.vectors :=
  ⟨by decide, by decide, by decide, by decide, by decide, by decide⟩

theorem withRecord_inv {bytes : List Byte} (h : bytes.length ≤ 256) {st : DecState} (hst : st.Fits Params.vectors) :
    (withRecord bytes st).Inv := withSt_inv (withBytes_inv h) hst

theorem witness_DecodeOfEncodeIsTheInstruction :
    (∃ i c, Instr.wf Params.vectors i = true ∧ encode i = some c ∧ i = .encodeData 7#3) ∧
    (∃ i c, Instr.wf Params.vectors i = true ∧ encode i = some c ∧ i = .illegalHighBits 0x08#32) ∧
    (∃ i c, Instr.wf Params.vectors i = true ∧ encode i = some c ∧ i = .ctlU 7#3 7#3) :=
  ⟨⟨_, _, by decide, rfl, rfl⟩, ⟨_, _, by decide, rfl, rfl⟩, ⟨_, _, by decide, rfl, rfl⟩⟩

theorem witness_EveryCodeHasOneMeaning :
    ∃ i, Instr.wf Params.vectors i = true ∧ encode i = some (.cmd 0x000000F1#32) := ⟨.encodeNack 7#3, by decide, by decide⟩

theorem witness_IllegalWordsAreTurnedAway :
    illegalCommand 0x05#32 ∧ illegalCommand 0x80000001#32 ∧ illegalCommand 0x0A#32 ∧ illegalCommand 0x19#32 ∧
      ¬ illegalCommand 0x41#32 ∧ ¬ illegalCommand 0x02#32 := by
  simp only [illegalCommand]
  decide

/-- A host whose next event is `e`. -/
def facing (e : HostEvent) : State := withHost State.reset [e]

theorem witness_StepRunsTheWrittenCommand : (facing (.write 0x00#18 .word 0x02#32)).host = .write 0x00#18 .word 0x02#32 :: [] := rfl

theorem witness_OnlyCmdWritesHaveSideEffects :
    State.reset.host = [] ∧ (facing (.write 0x00#18 .word 0x41#32)).host = [.write 0x00#18 .word 0x41#32] ∧
    isNext (step (facing (.write 0x04#18 .word 3#32))) = true ∧ isNext (step (facing (.write 0x1000F#18 .byte 3#32))) = true ∧
    isNext (step (withHost State.reset [.read 0x34#18 .word, .read 0x34#18 .word])) = true := by decide

theorem witness_RegisterReadsFollowTheMap :
    (0x00#18, 0#32) ∈ [(0x00#18, 0#32), (0x34#18, State.reset.bank.crc)] ∧
    (facing (.read 0x34#18 .word)).host = [.read 0x34#18 .word] := by decide

theorem witness_RegisterWritesKeepTheWidth : ∀ off ∈ [0x04#18, 0x08#18, 0x20#18, 0x24#18, 0x28#18, 0x2C#18, 0x30#18, 0x34#18,
    0x0C#18, 0x10#18, 0x14#18, 0x18#18], (facing (.write off .word 0xFFFFFFFF#32)).host = [.write off .word 0xFFFFFFFF#32] :=
  fun _ _ => rfl

theorem witness_ReservedOffsetsReadZero :
    (∀ off ∈ [0x1C#18, 0x38#18, 0xFC#18], off.toNat < 0x100 ∧ off.toNat % 4 = 0 ∧
      off.toNat ∉ [0x00, 0x04, 0x08, 0x0C, 0x10, 0x14, 0x18, 0x20, 0x24, 0x28, 0x2C, 0x30, 0x34] ∧
      ∀ b : Buf, ¬ (bufBase b ≤ off.toNat ∧ off.toNat < bufBase b + bufSize Params.vectors b)) ∧
    ∀ off ∈ [0x100#18, 0xFFFF#18, 0x10100#18, 0x1FFFF#18, 0x20100#18, 0x3FFFF#18], 0x100 ≤ off.toNat ∧
      ∀ b : Buf, ¬ (bufBase b ≤ off.toNat ∧ off.toNat < bufBase b + bufSize Params.vectors b) := by
  refine ⟨fun off h => ?_, fun off h => ?_⟩
  · have : off = 0x1C#18 ∨ off = 0x38#18 ∨ off = 0xFC#18 := by simpa using h
    rcases this with rfl | rfl | rfl <;> refine ⟨by decide, by decide, by decide, fun b => ?_⟩ <;> cases b <;> decide
  · have : off = 0x100#18 ∨ off = 0xFFFF#18 ∨ off = 0x10100#18 ∨ off = 0x1FFFF#18 ∨ off = 0x20100#18 ∨ off = 0x3FFFF#18 := by
      simpa using h
    rcases this with rfl | rfl | rfl | rfl | rfl | rfl <;> refine ⟨by decide, fun b => ?_⟩ <;> cases b <;> decide

theorem witness_AccessesOutsideTheInterfaceAreRefused :
    (facing (.read 0xFF#18 .byte)).host = [.read 0xFF#18 .byte] ∧ (0xFF#18).toNat < 0x100 ∧ Width.byte ≠ .word ∧
    (0x02#18).toNat % 4 ≠ 0 ∧
    (0x100 ≤ (0xFFFF#18).toNat ∧ (0xFFFF#18).toNat + widthBytes .half ≤ 0x40000 ∧
      ∃ (b : Buf) (k : Nat), k < widthBytes .half ∧ bufBase b ≤ (0xFFFF#18).toNat + k ∧
        (0xFFFF#18).toNat + k < bufBase b + bufSize Params.vectors b) :=
  ⟨rfl, by decide, by decide, by decide, by decide, by decide, .ibuf, 1, by decide, by decide, by decide⟩

theorem witness_BufferBytesAreReadAndWrittenInTheirWindow :
    ∀ a ∈ [0, 255], ∀ b : Buf, (withBytes []).Inv ∧ a < bufSize (withBytes []).params b := by
  intro a h b
  have : a = 0 ∨ a = 255 := by simpa using h
  refine ⟨withBytes_inv (by decide), ?_⟩
  rcases this with rfl | rfl <;> cases b <;> decide

theorem witness_HardwareResetSetsEveryRegister :
    (facing (.reset [(0x10000, 1#8), (0x300FF, 2#8)])).host = [.reset [(0x10000, 1#8), (0x300FF, 2#8)]] ∧
    Memory.wf [(0x10000, 1#8), (0x300FF, 2#8)] = true ∧
    Memory.within Params.vectors [(0x10000, 1#8), (0x300FF, 2#8)] = true := by decide

theorem witness_EveryStepKeepsTheInvariant :
    (withHost (withBytes frame3) [.write 0x00#18 .word 2#32]).Inv ∧
    isNext (step (withHost (withBytes frame3) [.write 0x00#18 .word 2#32])) = true :=
  ⟨withHost_inv (withBytes_inv (by decide)) _, by decide +kernel⟩

theorem witness_ParametersNeverChange : isNext (step State.reset) = true := by decide

theorem witness_RefusedCommandsChangeNothingElse : isCommand .setState = true ∧
    isNext (exec .setState { State.reset with bank := ⟨4#3, 0, 0, 0, 0, 0#32⟩ }) = true ∧
    (nextOr (exec .setState { State.reset with bank := ⟨4#3, 0, 0, 0, 0, 0#32⟩ })).status = .invalidArgument := by decide +kernel

theorem witness_StatusCodesAndTheirWriters : isCommand .decode = true ∧
    (nextOr (exec .getState State.reset)).status = .ok ∧ (nextOr (decodeOf [])).status = .noCompleteFrame ∧
    (nextOr (decodeOf frame3)).status = .frame ∧
    (nextOr (decodeOf [0x7E#8, 0xFF#8, 0x7E#8])).status = .checksumOrFramingError ∧
    (nextOr (exec .decode { withBytes frame3 with params := { Params.vectors with dbufSize := 1 } })).status = .capacityExceeded := by
  decide +kernel

theorem witness_OnlyTheNamedCommandsWriteDecoderRegisters :
    (nextOr (decodeOf frame3)).ctlOut ≠ (withBytes frame3).ctlOut ∧
    (nextOr (decodeOf [0x7E#8])).st ≠ (withBytes [0x7E#8]).st ∧
    (nextOr (step (withHost (withBytes [0x7E#8]) [.write 0x00#18 .word 2#32]))).st ≠ (withBytes [0x7E#8]).st := by decide +kernel

theorem witness_EachBufferHasItsOneWriter : (withBytes frame3).Inv ∧ isNext (decodeOf frame3) = true ∧
    readBuf (nextOr (decodeOf frame3)) .dbuf 0 ≠ readBuf (withBytes frame3) .dbuf 0 ∧
    isNext (exec (.encodeData 0#3) (withBytes frame3)) = true ∧
    readBuf (nextOr (exec (.encodeData 0#3) (withBytes frame3))) .ebuf 0 ≠ readBuf (withBytes frame3) .ebuf 0 :=
  ⟨withBytes_inv (by decide), by decide +kernel, by decide +kernel, by decide +kernel, by decide +kernel⟩

theorem witness_AlwaysRefusedRowsComplete :
    (∃ i : Instr, i = .encodeKind3 0#3 ∨ i = .reserved5 0#29 ∨ i = .reserved6 0#29 ∨ i = .reserved7 0#29 ∨ i = .illegalHighBits 0x101#32) ∧
    cmdOp 0x00000005#32 = 5#3 ∧ cmdOp 0x00000006#32 = 6#3 ∧ cmdOp 0xFFFFFFFF#32 = 7#3 := ⟨⟨_, .inl rfl⟩, by decide⟩

theorem witness_ResetStateCommandResetsOnlyTheRecord : cmdOp 0#32 = 0#3 ∧ (0#32).extractLsb' 3 29 = 0#29 ∧
    cmdOp 0x80000000#32 = 0#3 ∧ (0x80000000#32).extractLsb' 3 29 ≠ 0#29 := by decide

theorem witness_GetStateCopiesTheRecordToTheBank : cmdOp 3#32 = 3#3 ∧ (3#32).extractLsb' 3 29 = 0#29 ∧
    cmdOp 0x0B#32 = 3#3 ∧ (0x0B#32).extractLsb' 3 29 ≠ 0#29 := by decide

theorem witness_SetStateLoadsAnAcceptableImage : cmdOp 4#32 = 4#3 ∧ (4#32).extractLsb' 3 29 = 0#29 ∧
    cmdOp 0x104#32 = 4#3 ∧ (0x104#32).extractLsb' 3 29 ≠ 0#29 ∧
    (∀ out ∈ [0, 256], (⟨3#3, 1, 0, 4, out, 5#32⟩ : Bank).flags.getLsbD 2 = false ∧ out ≤ Params.vectors.dbufSize) ∧
    ¬ 257 ≤ Params.vectors.dbufSize ∧ (4#3).getLsbD 2 = true := by decide

theorem witness_SaveAndRestoreTheRecord : ∃ a b c : State, a.Inv ∧ exec .getState a = .next b ∧ c.params = a.params ∧
    c.bank = b.bank ∧ c.st ≠ a.st :=
  ⟨withRecord frame3 started, _, { State.reset with bank := imageOf started }, withRecord_inv (by decide) started_fits, rfl, rfl,
    rfl, by decide +kernel⟩

theorem witness_SeekingRecordStaysInitial : State.SeekClean (withBytes [0x7E#8]) ∧ Instr.decode ≠ .setState ∧
    isNext (decodeOf [0x7E#8]) = true := ⟨fun _ => rfl, by decide, by decide +kernel⟩

theorem witness_ReceivedControlByteReachesCtlOut : State.Inv (withBytes []) := withBytes_inv (by decide)

theorem witness_ControlByteClassesCoverAllBytes : (0x00#8) &&& 0x01#8 = 0x00#8 ∧ (0xE1#8) &&& 0x0F#8 = 0x01#8 ∧
    (0x05#8) &&& 0x0F#8 = 0x05#8 ∧ (0x09#8) &&& 0x0F#8 = 0x09#8 ∧ (0x0D#8) &&& 0x0F#8 = 0x0D#8 ∧ (0xFF#8) &&& 0x03#8 = 0x03#8 := by
  decide

theorem witness_StandardChecksums : (Params.vectors.crc = .standard ∧ Params.vectors.crcWidth = .w16 ∧
    (0xFFFF#32).toNat < 2 ^ 16) ∧ ∃ p : Params, p.crc = .standard ∧ p.crcWidth = .w32 :=
  ⟨by decide, { Params.vectors with crcWidth := .w32 }, rfl, rfl⟩

theorem witness_StandardChecksumsMeetTheLaw : Params.vectors.crc = .standard ∧
    ({ Params.vectors with crcWidth := .w32 } : Params).crc = .standard := by decide

/-- `EBUF_SIZE` exactly the length of the frame of payload `7E`. -/
def encoderAtItsLimit : State := { withBytes [0x7E#8] with params := { Params.vectors with ebufSize := 8 } }

theorem encoderAtItsLimit_inv : encoderAtItsLimit.Inv where
  params := by decide
  st := initState_fits (by decide)
  bank := imageOf_fits (by decide) (initState_fits (by decide))
  argOff := by decide
  argLen := by decide
  resCount := by decide
  resLen := by decide
  ctlOut := by decide
  memWf := by decide +kernel
  memWithin := by decide +kernel

theorem witness_EncodeWritesTheWireFrame : ∃ (s : State) (f : List Byte), s.Inv ∧ s.argOff + s.argLen ≤ s.params.ibufSize ∧
    f = wireFrame s.params .data 3#3 (readBufBytes s .ibuf s.argOff s.argLen) ∧ f.length = s.params.ebufSize :=
  ⟨encoderAtItsLimit, _, encoderAtItsLimit_inv, by decide, rfl, by decide +kernel⟩

theorem witness_EncodeChecksItsOperands : cmdOp 0x101#32 = 1#3 ∧ cmdHigh 0x101#32 ≠ 0#24 ∧ cmdKind 0x19#32 = 3#2 ∧
    Params.vectors.ibufSize < 250 + 7 ∧ cmdKind 0x61#32 = 0#2 ∧
    7 < (wireFrame Params.vectors .data (cmdSeq 0x61#32) [0x7E#8]).length := by decide +kernel

theorem witness_EncodeDependsOnlyOnItsOperands : ∃ s s' : State, s.Inv ∧ s'.Inv ∧ s'.params = s.params ∧ s'.argOff = s.argOff ∧
    s'.argLen = s.argLen ∧ readBufBytes s' .ibuf s.argOff s.argLen = readBufBytes s .ibuf s.argOff s.argLen ∧ s ≠ s' ∧
    isNext (exec (.encodeData 0#3) s) = true ∧ isNext (exec (.encodeData 0#3) s') = true :=
  ⟨withBytes frame3, withRecord frame3 started, withBytes_inv (by decide), withRecord_inv (by decide) started_fits, rfl, rfl, rfl,
    rfl, by decide +kernel, by decide +kernel, by decide +kernel⟩

/-- A payload of reserved bytes whose FCS bytes, for a Data frame with sequence 2, are reserved too: `7D 7D`. -/
def allReserved : List Byte := [0x7D#8, 0x7D#8, 0x7E#8, 0x7E#8, 0x7E#8, 0x7D#8, 0x7E#8, 0x7E#8]

theorem witness_FrameLengthBounds : (Kind.data ≠ .data → allReserved = []) ∧
    (∀ b ∈ ([] : List Byte) ++ fcsBytes Params.vectors (frameContents .data 0#3 []), b ≠ 0x7E#8 ∧ b ≠ 0x7D#8) ∧
    (∀ b ∈ allReserved ++ fcsBytes Params.vectors (frameContents .data 2#3 allReserved), b = 0x7E#8 ∨ b = 0x7D#8) :=
  ⟨fun h => absurd rfl h, by decide +kernel, by decide +kernel⟩

theorem witness_DecodeChecksItsOperands : cmdOp 0x0A#32 = 2#3 ∧ (0x0A#32).extractLsb' 3 29 ≠ 0#29 ∧
    cmdOp 2#32 = 2#3 ∧ Params.vectors.ibufSize < 256 + 1 := by decide

theorem witness_DecodeWritesOnlyFromItsCursor : (withBytes frame3).Inv ∧
    (withBytes frame3).argOff + (withBytes frame3).argLen ≤ (withBytes frame3).params.ibufSize :=
  ⟨withBytes_inv (by decide), by decide⟩

theorem witness_DecodeOutcomeTable : (withBytes frame3).Inv ∧ isNext (decodeOf frame3) = true ∧
    (nextOr (decodeOf frame3)).status = .frame ∧ (nextOr (decodeOf [0x7E#8, 0xFF#8, 0x7E#8])).status = .checksumOrFramingError :=
  ⟨withBytes_inv (by decide), by decide +kernel, by decide +kernel, by decide +kernel⟩

/-- A Seeking-start record at `POS_MAX`, as a SET_STATE can load it. -/
def fullSeeker : DecState := { initState Params.vectors with pos := 0xFFFF }

theorem fullSeeker_fits : fullSeeker.Fits Params.vectors := ⟨by decide, by decide, by decide, by decide, by decide, by decide⟩

theorem witness_SeekingSkipsToTheStartFlag :
    (∃ s : State, s.Inv ∧ s.st.startValid = false ∧ s.argOff + s.argLen ≤ s.params.ibufSize ∧
      s.params.flag ∉ [0x00#8, 0x7D#8] ∧ readBufBytes s .ibuf s.argOff s.argLen = [0x00#8, 0x7D#8]) ∧
    (∃ s : State, s.Inv ∧ s.st.startValid = false ∧ s.argOff + s.argLen ≤ s.params.ibufSize ∧
      readBufBytes s .ibuf s.argOff s.argLen = [] ++ [s.params.flag] ∧ s.st.pos ≠ 2 ^ s.params.cw - 1) ∧
    (∃ s : State, s.Inv ∧ s.st.startValid = false ∧ s.argOff + s.argLen ≤ s.params.ibufSize ∧
      readBufBytes s .ibuf s.argOff s.argLen = [] ++ [s.params.flag] ∧ s.st.pos = 2 ^ s.params.cw - 1) :=
  ⟨⟨withBytes [0x00#8, 0x7D#8], withBytes_inv (by decide), by decide, by decide, by decide, by decide +kernel⟩,
    ⟨withBytes [0x7E#8], withBytes_inv (by decide), by decide, by decide, by decide +kernel, by decide⟩,
    ⟨withRecord [0x7E#8] fullSeeker, withRecord_inv (by decide) fullSeeker_fits, by decide, by decide, by decide +kernel, by decide⟩⟩

theorem witness_FlagBeforeFlagIsDiscarded : ∃ s : State, s.argOff + s.argLen ≤ s.params.ibufSize ∧
    readBufBytes s .ibuf s.argOff s.argLen = s.params.flag :: s.params.flag :: [0xFF#8] ∧ isNext (exec .decode s) = true ∧
    isNext (exec .decode { s with argOff := s.argOff + 1, argLen := s.argLen - 1 }) = true :=
  ⟨withBytes [0x7E#8, 0x7E#8, 0xFF#8], by decide, by decide +kernel, by decide +kernel, by decide +kernel⟩

/-- In-frame with a whole empty frame counted: `7E FF 10 06 E0` (95_test_vectors.md section 1.7). -/
def complete : DecState := { started with pos := 5, out := 2, crc := 0xF0B8#32 }

theorem witness_InFrameFlagEndsTheFrame :
    (∃ s : State, s.st.startValid = true ∧ s.argLen = 1 ∧ s.argOff + 1 ≤ s.params.ibufSize ∧
      readBuf s .ibuf s.argOff = s.params.flag ∧ s.st.pos = s.st.startPos + 1) ∧
    (∃ s : State, s.st.startValid = true ∧ s.argLen = 1 ∧ s.argOff + 1 ≤ s.params.ibufSize ∧
      readBuf s .ibuf s.argOff = s.params.flag ∧ s.st.pos ≠ s.st.startPos + 1 ∧
      s.st.pos ≥ s.st.startPos + 3 + s.params.fcsLen ∧ s.st.out ≥ s.params.fcsLen ∧ s.st.crc = crcGood s.params) ∧
    (∃ s : State, s.st.startValid = true ∧ s.argLen = 1 ∧ s.argOff + 1 ≤ s.params.ibufSize ∧
      readBuf s .ibuf s.argOff = s.params.flag ∧ s.st.pos ≠ s.st.startPos + 1 ∧
      ¬ (s.st.pos ≥ s.st.startPos + 3 + s.params.fcsLen ∧ s.st.out ≥ s.params.fcsLen ∧ s.st.crc = crcGood s.params)) :=
  ⟨⟨withRecord [0x7E#8] started, by decide, by decide, by decide, by decide +kernel, by decide⟩,
    ⟨withRecord [0x7E#8] complete, by decide, by decide, by decide, by decide +kernel, by decide, by decide +kernel⟩,
    ⟨withRecord [0x7E#8] { complete with out := 1 }, by decide, by decide, by decide, by decide +kernel, by decide,
      by decide +kernel⟩⟩

theorem witness_InFrameEscIsCounted : ∃ s : State, s.st.startValid = true ∧ s.argLen = 1 ∧ s.argOff + 1 ≤ s.params.ibufSize ∧
    readBuf s .ibuf s.argOff = s.params.esc ∧ s.st.pos ≠ 2 ^ s.params.cw - 1 :=
  ⟨withRecord [0x7D#8] started, by decide, by decide, by decide, by decide +kernel, by decide⟩

theorem complete_fits : complete.Fits Params.vectors := ⟨by decide, by decide, by decide, by decide, by decide, by decide⟩

theorem witness_InFrameDataByteIsPlacedByPosition :
    (∃ s : State, s.Inv ∧ s.st.startValid = true ∧ s.argLen = 1 ∧ s.argOff + 1 ≤ s.params.ibufSize ∧
      readBuf s .ibuf s.argOff = 0x5E#8 ∧ 0x5E#8 ≠ s.params.flag ∧ 0x5E#8 ≠ s.params.esc ∧ s.st.pos ≠ 2 ^ s.params.cw - 1 ∧
      s.st.pos < s.st.startPos + 2) ∧
    (∃ s : State, s.Inv ∧ s.st.startValid = true ∧ s.argLen = 1 ∧ s.argOff + 1 ≤ s.params.ibufSize ∧
      readBuf s .ibuf s.argOff = 0x5E#8 ∧ 0x5E#8 ≠ s.params.flag ∧ 0x5E#8 ≠ s.params.esc ∧ s.st.pos ≠ 2 ^ s.params.cw - 1 ∧
      s.st.esc = true ∧ s.st.pos = s.st.startPos + 2) ∧
    (∃ s : State, s.Inv ∧ s.st.startValid = true ∧ s.argLen = 1 ∧ s.argOff + 1 ≤ s.params.ibufSize ∧
      readBuf s .ibuf s.argOff = 0x5E#8 ∧ 0x5E#8 ≠ s.params.flag ∧ 0x5E#8 ≠ s.params.esc ∧ s.st.pos ≠ 2 ^ s.params.cw - 1 ∧
      s.st.pos > s.st.startPos + 2 ∧ s.st.out < s.params.dbufSize) :=
  ⟨⟨withRecord [0x5E#8] started, withRecord_inv (by decide) started_fits, by decide, by decide, by decide, by decide +kernel,
      by decide, by decide, by decide, by decide⟩,
    ⟨withRecord [0x5E#8] { started with pos := 2, esc := true },
      withRecord_inv (by decide) ⟨by decide, by decide, by decide, by decide, by decide, by decide⟩, by decide, by decide, by decide,
      by decide +kernel, by decide, by decide, by decide, by decide, by decide⟩,
    ⟨withRecord [0x5E#8] complete, withRecord_inv (by decide) complete_fits, by decide, by decide, by decide, by decide +kernel,
      by decide, by decide, by decide, by decide, by decide⟩⟩

theorem witness_FullCounterOrBufferAbandonsTheFrame :
    (∃ s : State, s.st.startValid = true ∧ s.argLen = 1 ∧ s.argOff + 1 ≤ s.params.ibufSize ∧
      readBuf s .ibuf s.argOff = 0x7D#8 ∧ 0x7D#8 ≠ s.params.flag ∧ s.st.pos = 2 ^ s.params.cw - 1) ∧
    (∃ s : State, s.st.startValid = true ∧ s.argLen = 1 ∧ s.argOff + 1 ≤ s.params.ibufSize ∧
      readBuf s .ibuf s.argOff = 0x01#8 ∧ 0x01#8 ≠ s.params.flag ∧ 0x01#8 ≠ s.params.esc ∧ s.st.pos > s.st.startPos + 2 ∧
      s.st.out ≥ s.params.dbufSize) :=
  ⟨⟨withRecord [0x7D#8] { started with pos := 0xFFFF }, by decide, by decide, by decide, by decide +kernel, by decide, by decide⟩,
    ⟨withRecord [0x01#8] { started with pos := 3, out := 256 }, by decide, by decide, by decide, by decide +kernel, by decide,
      by decide, by decide, by decide⟩⟩

theorem witness_DecodeGoesOnAcrossACut : (withBytes frame3).Inv ∧ (withBytes frame3).argLen = 4 + 4 ∧
    ¬ (readBuf (withBytes frame3) .ibuf 3 = 0x7E#8 ∧ readBuf (withBytes frame3) .ibuf 4 = 0x7E#8) ∧
    isNext (exec .decode { withBytes frame3 with argLen := 4 }) = true ∧
    (nextOr (exec .decode { withBytes frame3 with argLen := 4 })).status = .noCompleteFrame ∧
    (withBytes frame3).argLen = 8 + 0 ∧ (nextOr (exec .decode { withBytes frame3 with argLen := 8 })).status ≠ .noCompleteFrame :=
  ⟨withBytes_inv (by decide), by decide, by decide +kernel, by decide +kernel, by decide +kernel, by decide, by decide +kernel⟩

theorem witness_DecodeDependsOnlyOnItsOperands : ∃ s s' : State, s.Inv ∧ s'.Inv ∧ s ≠ s' ∧ s'.params = s.params ∧
    s'.argOff = s.argOff ∧ s'.argLen = s.argLen ∧ s'.st = s.st ∧ s'.ctlOut = s.ctlOut ∧
    readBufBytes s' .ibuf s.argOff s.argLen = readBufBytes s .ibuf s.argOff s.argLen ∧
    isNext (exec .decode s) = true ∧ isNext (exec .decode s') = true :=
  ⟨withBytes frame3, withFn (withBytes frame3) (.control 0#8), withBytes_inv (by decide), withFn_inv (withBytes_inv (by decide)) _,
    by decide +kernel, rfl, rfl, rfl, rfl, rfl, rfl, by decide +kernel, by decide +kernel⟩

theorem witness_EncodeDoesNotDisturbDecode : (withBytes frame3).Inv ∧
    isNext (exec (.encodeData 0#3) (withBytes frame3)) = true ∧
    isNext (exec .decode { withBytes frame3 with argOff := 0, argLen := 4 }) = true ∧
    isNext (exec .decode { nextOr (exec (.encodeData 0#3) (withBytes frame3)) with argOff := 0, argLen := 4 }) = true :=
  ⟨withBytes_inv (by decide), by decide +kernel, by decide +kernel, by decide +kernel⟩

/-- The first DECODE consumes nothing of its one byte; the second chunk is that byte, or longer than what was left. -/
theorem witness_TwoDecodesConsumeAByte : ∃ s : State, s.Inv ∧ 1 ≤ s.argLen ∧ s.argOff + s.argLen ≤ s.params.ibufSize ∧
    isNext (exec .decode s) = true ∧ (nextOr (exec .decode s)).resCount = 0 ∧ s.argOff + 0 + 5 ≤ s.params.ibufSize ∧
    ∀ n ∈ [1, 5], isNext (exec .decode { nextOr (exec .decode s) with argOff := s.argOff + 0, argLen := n }) = true :=
  ⟨withRecord [0x7E#8] complete, withRecord_inv (by decide) complete_fits, by decide, by decide, by decide +kernel, by decide +kernel,
    by decide, by decide +kernel⟩

theorem witness_DecodeOfAnEncodedFrame : ∃ s d : State, s.Inv ∧ d.Inv ∧ isNext (exec (.encodeData 3#3) s) = true ∧
    (nextOr (exec (.encodeData 3#3) s)).status = .ok ∧ d.params = s.params ∧ d.st = initState d.params ∧
    d.argLen = (nextOr (exec (.encodeData 3#3) s)).resCount ∧ d.argOff + d.argLen ≤ d.params.ibufSize ∧
    BufHolds d .ibuf d.argOff (readBufBytes (nextOr (exec (.encodeData 3#3) s)) .ebuf 0 (nextOr (exec (.encodeData 3#3) s)).resCount) ∧
    CrcLawAt s.params (frameContents .data 3#3 (readBufBytes s .ibuf s.argOff s.argLen)) ∧
    (readBufBytes s .ibuf s.argOff s.argLen).length + s.params.fcsLen ≤ s.params.dbufSize :=
  ⟨withBytes [0x7E#8], withBytes frame3, withBytes_inv (by decide), withBytes_inv (by decide), by decide +kernel, by decide +kernel,
    rfl, rfl, by decide +kernel, by decide, show _ = _ by decide +kernel, show _ = _ by decide +kernel, by decide⟩

/-- Two empty Data frames with one FLAG between them. -/
def twoFrames : List Byte := [0x7E#8, 0xFF#8, 0x10#8, 0x06#8, 0xE0#8, 0x7E#8, 0xFF#8, 0x10#8, 0x06#8, 0xE0#8, 0x7E#8]

theorem witness_BackToBackFramesAllDecode : ∃ (s : State) (frames : List (Kind × BitVec 3 × List Byte)), s.Inv ∧
    s.st = initState s.params ∧ s.host = [.feed 0 11] ∧ 0 + 11 ≤ s.params.ibufSize ∧ frames.length = 2 ∧
    BufHolds s .ibuf 0 (s.params.flag :: frames.flatMap fun f => (wireFrame s.params f.1 f.2.1 f.2.2).tail) ∧
    11 = (s.params.flag :: frames.flatMap fun f => (wireFrame s.params f.1 f.2.1 f.2.2).tail).length ∧
    ∀ f ∈ frames, CrcLawAt s.params (frameContents f.1 f.2.1 f.2.2) ∧ f.2.2.length + s.params.fcsLen ≤ s.params.dbufSize := by
  refine ⟨withHost (withBytes twoFrames) [.feed 0 11], [(.data, 0#3, []), (.data, 0#3, [])],
    withHost_inv (withBytes_inv (by decide)) _, rfl, rfl, by decide, rfl, ?_, ?_, ?_⟩
  · exact show _ = _ by decide +kernel
  · decide +kernel
  · intro f hf
    have : f = (.data, 0#3, []) := by simpa using hf
    subst this
    exact ⟨show _ = _ by decide +kernel, by decide⟩

/-- A cut inside a frame, and a cut between two FLAGs. -/
theorem witness_ChunkingDoesNotChangeTheOutcomes : (∃ s : State, s.Inv ∧ s.SeekClean ∧ 0 + 5 + 6 ≤ s.params.ibufSize) ∧
    ∃ s : State, s.Inv ∧ s.SeekClean ∧ 0 + 6 + 6 ≤ s.params.ibufSize ∧
      readBuf s .ibuf (0 + 6 - 1) = s.params.flag ∧ readBuf s .ibuf (0 + 6) = s.params.flag :=
  ⟨⟨withBytes twoFrames, withBytes_inv (by decide), fun _ => rfl, by decide⟩,
    withBytes (twoFrames.take 6 ++ twoFrames.drop 5), withBytes_inv (by decide), fun _ => rfl, by decide, by decide +kernel,
    by decide +kernel⟩

theorem witness_DoubledFlagsCollapse : ∃ s : State, s.Inv ∧ s.SeekClean ∧
    BufHolds s .ibuf 0 ([0x00#8] ++ [s.params.flag] ++ [0xFF#8]) ∧ 0 + (1 + 1 + 1) ≤ s.params.ibufSize ∧
    BufHolds s .ibuf 3 ([0x00#8] ++ [s.params.flag, s.params.flag] ++ [0xFF#8]) ∧ 3 + (1 + 2 + 1) ≤ s.params.ibufSize :=
  ⟨withBytes [0x00#8, 0x7E#8, 0xFF#8, 0x00#8, 0x7E#8, 0x7E#8, 0xFF#8], withBytes_inv (by decide), fun _ => rfl,
    show _ = _ by decide +kernel, by decide, show _ = _ by decide +kernel, by decide⟩

theorem witness_FeedEndsWithinItsBound : ∃ s : State, s.Inv ∧ 0 < 2 ^ s.params.cw ∧ 11 < 2 ^ s.params.cw ∧
    s.host = [.feed 0 11] :=
  ⟨withHost (withBytes twoFrames) [.feed 0 11], withHost_inv (withBytes_inv (by decide)) _, by decide, by decide, rfl⟩

theorem witness_InstancesAreIndependent : ∃ a b c : Platform, (0 : Nat) ≠ 1 ∧ a.stepCore 0 = .next b ∧ b.stepCore 1 = .next c ∧
    a.nInst = 2 ∧ a.ok = true := ⟨Platform.reset 2, Platform.reset 2, Platform.reset 2, by decide, rfl, rfl, rfl, rfl⟩

/-- R11's bound is met by one instance and not by none. -/
theorem test_n_inst_is_at_least_one : (Platform.reset 0).ok = false ∧ (Platform.reset 1).ok = true := by decide

end Sys2Proof.Tests
end

section
/-! PROOFS. Reset: the values of the registers (R39). -/

namespace Sys2Proof.Machine

/-- R34: the image of `INIT_STATE` has no flag set, every position and the cursor at 0, and `CRC_INIT`. -/
theorem imageOf_initState (p : Params) : imageOf (initState p) =
    { flags := 0#3, startPos := 0, endPos := 0, pos := 0, out := 0, crc := crcInit p } := by
  have hflags : packFlags false false false = 0#3 := by decide
  simp only [imageOf, initState, hflags]

/-- Settles O13: each register is a field of `State.reset` as written there, and the bank is the image of `INIT_STATE`. -/
theorem resetRegistersHoldTheirValues : Obligations.ResetRegistersHoldTheirValues :=
  have hbank : State.reset.bank = imageOf (initState State.reset.params) := rfl
  ⟨rfl, rfl, rfl, rfl, rfl, rfl, rfl, hbank.trans (imageOf_initState _)⟩

end Sys2Proof.Machine
end

section
/-! PROOFS. The host bus: reserved offsets read 0 and ignore writes (R46). -/

namespace Sys2Proof.Machine

/-- A byte access touches some buffer exactly when its offset is one of that buffer's bytes (R44). -/
theorem touchesBuffers_one {p : Params} {a : Nat} :
    touchesBuffers p a 1 = true ↔ ∃ b, bufBase b ≤ a ∧ a < bufBase b + bufSize p b := by
  simp only [touchesBuffers, Bool.or_eq_true, touchesBuf_one]
  constructor
  · rintro ((h | h) | h)
    · exact ⟨.ibuf, h⟩
    · exact ⟨.dbuf, h⟩
    · exact ⟨.ebuf, h⟩
  · rintro ⟨b, h⟩
    cases b with
    | ibuf => exact .inl (.inl h)
    | dbuf => exact .inl (.inr h)
    | ebuf => exact .inr h

/-- The offsets of R45's map, one per register. -/
theorem regOffset_mem (r : Reg) : (regOffset r).toNat ∈
    [0x00, 0x04, 0x08, 0x0C, 0x10, 0x14, 0x18, 0x20, 0x24, 0x28, 0x2C, 0x30, 0x34] := by
  cases r <;> decide

theorem regAt_eq_none {off : BitVec 18} (h : ∀ r, off ≠ regOffset r) : regAt off = none :=
  Option.eq_none_iff_forall_ne_some.2 fun r hr => h r (regAt_some hr)

/-- An aligned word access in the register window that is at no register's offset is reserved (R46). -/
theorem target_word_reserved {off : BitVec 18} (p : Params) (hlt : off.toNat < 0x100) (halign : off.toNat % 4 = 0)
    (hr : ∀ r, off ≠ regOffset r) : target p off .word = .ok .reserved := by
  have hin : ¬ 0x40000 < off.toNat + widthBytes .word := by simp only [widthBytes]; omega
  unfold target
  rw [if_neg hin, if_pos hlt, if_neg (by simp), if_neg (by omega), regAt_eq_none hr]

/-- A byte access past the register window that is in no buffer is reserved (R46). -/
theorem target_byte_reserved {p : Params} {off : BitVec 18} (hge : 0x100 ≤ off.toNat)
    (hbuf : ∀ b, ¬ (bufBase b ≤ off.toNat ∧ off.toNat < bufBase b + bufSize p b)) :
    target p off .byte = .ok .reserved := by
  have hin : ¬ 0x40000 < off.toNat + widthBytes .byte := by have := off.isLt; simp only [widthBytes]; omega
  have hout : ¬ touchesBuffers p off.toNat (widthBytes .byte) = true := fun h =>
    have ⟨b, hb⟩ := touchesBuffers_one.1 h
    hbuf b hb
  unfold target
  rw [if_neg hin, if_neg (Nat.not_lt.2 hge), if_neg hout]

/-- A read that reaches nothing answers 0, in the host's record alone (R46, R50). -/
theorem step_read_reserved {s : State} {off : BitVec 18} {width : Width} {rest : List HostEvent}
    (hhost : s.host = .read off width :: rest) (ht : target s.params off width = .ok .reserved) :
    step s = .next (observe (withHost s rest) 0#32) := by
  simp [step, nextAction, hhost, eventAction, hostRead, ht]

/-- A write that reaches nothing changes nothing (R46). -/
theorem step_write_reserved {s : State} {off : BitVec 18} {width : Width} {v : Word} {rest : List HostEvent}
    (hhost : s.host = .write off width v :: rest) (ht : target s.params off width = .ok .reserved) :
    step s = .next (withHost s rest) := by
  simp [step, nextAction, hhost, eventAction, hostWrite, ht]

/-- Settles O10: on either side of the end of the register window the access is reserved, and a step at a reserved offset
answers 0 to a read and drops a write. -/
theorem reservedOffsetsReadZero : Obligations.ReservedOffsetsReadZero := by
  intro s off v rest width hword hbyte hbuf
  have ht : target s.params off width = .ok .reserved := by
    rcases Nat.lt_or_ge off.toNat 0x100 with hlt | hge
    · obtain ⟨rfl, halign, hoff⟩ := hword hlt
      exact target_word_reserved _ hlt halign fun r hr => hoff (hr ▸ regOffset_mem r)
    · obtain rfl := hbyte hge
      exact target_byte_reserved hge hbuf
  exact ⟨fun h => step_read_reserved h ht, fun h => step_write_reserved h ht⟩

end Sys2Proof.Machine
end

section
/-! PROOFS. The command words: what each opcode decodes to, and the illegal ones (R66, R68). -/

namespace Sys2Proof

/-- The bits above the opcode are the five of `KIND` and `SEQ` and the reserved ones above them (R66). -/
theorem cmdRest_eq_zero_iff {w : Word} : cmdRest w = 0#29 ↔ cmdHigh w = 0#24 ∧ w.extractLsb' 3 5 = 0#5 := by
  simp only [cmdRest, cmdHigh, ← BitVec.toNat_inj, BitVec.extractLsb'_toNat, Nat.shiftRight_eq_div_pow, BitVec.toNat_ofNat]
  omega

variable {w : Word}

/-! ### The decoder, by opcode -/

theorem decodeCmd_op0 (h : cmdOp w = 0#3) :
    decodeCmd w = if cmdRest w = 0#29 then .resetState else .illegalHighBits w := by simp [decodeCmd, h]

theorem decodeCmd_op2 (h : cmdOp w = 2#3) :
    decodeCmd w = if cmdRest w = 0#29 then .decode else .illegalHighBits w := by simp [decodeCmd, h]

theorem decodeCmd_op3 (h : cmdOp w = 3#3) :
    decodeCmd w = if cmdRest w = 0#29 then .getState else .illegalHighBits w := by simp [decodeCmd, h]

theorem decodeCmd_op4 (h : cmdOp w = 4#3) :
    decodeCmd w = if cmdRest w = 0#29 then .setState else .illegalHighBits w := by simp [decodeCmd, h]

theorem decodeCmd_op5 (h : cmdOp w = 5#3) : decodeCmd w = .reserved5 (cmdRest w) := by simp [decodeCmd, h]

theorem decodeCmd_op6 (h : cmdOp w = 6#3) : decodeCmd w = .reserved6 (cmdRest w) := by simp [decodeCmd, h]

theorem decodeCmd_op7 (h : cmdOp w = 7#3) : decodeCmd w = .reserved7 (cmdRest w) := by simp [decodeCmd, h]

theorem decodeCmd_op1_high (h : cmdOp w = 1#3) (hh : cmdHigh w ≠ 0#24) : decodeCmd w = .illegalHighBits w := by
  simp [decodeCmd, h, hh]

theorem decodeCmd_encodeData (h : cmdOp w = 1#3) (hh : cmdHigh w = 0#24) (hk : cmdKind w = 0#2) :
    decodeCmd w = .encodeData (cmdSeq w) := by simp [decodeCmd, h, hh, hk]

theorem decodeCmd_encodeAck (h : cmdOp w = 1#3) (hh : cmdHigh w = 0#24) (hk : cmdKind w = 1#2) :
    decodeCmd w = .encodeAck (cmdSeq w) := by simp [decodeCmd, h, hh, hk]

theorem decodeCmd_encodeNack (h : cmdOp w = 1#3) (hh : cmdHigh w = 0#24) (hk : cmdKind w = 2#2) :
    decodeCmd w = .encodeNack (cmdSeq w) := by simp [decodeCmd, h, hh, hk]

theorem decodeCmd_encodeKind3 (h : cmdOp w = 1#3) (hh : cmdHigh w = 0#24) (hk : cmdKind w = 3#2) :
    decodeCmd w = .encodeKind3 (cmdSeq w) := by simp [decodeCmd, h, hh, hk]

namespace Machine

/-! ### The illegal words, by opcode -/

/-- An opcode without operand fields: illegal is any bit set above the opcode (R68). -/
theorem illegalCommand_iff_of_no_operands (hop : cmdOp w ∈ [0#3, 2#3, 3#3, 4#3]) :
    illegalCommand w ↔ cmdRest w ≠ 0#29 := by
  have hne : cmdOp w ≠ 1#3 ∧ ¬ (cmdOp w = 5#3 ∨ cmdOp w = 6#3 ∨ cmdOp w = 7#3) := by
    generalize cmdOp w = op at hop ⊢
    revert op
    decide
  rw [Ne, cmdRest_eq_zero_iff, Decidable.not_and_iff_not_or_not]
  simp only [illegalCommand, hne, cmdHigh, ne_eq, not_false_eq_true, true_and, false_and, false_or, or_false]

/-- ENCODE: illegal is a bit set above `SEQ`, or kind code 3 (R68, R88). -/
theorem illegalCommand_iff_of_encode (hop : cmdOp w = 1#3) :
    illegalCommand w ↔ cmdHigh w ≠ 0#24 ∨ cmdKind w = 3#2 := by
  simp [illegalCommand, hop, cmdHigh]

/-- A reserved opcode is illegal whatever stands above it (R68, R130). -/
theorem illegalCommand_of_reserved (hop : cmdOp w = 5#3 ∨ cmdOp w = 6#3 ∨ cmdOp w = 7#3) : illegalCommand w := .inl hop

/-! ### The rows that are turned away -/

/-- The command rows that are turned away in every state (R68, R88, R130). -/
def isTurnedAwayRow : Instr → Bool
  | .encodeKind3 _ | .reserved5 _ | .reserved6 _ | .reserved7 _ | .illegalHighBits _ => true
  | .resetState | .encodeData _ | .encodeAck _ | .encodeNack _ | .decode | .getState | .setState
  | .crcStep _ _ | .escEncodeOne _ | .escDecodeOne _ _ | .ctlEncode _ _ | .ctlDecode _
  | .ctlI _ _ _ | .ctlSRr _ _ | .ctlSRnr _ _ | .ctlSRej _ _ | .ctlSSrej _ _ | .ctlU _ _ => false

theorem exec_of_isTurnedAwayRow {i : Instr} (h : isTurnedAwayRow i = true) (s : State) : exec i s = .next (refuse s) := by
  cases i with
  | encodeKind3 _ | reserved5 _ | reserved6 _ | reserved7 _ | illegalHighBits _ => rfl
  | _ => cases h

theorem turnedAway_refuse (s : State) : TurnedAway s (refuse s) := by simp [TurnedAway, SameButResults]

/-- An opcode without operand fields is turned away exactly for its illegal words. -/
theorem isTurnedAwayRow_iff_of_no_operands {i : Instr} (hop : cmdOp w ∈ [0#3, 2#3, 3#3, 4#3])
    (hw : decodeCmd w = if cmdRest w = 0#29 then i else .illegalHighBits w) (hi : isTurnedAwayRow i = false) :
    isTurnedAwayRow (decodeCmd w) = true ↔ illegalCommand w := by
  rw [illegalCommand_iff_of_no_operands hop, hw]
  by_cases h : cmdRest w = 0#29
  · simp [h, hi]
  · simp [h, isTurnedAwayRow]

/-- ENCODE is turned away exactly for its illegal words. -/
theorem isTurnedAwayRow_iff_of_encode (hop : cmdOp w = 1#3) :
    isTurnedAwayRow (decodeCmd w) = true ↔ illegalCommand w := by
  rw [illegalCommand_iff_of_encode hop]
  by_cases hh : cmdHigh w = 0#24
  · obtain hk | hk | hk | hk := cmdKind_cases w
    · simp [decodeCmd_encodeData hop hh hk, isTurnedAwayRow, hh, hk]
    · simp [decodeCmd_encodeAck hop hh hk, isTurnedAwayRow, hh, hk]
    · simp [decodeCmd_encodeNack hop hh hk, isTurnedAwayRow, hh, hk]
    · simp [decodeCmd_encodeKind3 hop hh hk, isTurnedAwayRow, hk]
  · simp [decodeCmd_op1_high hop hh, isTurnedAwayRow, hh]

/-- A written word is turned away by its row exactly when R68 lists it. -/
theorem isTurnedAwayRow_decodeCmd (w : Word) : isTurnedAwayRow (decodeCmd w) = true ↔ illegalCommand w := by
  obtain h | h | h | h | h | h | h | h := cmdOp_cases w
  · exact isTurnedAwayRow_iff_of_no_operands (by simp [h]) (decodeCmd_op0 h) rfl
  · exact isTurnedAwayRow_iff_of_encode h
  · exact isTurnedAwayRow_iff_of_no_operands (by simp [h]) (decodeCmd_op2 h) rfl
  · exact isTurnedAwayRow_iff_of_no_operands (by simp [h]) (decodeCmd_op3 h) rfl
  · exact isTurnedAwayRow_iff_of_no_operands (by simp [h]) (decodeCmd_op4 h) rfl
  · exact iff_of_true (by rw [decodeCmd_op5 h]; rfl) (illegalCommand_of_reserved (.inl h))
  · exact iff_of_true (by rw [decodeCmd_op6 h]; rfl) (illegalCommand_of_reserved (.inr (.inl h)))
  · exact iff_of_true (by rw [decodeCmd_op7 h]; rfl) (illegalCommand_of_reserved (.inr (.inr h)))

/-- Every written word is a command row: no word reaches an internal function or a control byte class (R66, R68). -/
theorem isCommand_decodeCmd (w : Word) : isCommand (decodeCmd w) = true := by
  unfold decodeCmd
  repeat' split
  all_goals rfl

/-- The command rows that are not always turned away are the five commands (R66). -/
theorem command_cases {i : Instr} (hc : isCommand i = true) (hi : ¬ isTurnedAwayRow i = true) :
    i = .resetState ∨ i = .decode ∨ i = .getState ∨ i = .setState ∨
      ∃ seq, i = .encodeData seq ∨ i = .encodeAck seq ∨ i = .encodeNack seq := by
  cases i with
  | resetState | decode | getState | setState => simp
  | encodeData seq | encodeAck seq | encodeNack seq => simp
  | encodeKind3 _ | reserved5 _ | reserved6 _ | reserved7 _ | illegalHighBits _ => exact absurd rfl hi
  | _ => cases hc

/-- Settles O5: a word decodes to a row that is turned away exactly when it is illegal, and the command rows that are left
are the five commands. -/
theorem illegalWordsAreTurnedAway : Obligations.IllegalWordsAreTurnedAway := by
  refine fun w s => ⟨fun h => ⟨refuse s, ?_, turnedAway_refuse s⟩, fun h => ?_⟩
  · exact exec_of_isTurnedAwayRow ((isTurnedAwayRow_decodeCmd w).2 h) s
  · exact command_cases (isCommand_decodeCmd w) (mt (isTurnedAwayRow_decodeCmd w).1 h)

end Machine
end Sys2Proof
end

section
/-! PROOFS. The wire frame: what the encoder builds, and how long it is (R57, R60, R89). -/

namespace Sys2Proof.Machine

/-- A byte the escape codec turns into two (R81). -/
def isReserved (p : Params) (b : Byte) : Bool := b = p.flag ∨ b = p.esc

theorem isReserved_iff {p : Params} {b : Byte} : isReserved p b = true ↔ b = p.flag ∨ b = p.esc := decide_eq_true_iff

theorem not_isReserved_iff {p : Params} {b : Byte} : ¬ isReserved p b = true ↔ b ≠ p.flag ∧ b ≠ p.esc := by
  rw [isReserved_iff, not_or]

/-- Escaping adds one byte for each reserved byte (R60). -/
theorem length_escEncode (p : Params) (s : List Byte) :
    (escEncode p s).length = s.length + s.countP (isReserved p) := by
  induction s with
  | nil => rfl
  | cons b s ih =>
    rw [escEncode_cons, List.length_append, length_escEncodeOne, ih, List.countP_cons, List.length_cons]
    simp only [isReserved_iff]
    split <;> omega

/-- The six steps of `FRAME_BYTES` build the wire frame of R57 (R89). -/
theorem frameBytes_eq_wireFrame (p : Params) (kind : Kind) (seq : BitVec 3) (payload : List Byte) :
    frameBytes p kind seq payload = wireFrame p kind seq payload := by
  have hbody : frameBody p kind seq payload = ⟨crcFold p (crcInit p) (frameContents kind seq payload),
      [p.flag] ++ escEncode p (frameContents kind seq payload)⟩ := by
    rw [frameBody, ← List.foldl_append, foldl_foldAndEmit]
    rfl
  rw [frameBytes, frameEnd, hbody, foldl_emitOnly, wireFrame, escEncode_append]
  simp only [fcsBytes, List.append_assoc]

/-- Only the payload and the FCS bytes can add to a frame's length: the address and the control byte are no reserved bytes
(R60, R63). -/
theorem length_frameBytes (p : Params) (kind : Kind) (seq : BitVec 3) (payload : List Byte) :
    (frameBytes p kind seq payload).length = payload.length + p.fcsLen + 4 +
      (payload ++ fcsBytes p (frameContents kind seq payload)).countP (isReserved p) := by
  have hesc : escEncode p (frameContents kind seq payload ++ fcsBytes p (frameContents kind seq payload)) =
      addressByte :: ctlEncode kind seq :: escEncode p (payload ++ fcsBytes p (frameContents kind seq payload)) := by
    simp only [frameContents, List.cons_append, escEncode_cons, escEncodeOne_address, escEncodeOne_ctlEncode, List.nil_append]
  rw [frameBytes_eq_wireFrame, wireFrame, hesc]
  simp only [List.length_append, List.length_cons, List.length_nil, length_escEncode, length_fcsBytes]
  omega

/-- Settles O40: the length is `L + W + 4` and one more for each reserved byte among the `L + W` of the payload and the FCS. -/
theorem frameLengthBounds : Obligations.FrameLengthBounds := by
  rintro p kind seq payload _ _ - rfl rfl
  have hlen := length_frameBytes p kind seq payload
  have hescapable : (payload ++ fcsBytes p (frameContents kind seq payload)).length = payload.length + p.fcsLen := by simp
  generalize payload ++ fcsBytes p (frameContents kind seq payload) = escapable at hlen hescapable ⊢
  have hle : escapable.countP (isReserved p) ≤ escapable.length := List.countP_le_length
  refine ⟨by omega, by omega, fun hnone => ?_, fun hall => ?_, escEncodeOne_address p, escEncodeOne_ctlEncode p kind seq⟩
  · have : escapable.countP (isReserved p) = 0 := List.countP_eq_zero.2 fun b hb => not_isReserved_iff.2 (hnone b hb)
    omega
  · have : escapable.countP (isReserved p) = escapable.length := List.countP_eq_length.2 fun b hb => isReserved_iff.2 (hall b hb)
    omega

end Sys2Proof.Machine
end

section
/-! PROOFS. The default checksums (R78, R79): a round is linear over XOR and shifts out a clear low bit, so a step splits into
the operand's upper bits, shifted, and one table entry. -/

namespace Sys2Proof

/-- One round of R78's loop. -/
def crcRound {n : Nat} (poly : BitVec n) (c : BitVec n) : BitVec n :=
  if c.getLsbD 0 = true then (c >>> 1) ^^^ poly else c >>> 1

section
variable {n : Nat} (poly : BitVec n)

/-! ### Rounds -/

theorem crcRounds_zero (c : BitVec n) : crcRounds poly 0 c = c := rfl

theorem crcRounds_succ (k : Nat) (c : BitVec n) : crcRounds poly (k + 1) c = crcRounds poly k (crcRound poly c) := rfl

theorem crcRounds_eq_iterate (k : Nat) (c : BitVec n) : crcRounds poly k c = (crcRound poly)^[k] c := by
  induction k generalizing c with
  | zero => rfl
  | succ k ih => rw [crcRounds_succ, ih, Function.iterate_succ_apply]

theorem crcRound_of_lsb_clear {c : BitVec n} (h : c.getLsbD 0 = false) : crcRound poly c = c >>> 1 := by
  simp [crcRound, h]

theorem crcRound_of_lsb_set {c : BitVec n} (h : c.getLsbD 0 = true) : crcRound poly c = (c >>> 1) ^^^ poly := by
  simp [crcRound, h]

/-- A round is linear: the low bits of the operands say how often `poly` is added, and twice is not at all. -/
theorem crcRound_xor (a b : BitVec n) : crcRound poly (a ^^^ b) = crcRound poly a ^^^ crcRound poly b := by
  have hlsb : (a ^^^ b).getLsbD 0 = (a.getLsbD 0 ^^ b.getLsbD 0) := BitVec.getLsbD_xor
  cases ha : a.getLsbD 0 <;> cases hb : b.getLsbD 0 <;> rw [ha, hb] at hlsb
  · rw [crcRound_of_lsb_clear poly hlsb, crcRound_of_lsb_clear poly ha, crcRound_of_lsb_clear poly hb,
      BitVec.ushiftRight_xor_distrib]
  · rw [crcRound_of_lsb_set poly hlsb, crcRound_of_lsb_clear poly ha, crcRound_of_lsb_set poly hb,
      BitVec.ushiftRight_xor_distrib, BitVec.xor_assoc]
  · rw [crcRound_of_lsb_set poly hlsb, crcRound_of_lsb_set poly ha, crcRound_of_lsb_clear poly hb,
      BitVec.ushiftRight_xor_distrib, BitVec.xor_assoc, BitVec.xor_assoc, BitVec.xor_comm poly]
  · rw [crcRound_of_lsb_clear poly hlsb, crcRound_of_lsb_set poly ha, crcRound_of_lsb_set poly hb,
      BitVec.ushiftRight_xor_distrib, BitVec.xor_assoc, BitVec.xor_comm _ poly, ← BitVec.xor_assoc poly, BitVec.xor_self,
      BitVec.zero_xor]

theorem crcRounds_xor (k : Nat) (a b : BitVec n) :
    crcRounds poly k (a ^^^ b) = crcRounds poly k a ^^^ crcRounds poly k b := by
  induction k generalizing a b with
  | zero => rfl
  | succ k ih => simp only [crcRounds_succ, crcRound_xor, ih]

/-- Rounds that meet only clear bits never add `poly`. -/
theorem crcRounds_of_low_clear (k : Nat) (c : BitVec n) (h : ∀ i < k, c.getLsbD i = false) :
    crcRounds poly k c = c >>> k := by
  induction k generalizing c with
  | zero => rw [crcRounds_zero, BitVec.ushiftRight_zero]
  | succ k ih =>
    have hlow : ∀ i < k, (c >>> 1).getLsbD i = false := fun i hi => by
      rw [BitVec.getLsbD_ushiftRight]
      exact h (1 + i) (by omega)
    rw [crcRounds_succ, crcRound_of_lsb_clear poly (h 0 (by omega)), ih _ hlow, ← BitVec.shiftRight_add, Nat.add_comm]

/-! ### The byte-table form -/

theorem fcsStep_eq_iterate (c : BitVec n) (b : Byte) :
    fcsStep poly c b = (crcRound poly)^[8] (c ^^^ b.setWidth n) := crcRounds_eq_iterate poly 8 _

theorem getLsbD_low_byte_mask (i : Nat) : (0xFF#n).getLsbD i = (decide (i < n) && decide (i < 8)) := by
  rw [BitVec.getLsbD_ofNat, show (0xFF : Nat) = 2 ^ 8 - 1 from rfl, Nat.testBit_two_pow_sub_one]

theorem low_byte_cancel (y : BitVec n) {i : Nat} (hi : i < 8) : (y ^^^ (y &&& 0xFF#n)).getLsbD i = false := by
  rw [BitVec.getLsbD_xor, BitVec.getLsbD_and, getLsbD_low_byte_mask]
  cases hy : y.getLsbD i
  · rfl
  · simp [hi, BitVec.lt_of_getLsbD hy]

theorem shift_out_low_byte (c : BitVec n) (b : Byte) :
    ((c ^^^ b.setWidth n) ^^^ ((c ^^^ b.setWidth n) &&& 0xFF#n)) >>> 8 = c >>> 8 := by
  apply BitVec.eq_of_getLsbD_eq
  intro i hi
  simp [getLsbD_low_byte_mask]

/-- R78's byte-table form, at any width: split the operand into its low byte and the bits above it. -/
theorem fcsStep_eq_table (c : BitVec n) (b : Byte) :
    fcsStep poly c b = (c >>> 8) ^^^ fcsStep poly ((c ^^^ b.setWidth n) &&& 0xFF#n) 0#8 := by
  have hupper := shift_out_low_byte c b
  generalize hy : c ^^^ b.setWidth n = y at hupper ⊢
  have hsplit : y = (y ^^^ (y &&& 0xFF#n)) ^^^ (y &&& 0xFF#n) := by simp
  calc fcsStep poly c b
      = crcRounds poly 8 y := by rw [fcsStep, hy]
    _ = crcRounds poly 8 (y ^^^ (y &&& 0xFF#n)) ^^^ crcRounds poly 8 (y &&& 0xFF#n) := by rw [← crcRounds_xor, ← hsplit]
    _ = (c >>> 8) ^^^ crcRounds poly 8 (y &&& 0xFF#n) := by
      rw [crcRounds_of_low_clear poly 8 _ fun _ => low_byte_cancel y, hupper]
    _ = (c >>> 8) ^^^ fcsStep poly (y &&& 0xFF#n) 0#8 := by simp [fcsStep]

end

/-! ### The default instances -/

section
variable {p : Params} (hcrc : p.crc = .standard)
include hcrc

theorem crcStep_standard16 (hw : p.crcWidth = .w16) (c : BitVec 16) (b : Byte) :
    crcStep p (c.setWidth 32) b = (fcsStep 0x8408#16 c b).setWidth 32 := by
  simp [crcStep, hcrc, hw]

theorem crcStep_standard32 (hw : p.crcWidth = .w32) (c : Word) (b : Byte) :
    crcStep p c b = fcsStep 0xEDB88320#32 c b := by
  simp [crcStep, hcrc, hw]

theorem crcFold_standard16 (hw : p.crcWidth = .w16) (c : BitVec 16) (s : List Byte) :
    crcFold p (c.setWidth 32) s = (s.foldl (fcsStep 0x8408#16) c).setWidth 32 := by
  induction s generalizing c with
  | nil => rfl
  | cons b s ih => rw [crcFold_cons, crcStep_standard16 hcrc hw, ih, List.foldl_cons]

theorem crcFold_standard32 (hw : p.crcWidth = .w32) (c : Word) (s : List Byte) :
    crcFold p c s = s.foldl (fcsStep 0xEDB88320#32) c := by
  rw [crcFold, funext₂ (crcStep_standard32 hcrc hw)]

theorem crcConstants_standard16 (hw : p.crcWidth = .w16) :
    crcInit p = 0xFFFF#32 ∧ crcGood p = 0xF0B8#32 ∧ crcInv p = 0xFFFF#32 := by
  simp [crcInit, crcGood, crcInv, hcrc, hw]

theorem crcConstants_standard32 (hw : p.crcWidth = .w32) :
    crcInit p = 0xFFFFFFFF#32 ∧ crcGood p = 0xDEBB20E3#32 ∧ crcInv p = 0xFFFFFFFF#32 := by
  simp [crcInit, crcGood, crcInv, hcrc, hw]

/-- R78's byte-table form in 32-bit words: a word below 2^16 is a 16-bit checksum, widened. -/
theorem crcStep_standard16_eq_table (hw : p.crcWidth = .w16) (c : Word) (b : Byte) (hc : c.toNat < 2 ^ 16) :
    crcStep p c b = (c >>> 8) ^^^ crcStep p ((c ^^^ b.setWidth 32) &&& 0xFF#32) 0#8 := by
  obtain ⟨x, rfl⟩ : ∃ x : BitVec 16, c = x.setWidth 32 :=
    ⟨c.setWidth 16, BitVec.eq_of_toNat_eq (by simp only [BitVec.toNat_setWidth]; omega)⟩
  have hindex : (x.setWidth 32 ^^^ b.setWidth 32) &&& 0xFF#32 = ((x ^^^ b.setWidth 16) &&& 0xFF#16).setWidth 32 := by
    simp [BitVec.setWidth_and, BitVec.setWidth_xor]
  rw [hindex, crcStep_standard16 hcrc hw, crcStep_standard16 hcrc hw, fcsStep_eq_table, BitVec.setWidth_xor,
    BitVec.setWidth_ushiftRight (by decide)]

end

/-- The check value's input, "123456789" in ASCII (R78, R79). -/
def checkString : List Byte := [0x31#8, 0x32#8, 0x33#8, 0x34#8, 0x35#8, 0x36#8, 0x37#8, 0x38#8, 0x39#8]

theorem fcsStep_check_value16 : checkString.foldl (fcsStep 0x8408#16) 0xFFFF#16 = 0x6F91#16 := by decide +kernel

theorem fcsStep_check_value32 : checkString.foldl (fcsStep 0xEDB88320#32) 0xFFFFFFFF#32 = 0x340BC6D9#32 := by decide +kernel

namespace Machine

/-- Settles O35: the constants by the width, the loop as an iterated round, the table form by the round's linearity, and the
check values by running the fold. -/
theorem standardChecksums : Obligations.StandardChecksums := by
  refine fun p hcrc => ⟨fun hw => ?_, fun hw => ?_⟩
  · obtain ⟨hinit, hgood, hinv⟩ := crcConstants_standard16 hcrc hw
    refine ⟨hinit, hgood, hinv, fun c b => ?_, crcStep_standard16_eq_table hcrc hw, ?_⟩
    · rw [crcStep_standard16 hcrc hw, fcsStep_eq_iterate]
      rfl
    · have hfold := crcFold_standard16 hcrc hw 0xFFFF#16 checkString
      rw [fcsStep_check_value16] at hfold
      exact congrArg (· ^^^ 0xFFFF#32) hfold
  · obtain ⟨hinit, hgood, hinv⟩ := crcConstants_standard32 hcrc hw
    refine ⟨hinit, hgood, hinv, fun c b => ?_, ?_⟩
    · rw [crcStep_standard32 hcrc hw, fcsStep_eq_iterate]
      rfl
    · have hfold := crcFold_standard32 hcrc hw 0xFFFFFFFF#32 checkString
      rw [fcsStep_check_value32] at hfold
      exact congrArg (· ^^^ 0xFFFFFFFF#32) hfold

end Machine
end Sys2Proof
end

section
/-! PROOFS. The escape codec: un-escaping undoes escaping byte by byte, and an escaped string holds no FLAG (R83). -/

namespace Sys2Proof

@[simp] theorem escDecode_nil (p : Params) (pending : Bool) : escDecode p [] pending = ([], pending) := rfl

/-- An ESC resolves to no byte and leaves an escape pending (R82). -/
theorem escDecode_esc_cons (p : Params) (t : List Byte) (pending : Bool) :
    escDecode p (p.esc :: t) pending = escDecode p t true := by
  simp [escDecode, escDecodeOne]

/-- Any other byte resolves, XOR 0x20 after an ESC, and leaves none pending (R82). -/
theorem escDecode_cons_of_ne_esc {p : Params} {b : Byte} (h : b ≠ p.esc) (t : List Byte) (pending : Bool) :
    escDecode p (b :: t) pending =
      ((if pending then b ^^^ 0x20#8 else b) :: (escDecode p t false).1, (escDecode p t false).2) := by
  cases pending <;> simp [escDecode, escDecodeOne, h]

/-- The escaped form of one byte resolves to that byte, whatever follows it. -/
theorem escDecode_escEncodeOne_append (p : Params) (b : Byte) (t : List Byte) :
    escDecode p (escEncodeOne p b ++ t) false = (b :: (escDecode p t false).1, (escDecode p t false).2) := by
  by_cases hb : b = p.flag ∨ b = p.esc
  · obtain ⟨-, hesc⟩ := escaped_not_reserved hb
    rw [escEncodeOne_reserved hb, List.cons_append, List.cons_append, List.nil_append, escDecode_esc_cons,
      escDecode_cons_of_ne_esc hesc, if_pos rfl, xor_20_twice]
  · obtain ⟨-, hesc⟩ := not_or.1 hb
    rw [escEncodeOne_plain hb, List.singleton_append, escDecode_cons_of_ne_esc hesc, if_neg Bool.false_ne_true]

theorem escDecode_escEncode (p : Params) (s : List Byte) : escDecode p (escEncode p s) false = (s, false) := by
  induction s with
  | nil => rfl
  | cons b s ih => rw [escEncode_cons, escDecode_escEncodeOne_append, ih]

theorem flag_not_mem_escEncodeOne (p : Params) (b : Byte) : p.flag ∉ escEncodeOne p b := by
  by_cases hb : b = p.flag ∨ b = p.esc
  · obtain ⟨hflag, -⟩ := escaped_not_reserved hb
    simp [escEncodeOne_reserved hb, flag_ne_esc, hflag.symm]
  · obtain ⟨hflag, -⟩ := not_or.1 hb
    simp [escEncodeOne_plain hb, Ne.symm hflag]

theorem flag_not_mem_escEncode (p : Params) (s : List Byte) : p.flag ∉ escEncode p s := by
  simp [escEncode, List.mem_flatMap, flag_not_mem_escEncodeOne]

namespace Machine

/-- Settles O34: by induction on the string, each byte's escaped form resolves to the byte and holds no FLAG. -/
theorem escapeCodecIsReversible : Obligations.EscapeCodecIsReversible :=
  fun p s => ⟨escDecode_escEncode p s, flag_not_mem_escEncode p s⟩

end Machine
end Sys2Proof
end

section
/-! PROOFS. The control codec: decoding undoes encoding, so encoding undoes decoding on the emitted bytes alone (R63, R86). -/

namespace Sys2Proof

@[simp] theorem ctlDecode_ctlEncode (kind : Kind) (seq : BitVec 3) : ctlDecode (ctlEncode kind seq) = ⟨kind, seq⟩ := by
  revert seq
  cases kind <;> decide

/-- The bytes the encoder emits, row by row as in R63's table: a kind, then its sequence numbers in order. -/
def emittedControlBytes : List Byte :=
  [Kind.data, .ack, .nack].flatMap fun kind => (List.finRange 8).map fun i => ctlEncode kind (.ofFin i)

theorem mem_emittedControlBytes {c : Byte} : c ∈ emittedControlBytes ↔ ∃ kind seq, ctlEncode kind seq = c := by
  simp only [emittedControlBytes, List.mem_flatMap, List.mem_map, List.mem_finRange, true_and]
  constructor
  · rintro ⟨kind, -, i, hc⟩
    exact ⟨kind, .ofFin i, hc⟩
  · rintro ⟨kind, seq, hc⟩
    exact ⟨kind, by cases kind <;> decide, seq.toFin, hc⟩

/-- Encoding undoes decoding on the range of the encoder: such a byte is an encoding, and an encoding decodes to its pair. -/
theorem ctlEncode_ctlDecode_eq_iff {c : Byte} :
    ctlEncode (ctlDecode c).kind (ctlDecode c).seq = c ↔ c ∈ emittedControlBytes := by
  rw [mem_emittedControlBytes]
  constructor
  · exact fun hc => ⟨_, _, hc⟩
  · rintro ⟨kind, seq, rfl⟩
    rw [ctlDecode_ctlEncode]

namespace Machine

/-- Settles O32: decoding undoes encoding for each kind, and the encoder's range evaluates to the list of R63. -/
theorem controlCodecRoundTrip : Obligations.ControlCodecRoundTrip :=
  ⟨ctlDecode_ctlEncode, fun _ => ctlEncode_ctlDecode_eq_iff⟩

end Machine
end Sys2Proof
end

section
/-! PROOFS. ENCODE: when it completes and when it is turned away, by the word, the byte range and the frame's length, and
what a completed one leaves in the buffers (R87, R88, R93, R94). -/

namespace Sys2Proof.Machine

variable {kind : Kind} {seq : BitVec 3} {s : State}

/-! ### ENCODE of a kind -/

/-- R94: with its range inside `IBUF` and a frame that `EBUF` can hold, ENCODE completes. -/
theorem encodeFrame_ok (hrange : rangeOk s = true)
    (hlen : (frameBytes s.params kind seq (payloadOf kind s)).length ≤ s.params.ebufSize) :
    encodeFrame kind seq s = .next (encoded kind seq s) := by
  simp [encodeFrame, hrange, hlen, encoded]

/-- R88, R93: with its range past `IBUF`, or else a frame that `EBUF` cannot hold, ENCODE is turned away. -/
theorem encodeFrame_refused (h : rangeOk s = true →
      s.params.ebufSize < (frameBytes s.params kind seq (payloadOf kind s)).length) :
    encodeFrame kind seq s = .next (refuse s) := by
  by_cases hrange : rangeOk s = true
  · simp [encodeFrame, hrange, Nat.not_le.2 (h hrange)]
  · simp [encodeFrame, hrange]

/-- The frame stands at the start of `EBUF` (R94). -/
theorem bufHolds_encoded (hwf : Memory.wf s.mem = true) :
    BufHolds (encoded kind seq s) .ebuf 0 (frameBytes s.params kind seq (payloadOf kind s)) :=
  Memory.readBytes_writeBytes hwf _ _

/-- Every byte outside the frame's place is the one before (R94, R95). -/
theorem read_encoded_outside (hwf : Memory.wf s.mem = true) {a : Nat} (ha : ¬ (bufBase .ebuf ≤ a ∧
      a < bufBase .ebuf + (frameBytes s.params kind seq (payloadOf kind s)).length)) :
    Memory.read (encoded kind seq s).mem a = Memory.read s.mem a :=
  (Memory.read_writeBytes hwf _ _ _).trans (dif_neg ha)

/-! ### ENCODE words -/

theorem kindCode_injective {k k' : Kind} (h : kindCode k = kindCode k') : k = k' := by
  revert h
  cases k <;> cases k' <;> decide

/-- A legal ENCODE word holds the code of a kind, and ENCODE of that kind runs (R66, R68). -/
theorem exec_legal_encode_word {w : Word} (hop : cmdOp w = 1#3) (hlegal : ¬ illegalCommand w) :
    ∃ kind, cmdKind w = kindCode kind ∧ ∀ s, exec (decodeCmd w) s = encodeFrame kind (cmdSeq w) s := by
  rw [illegalCommand_iff_of_encode hop, not_or, not_not] at hlegal
  obtain ⟨hhigh, hne⟩ := hlegal
  obtain hk | hk | hk | hk := cmdKind_cases w
  · exact ⟨.data, hk, fun s => by rw [decodeCmd_encodeData hop hhigh hk]; rfl⟩
  · exact ⟨.ack, hk, fun s => by rw [decodeCmd_encodeAck hop hhigh hk]; rfl⟩
  · exact ⟨.nack, hk, fun s => by rw [decodeCmd_encodeNack hop hhigh hk]; rfl⟩
  · exact absurd hk hne

/-- R91: the payload is the named input bytes for Data, and empty for the other kinds. -/
theorem payloadOf_eq_ite (kind : Kind) (s : State) :
    payloadOf kind s = if kind = .data then readBufBytes s .ibuf s.argOff s.argLen else [] := by
  cases kind <;> rfl

/-! ### The obligations -/

/-- Settles O37: each ENCODE row runs ENCODE of its kind, which completes; the write of the frame to `EBUF` can be read back,
and leaves the bytes outside its place. -/
theorem encodeWritesTheWireFrame : Obligations.EncodeWritesTheWireFrame := by
  intro s seq i f hinv hrange hi hlen
  obtain ⟨kind, hexec, rfl⟩ : ∃ kind, exec i s = encodeFrame kind seq s ∧
      f = frameBytes s.params kind seq (payloadOf kind s) := by
    simp only [frameBytes_eq_wireFrame]
    obtain ⟨rfl, rfl⟩ | ⟨rfl, rfl⟩ | ⟨rfl, rfl⟩ := hi
    · exact ⟨.data, rfl, rfl⟩
    · exact ⟨.ack, rfl, rfl⟩
    · exact ⟨.nack, rfl, rfl⟩
  exact ⟨encoded kind seq s, hexec.trans (encodeFrame_ok (rangeOk_iff.2 hrange) hlen), bufHolds_encoded hinv.memWf,
    fun a ha => read_encoded_outside hinv.memWf ha, rfl⟩

/-- Settles O38: an illegal word is turned away by its row; a legal one runs ENCODE of its kind, which is turned away for its
range or its frame. -/
theorem encodeChecksItsOperands : Obligations.EncodeChecksItsOperands := by
  intro s w hop h
  by_cases hill : illegalCommand w
  · exact (illegalWordsAreTurnedAway w s).1 hill
  obtain ⟨kind, hkind, hexec⟩ := exec_legal_encode_word hop hill
  refine ⟨refuse s, (hexec s).trans (encodeFrame_refused fun hrange => ?_), turnedAway_refuse s⟩
  rw [illegalCommand_iff_of_encode hop] at hill
  obtain hhigh | hkind3 | hpast | ⟨kind', hmem, hlong⟩ := h
  · exact absurd (.inl hhigh) hill
  · exact absurd (.inr hkind3) hill
  · exact absurd (rangeOk_iff.1 hrange) (Nat.not_le.2 hpast)
  · have hcode : cmdKind w = kindCode kind' := by
      simp only [List.mem_cons, Prod.mk.injEq, List.not_mem_nil, or_false] at hmem
      obtain ⟨rfl, hk⟩ | ⟨rfl, hk⟩ | ⟨rfl, hk⟩ := hmem <;> exact hk
    obtain rfl : kind = kind' := kindCode_injective (hkind.symm.trans hcode)
    rwa [frameBytes_eq_wireFrame, payloadOf_eq_ite]

end Sys2Proof.Machine
end

section
/-! PROOFS. DECODE: when it is turned away, by the word and the byte range (R98). -/

namespace Sys2Proof.Machine

/-- R98: with its range past `IBUF`, DECODE is turned away, whatever the buffers and the decoder hold. -/
theorem execDecode_refused {s : State} (hpast : s.params.ibufSize < s.argOff + s.argLen) :
    execDecode s = .next (refuse s) :=
  if_neg fun hrange => Nat.not_le.2 hpast (rangeOk_iff.1 hrange)

/-- A DECODE word with no bit set above its opcode runs DECODE (R66, R68). -/
theorem exec_legal_decode_word {w : Word} (hop : cmdOp w = 2#3) (hrest : cmdRest w = 0#29) (s : State) :
    exec (decodeCmd w) s = execDecode s := by
  rw [decodeCmd_op2 hop, if_pos hrest]
  rfl

/-- Settles O42: a word with a bit set above the opcode is illegal, so its row is turned away; any other runs DECODE, which
is turned away for its range. -/
theorem decodeChecksItsOperands : Obligations.DecodeChecksItsOperands := by
  intro s w hop h
  by_cases hrest : cmdRest w = 0#29
  · have hpast : s.params.ibufSize < s.argOff + s.argLen := h.resolve_left (not_not_intro hrest)
    exact ⟨refuse s, (exec_legal_decode_word hop hrest s).trans (execDecode_refused hpast), turnedAway_refuse s⟩
  · exact (illegalWordsAreTurnedAway w s).1 ((illegalCommand_iff_of_no_operands (by simp [hop])).2 hrest)

end Sys2Proof.Machine
end

section
/-! PROOFS. The state commands and the rows that are always turned away (R126 to R130). -/

namespace Sys2Proof.Machine

/-! ### The snapshot image -/

/-- R34: `SN_FLAGS` as a number, with `esc` in bit 0, `start_valid` in bit 1 and `end_valid` in bit 2. -/
theorem toNat_packFlags (esc startValid endValid : Bool) :
    (packFlags esc startValid endValid).toNat = 4 * endValid.toNat + 2 * startValid.toNat + esc.toNat := by
  revert esc startValid endValid
  decide

/-- R129: the record an acceptable image holds has no end recorded; every other field is the bank's. -/
theorem stateOf_of_noEnd {b : Bank} (hvalid : flagsEndValid b.flags = false) (hend : b.endPos = 0) : stateOf b =
    { esc := flagsEsc b.flags, crc := b.crc, startValid := flagsStartValid b.flags, startPos := b.startPos,
      endValid := false, endPos := 0, pos := b.pos, out := b.out } := by
  simp only [stateOf, hvalid, hend]

theorem execSetState_ok {s : State} (h : imageOk s.params s.bank = true) :
    execSetState s = .next (respond (withSt s (stateOf s.bank)) .ok 0 0) := if_pos h

theorem execSetState_refused {s : State} (h : ¬ imageOk s.params s.bank = true) : execSetState s = .next (refuse s) :=
  if_neg h

/-! ### The words of a command without operand fields -/

variable {w : Word}

/-- With no bit set above such an opcode the word runs its command (R66). -/
theorem exec_of_rest_eq_zero {i : Instr} (hw : decodeCmd w = if cmdRest w = 0#29 then i else .illegalHighBits w)
    (hrest : cmdRest w = 0#29) (s : State) : exec (decodeCmd w) s = exec i s := by
  rw [hw, if_pos hrest]

/-- With a bit set above such an opcode the word is illegal, and turned away (R68). -/
theorem turnedAway_of_rest_ne_zero (hop : cmdOp w ∈ [0#3, 2#3, 3#3, 4#3]) (hrest : cmdRest w ≠ 0#29) (s : State) :
    ∃ t, exec (decodeCmd w) s = .next t ∧ TurnedAway s t :=
  (illegalWordsAreTurnedAway w s).1 ((illegalCommand_iff_of_no_operands hop).2 hrest)

/-! ### The obligations -/

/-- Settles O23: the five rows are those turned away in every state, and a word with a reserved opcode is illegal, so it
decodes to one of them. -/
theorem alwaysRefusedRowsComplete : Obligations.AlwaysRefusedRowsComplete := by
  refine fun s seq rest word => ⟨fun i hi => ?_, fun hop => ?_⟩
  · have hrow : isTurnedAwayRow i = true := by obtain rfl | rfl | rfl | rfl | rfl := hi <;> rfl
    exact exec_of_isTurnedAwayRow hrow s
  · exact exec_of_isTurnedAwayRow ((isTurnedAwayRow_decodeCmd word).2 (illegalCommand_of_reserved hop)) s

/-- Settles O24: RESET_STATE writes `INIT_STATE` and responds, whatever the state. -/
theorem resetStateCommandResetsOnlyTheRecord : Obligations.ResetStateCommandResetsOnlyTheRecord :=
  fun s _ hop => ⟨fun hrest => ⟨exec_of_rest_eq_zero (decodeCmd_op0 hop) hrest s, rfl⟩,
    fun hrest => turnedAway_of_rest_ne_zero (by simp [hop]) hrest s⟩

/-- Settles O25: GET_STATE writes the image of `st`, whose flags are the packed status bits, and responds. -/
theorem getStateCopiesTheRecordToTheBank : Obligations.GetStateCopiesTheRecordToTheBank := by
  refine fun s w hop => ⟨fun hrest => ⟨exec_of_rest_eq_zero (decodeCmd_op3 hop) hrest s, ?_⟩,
    fun hrest => turnedAway_of_rest_ne_zero (by simp [hop]) hrest s⟩
  exact ⟨respond (withBank s (imageOf s.st)) .ok 0 0, rfl, toNat_packFlags _ _ _, rfl, rfl, rfl, rfl, rfl, rfl⟩

/-- Settles O26: the three conditions are `IMAGE_OK()`. An image that meets them is loaded, and any other is turned away. -/
theorem setStateLoadsAnAcceptableImage : Obligations.SetStateLoadsAnAcceptableImage := by
  refine fun s w hop => ⟨fun hrest => ⟨exec_of_rest_eq_zero (decodeCmd_op4 hop) hrest s, fun himage => ?_, fun himage => ?_⟩,
    fun hrest => turnedAway_of_rest_ne_zero (by simp [hop]) hrest s⟩
  · have hload := execSetState_ok (imageOk_iff.2 himage)
    obtain ⟨hvalid, hend, -⟩ := himage
    rwa [stateOf_of_noEnd hvalid hend] at hload
  · exact ⟨refuse s, execSetState_refused (mt imageOk_iff.1 himage), turnedAway_refuse s⟩

end Sys2Proof.Machine
end

section
/-! PROOFS. The reset input: one step puts the core into its reset state (R143, R144). -/

namespace Sys2Proof.Machine

/-- Asserting reset is one step, the hardware reset of the core; the host goes on with its next event (R143). -/
theorem step_reset {s : State} {images : List Host.Cell} {rest : List HostEvent} (hhost : s.host = .reset images :: rest) :
    step s = .next (hardReset images (withHost s rest)) := by
  simp only [step, nextAction, hhost, eventAction]

/-- Settles O14: the registers are those `hardReset` writes, the bank is the image of `INIT_STATE`, and the buffers an image
in canonical form builds are that image. -/
theorem hardwareResetSetsEveryRegister : Obligations.HardwareResetSetsEveryRegister :=
  fun s _ _ hhost => ⟨_, step_reset hhost, rfl, rfl, rfl, rfl, rfl, rfl, rfl, imageOf_initState s.params, rfl,
    Memory.ofImages_self⟩

end Sys2Proof.Machine
end

section
/-! PROOFS. The instances of a platform: steps of two of them commute (R156). -/

namespace Sys2Proof.Machine

variable {a b c : Platform} {j k : Nat}

/-- A step of a core the platform does not have changes nothing. -/
theorem Platform.stepCore_of_none (hk : a.cores[k]? = none) : a.stepCore k = .next a := by
  simp only [Platform.stepCore, hk]

/-- A step of a core is its own step, written back in its place. -/
theorem Platform.stepCore_of_some {s t : State} (hk : a.cores[k]? = some s) (hs : step s = .next t) :
    a.stepCore k = .next ⟨a.cores.set k t⟩ := by
  simp only [Platform.stepCore, hk, hs]

/-- Two instances step in either order to the same platform: each finds its own state as it was before the other's step
(R156). -/
theorem Platform.stepCore_comm (hjk : j ≠ k) (hj : a.stepCore j = .next b) (hk : b.stepCore k = .next c) :
    ∃ b', a.stepCore k = .next b' ∧ b'.stepCore j = .next c := by
  have hsame : b.cores[k]? = a.cores[k]? := getElem?_stepCore hj hjk.symm
  obtain ⟨hnone, rfl⟩ | ⟨s, t, hsome, hstep, rfl⟩ := stepCore_cases hk
  · exact ⟨a, stepCore_of_none (hsame ▸ hnone), hj⟩
  · have hfirst : a.stepCore k = .next ⟨a.cores.set k t⟩ := stepCore_of_some (hsame ▸ hsome) hstep
    refine ⟨_, hfirst, ?_⟩
    have hsame' := getElem?_stepCore hfirst hjk
    obtain ⟨hnone', rfl⟩ | ⟨s', t', hsome', hstep', rfl⟩ := stepCore_cases hj
    · exact stepCore_of_none (hsame'.trans hnone')
    · rw [stepCore_of_some (hsame'.trans hsome') hstep', List.set_comm _ _ hjk.symm]

/-- Settles O60: the frame and the bound are kept by every step of a platform, and the two steps commute. -/
theorem instancesAreIndependent : Obligations.InstancesAreIndependent :=
  ⟨fun n hn => ⟨by rwa [Platform.ok_iff, Platform.nInst_reset], Platform.nInst_reset n⟩,
    fun _ _ _ _ _ hjk hj hk => ⟨fun _ hi => Platform.getElem?_stepCore hj hi, Platform.nInst_stepCore hj,
      Platform.ok_stepCore hj, Platform.stepCore_comm hjk hj hk⟩⟩

end Sys2Proof.Machine
end

section
/-! PROOFS. Codes and instructions: a code decodes to the one well-formed instruction it is the code of (R61, R64, R66,
R68). -/

namespace Sys2Proof

variable {w : Word}

/-! ### Command words -/

/-- Opcode and the bits above it make up a command word (R66). -/
theorem cmd_eq_of_op_rest {v : Word} (hop : cmdOp v = cmdOp w) (hrest : cmdRest v = cmdRest w) : v = w := by
  rw [← cmd_eq_rest_op v, ← cmd_eq_rest_op w, hop, hrest]

/-- The words of the catch-all row: an ENCODE word with a reserved bit set, or a word of a command without operand fields
with any bit set above its opcode (R68). -/
theorem illegalHighWord_iff : illegalHighWord w = true ↔
    cmdOp w = 1#3 ∧ cmdHigh w ≠ 0#24 ∨ cmdOp w ∈ [0#3, 2#3, 3#3, 4#3] ∧ cmdRest w ≠ 0#29 := by
  obtain h | h | h | h | h | h | h | h := cmdOp_cases w <;> simp [illegalHighWord, h]

theorem decodeCmd_of_illegalHighWord (h : illegalHighWord w = true) : decodeCmd w = .illegalHighBits w := by
  obtain ⟨hop, hhigh⟩ | ⟨hop, hrest⟩ := illegalHighWord_iff.1 h
  · exact decodeCmd_op1_high hop hhigh
  · simp only [List.mem_cons, List.not_mem_nil, or_false] at hop
    obtain hop | hop | hop | hop := hop
    · rw [decodeCmd_op0 hop, if_neg hrest]
    · rw [decodeCmd_op2 hop, if_neg hrest]
    · rw [decodeCmd_op3 hop, if_neg hrest]
    · rw [decodeCmd_op4 hop, if_neg hrest]

/-- What decoding a code must give: a well-formed instruction that has this code. -/
def MeansCode (p : Params) (i : Instr) (c : Code) : Prop := i.wf p = true ∧ encode i = some c

theorem meansCode_illegalHighBits (p : Params) (h : illegalHighWord w = true) :
    MeansCode p (.illegalHighBits w) (.cmd w) := ⟨h, rfl⟩

/-- A word of a command without operand fields means that command, or is a word of the catch-all row. -/
theorem meansCode_of_no_operands (p : Params) {i : Instr} {v : Word} (hop : cmdOp w ∈ [0#3, 2#3, 3#3, 4#3])
    (hw : decodeCmd w = if cmdRest w = 0#29 then i else .illegalHighBits w) (hi : MeansCode p i (.cmd v))
    (hvop : cmdOp v = cmdOp w) (hvrest : cmdRest v = 0#29) : MeansCode p (decodeCmd w) (.cmd w) := by
  rw [hw]
  by_cases hrest : cmdRest w = 0#29
  · rw [if_pos hrest, ← cmd_eq_of_op_rest hvop (hvrest.trans hrest.symm)]
    exact hi
  · rw [if_neg hrest]
    exact meansCode_illegalHighBits p (illegalHighWord_iff.2 (.inr ⟨hop, hrest⟩))

/-- An ENCODE word means ENCODE of the kind and sequence it holds, or is a word of the catch-all row. -/
theorem meansCode_of_encode (p : Params) (hop : cmdOp w = 1#3) : MeansCode p (decodeCmd w) (.cmd w) := by
  by_cases hhigh : cmdHigh w = 0#24
  · have hfields := cmd_eq_fields w
    obtain hk | hk | hk | hk := cmdKind_cases w <;> rw [hop, hhigh, hk] at hfields
    · exact decodeCmd_encodeData hop hhigh hk ▸ ⟨rfl, congrArg (some ∘ Code.cmd) hfields⟩
    · exact decodeCmd_encodeAck hop hhigh hk ▸ ⟨rfl, congrArg (some ∘ Code.cmd) hfields⟩
    · exact decodeCmd_encodeNack hop hhigh hk ▸ ⟨rfl, congrArg (some ∘ Code.cmd) hfields⟩
    · exact decodeCmd_encodeKind3 hop hhigh hk ▸ ⟨rfl, congrArg (some ∘ Code.cmd) hfields⟩
  · rw [decodeCmd_op1_high hop hhigh]
    exact meansCode_illegalHighBits p (illegalHighWord_iff.2 (.inl ⟨hop, hhigh⟩))

/-- A word with a reserved opcode means the row of that opcode, whatever stands above it (R130). -/
theorem meansCode_of_reserved (p : Params) {op : BitVec 3} {i : BitVec 29 → Instr} (hop : cmdOp w = op)
    (hw : decodeCmd w = i (cmdRest w)) (hi : ∀ rest, MeansCode p (i rest) (.cmd (rest ++ op : BitVec 32))) :
    MeansCode p (decodeCmd w) (.cmd w) := by
  have hcode := hi (cmdRest w)
  rwa [← hop, cmd_eq_rest_op, ← hw] at hcode

/-- Every command word decodes to an instruction it is the code of, opcode by opcode. -/
theorem meansCode_decodeCmd (p : Params) (w : Word) : MeansCode p (decodeCmd w) (.cmd w) := by
  obtain h | h | h | h | h | h | h | h := cmdOp_cases w
  · exact meansCode_of_no_operands p (by simp [h]) (decodeCmd_op0 h) ⟨rfl, rfl⟩ (h ▸ by decide) (by decide)
  · exact meansCode_of_encode p h
  · exact meansCode_of_no_operands p (by simp [h]) (decodeCmd_op2 h) ⟨rfl, rfl⟩ (h ▸ by decide) (by decide)
  · exact meansCode_of_no_operands p (by simp [h]) (decodeCmd_op3 h) ⟨rfl, rfl⟩ (h ▸ by decide) (by decide)
  · exact meansCode_of_no_operands p (by simp [h]) (decodeCmd_op4 h) ⟨rfl, rfl⟩ (h ▸ by decide) (by decide)
  · exact meansCode_of_reserved p h (decodeCmd_op5 h) fun _ => ⟨rfl, rfl⟩
  · exact meansCode_of_reserved p h (decodeCmd_op6 h) fun _ => ⟨rfl, rfl⟩
  · exact meansCode_of_reserved p h (decodeCmd_op7 h) fun _ => ⟨rfl, rfl⟩

/-! ### Control bytes -/

theorem wf_decodeCtl (p : Params) (c : Byte) : (decodeCtl c).wf p = true := by
  unfold decodeCtl
  split
  · split <;> rfl
  · rfl
  · rfl

/-- R61: the fields of a control byte, put back in the places its class gives them, are the byte. -/
theorem encode_decodeCtl (c : Byte) : encode (decodeCtl c) = some (.ctl c) := by
  revert c
  decide +kernel

theorem meansCode_decodeCode (p : Params) (c : Code) : MeansCode p (decodeCode c) c := by
  cases c with
  | cmd w => exact meansCode_decodeCmd p w
  | ctl c => exact ⟨wf_decodeCtl p c, encode_decodeCtl c⟩

/-! ### From an instruction to its code and back -/

/-- The code of a well-formed instruction decodes to it, row by row: the operands of an ENCODE word or a control byte are few
enough to run through, those of a reserved opcode are the bits above it, and the catch-all row holds its word. -/
theorem decodeCode_of_meansCode {p : Params} {i : Instr} {c : Code} (h : MeansCode p i c) : decodeCode c = i := by
  obtain ⟨hwf, hcode⟩ := h
  cases i <;> cases hcode
  case resetState | decode | getState | setState => decide
  case encodeData seq | encodeAck seq | encodeNack seq | encodeKind3 seq => clear hwf; revert seq; decide
  case reserved5 rest => exact (decodeCmd_op5 (cmdOp_append _ _)).trans (by rw [cmdRest_append])
  case reserved6 rest => exact (decodeCmd_op6 (cmdOp_append _ _)).trans (by rw [cmdRest_append])
  case reserved7 rest => exact (decodeCmd_op7 (cmdOp_append _ _)).trans (by rw [cmdRest_append])
  case illegalHighBits w => exact decodeCmd_of_illegalHighWord hwf
  case ctlI ns pf nr => clear hwf; revert ns pf nr; decide
  case ctlSRr pf nr | ctlSRnr pf nr | ctlSRej pf nr | ctlSSrej pf nr => clear hwf; revert pf nr; decide
  case ctlU mid nr => clear hwf; revert mid nr; decide

namespace Machine

/-- Settles O3: decoding undoes encoding on every row of the table. -/
theorem decodeOfEncodeIsTheInstruction : Obligations.DecodeOfEncodeIsTheInstruction :=
  fun _ _ _ hwf hcode => decodeCode_of_meansCode ⟨hwf, hcode⟩

/-- Settles O4: a code is the code of what it decodes to, and decoding undoes encoding, so nothing else has that code. -/
theorem everyCodeHasOneMeaning : Obligations.EveryCodeHasOneMeaning := by
  intro p c
  obtain ⟨hwf, hcode⟩ := meansCode_decodeCode p c
  exact ⟨hwf, hcode, fun i hi hic => (decodeCode_of_meansCode ⟨hi, hic⟩).symm⟩

/-- Settles O1: each word is closed, and the decoder evaluates on it. -/
theorem tableWordsDecodeAsWritten : Obligations.TableWordsDecodeAsWritten := by
  unfold Obligations.TableWordsDecodeAsWritten
  decide

end Machine
end Sys2Proof
end

section
/-! PROOFS. The host bus: where each access goes, and the step that takes it (R44 to R50, R142). -/

namespace Sys2Proof.Machine

variable {s t : State} {off : BitVec 18} {width : Width} {v w : Word} {r : Reg} {rest : List HostEvent} {p : Params}

/-! ### The step of each host event -/

/-- What a read of a target returns (R45, R46). -/
def valueAt (s : State) : Target → Word
  | .register r => readReg s r
  | .bufByte a => (Memory.read s.mem a).setWidth 32
  | .reserved => 0#32

/-- With no host event the core holds its state (R141). -/
theorem step_idle (hhost : s.host = []) : step s = .next s := by
  simp only [step, nextAction, hhost]

/-- A read inside the interface gives the value of its target to the host's record (R50). -/
theorem step_read {x : Target} (hhost : s.host = .read off width :: rest) (ht : target s.params off width = .ok x) :
    step s = .next (observe (withHost s rest) (valueAt s x)) := by
  cases x <;> simp only [step, nextAction, hhost, eventAction, hostRead, withHost_params, ht] <;> rfl

/-- A word read at a register's offset gives that register (R45). -/
theorem step_read_register (hhost : s.host = readEvent r :: rest) :
    step s = .next (observe (withHost s rest) (readReg s r)) := step_read hhost (target_regOffset _ _)

/-- A write to `CMD` runs the command of the word written (R50, R52). -/
theorem step_write_cmd (hhost : s.host = writeEvent .cmd w :: rest) :
    step s = exec (decodeCmd w) (withHost s rest) := by
  simp only [step, nextAction, hhost, writeEvent, eventAction, hostWrite, target_regOffset]

/-- A word write at any other register's offset writes that register (R45). -/
theorem step_write_register (hhost : s.host = writeEvent r v :: rest) (hr : r ≠ .cmd) :
    step s = .next (writeReg (withHost s rest) r v) := by
  cases r
  case cmd => exact absurd rfl hr
  all_goals simp only [step, nextAction, hhost, writeEvent, eventAction, hostWrite, target_regOffset]

theorem step_write_bufByte {a : Nat} (hhost : s.host = .write off width v :: rest)
    (ht : target s.params off width = .ok (.bufByte a)) :
    step s = .next (withMem (withHost s rest) (Memory.write s.mem a (v.setWidth 8))) := by
  simp only [step, nextAction, hhost, eventAction, hostWrite, withHost_params, ht, withHost_mem]

/-- An access outside the interface is refused, a read and a write alike (R47, R142). -/
theorem step_refused {x : Refusal} (hhost : s.host = .read off width :: rest ∨ s.host = .write off width v :: rest)
    (ht : target s.params off width = .error x) : step s = .refused x := by
  obtain hhost | hhost := hhost
  · simp only [step, nextAction, hhost, eventAction, hostRead, withHost_params, ht]
  · simp only [step, nextAction, hhost, eventAction, hostWrite, withHost_params, ht]

/-! ### Where an access goes -/

/-- R47: a sub-word access in the register window is outside the interface. -/
theorem target_subWord (hlt : off.toNat < 0x100) (hw : width ≠ .word) :
    target p off width = .error .subWordRegisterAccess := by
  have hin : ¬ 0x40000 < off.toNat + widthBytes width := by cases width <;> simp only [widthBytes] <;> omega
  rw [target, if_neg hin, if_pos hlt, if_pos hw]

/-- R47: so is a misaligned one. -/
theorem target_misaligned (hlt : off.toNat < 0x100) (halign : off.toNat % 4 ≠ 0) :
    target p off .word = .error .misalignedRegisterAccess := by
  have hin : ¬ 0x40000 < off.toNat + widthBytes .word := by simp only [widthBytes]; omega
  rw [target, if_neg hin, if_pos hlt, if_neg (not_not_intro rfl), if_pos halign]

/-- R47: an access of several bytes, one of them a buffer byte, is outside the interface. -/
theorem target_multiByte (b : Buf) {k : Nat} (hge : 0x100 ≤ off.toNat) (hw : width ≠ .byte)
    (hin : off.toNat + widthBytes width ≤ 0x40000) (hk : k < widthBytes width)
    (hbyte : bufBase b ≤ off.toNat + k ∧ off.toNat + k < bufBase b + bufSize p b) :
    target p off width = .error .multiByteBufferAccess := by
  have htouch : touchesBuf p b off.toNat (widthBytes width) = true := by
    simp only [touchesBuf, Bool.and_eq_true, decide_eq_true_eq]
    omega
  have hany : touchesBuffers p off.toNat (widthBytes width) = true := by
    cases b <;> simp only [touchesBuffers, htouch, Bool.or_true, Bool.true_or]
  rw [target, if_neg (Nat.not_lt.2 hin), if_neg (Nat.not_lt.2 hge), if_pos hany, if_pos hw]

/-- A buffer byte's place in the window fits the 18 bits of an offset (R10, R44). -/
theorem toNat_bufOffset (hp : p.ok = true) {b : Buf} {a : Nat} (ha : a < bufSize p b) :
    (BitVec.ofNat 18 (bufBase b + a)).toNat = bufBase b + a := by
  have hsize := size_le hp
  rw [BitVec.toNat_ofNat, Nat.mod_eq_of_lt]
  cases b <;> simp only [bufBase, bufSize] at ha ⊢ <;> omega

/-- R44: a byte access at a buffer byte's place reaches that byte. -/
theorem target_bufOffset (hp : p.ok = true) {b : Buf} {a : Nat} (ha : a < bufSize p b) :
    target p (BitVec.ofNat 18 (bufBase b + a)) .byte = .ok (.bufByte (bufBase b + a)) := by
  have hoff := toNat_bufOffset hp ha
  have hlt := (BitVec.ofNat 18 (bufBase b + a)).isLt
  rw [hoff] at hlt
  have hin : ¬ 0x40000 < bufBase b + a + widthBytes .byte := by simp only [widthBytes]; omega
  have hge : ¬ bufBase b + a < 0x100 := by cases b <;> simp only [bufBase] <;> omega
  have hany : touchesBuffers p (bufBase b + a) (widthBytes .byte) = true := touchesBuffers_of_lt b ha
  rw [target, hoff, if_neg hin, if_neg hge, if_pos hany, if_neg (not_not_intro rfl)]

/-! ### What a write other than a command leaves unchanged -/

/-- A write that is no write to `CMD` writes one other register, the buffers, or nothing (R50). -/
theorem step_write_cases (hhost : s.host = .write off width v :: rest) (hoff : off ≠ regOffset .cmd)
    (h : step s = .next t) :
    (∃ r, t = writeReg (withHost s rest) r v) ∨ (∃ m, t = withMem (withHost s rest) m) ∨ t = withHost s rest := by
  cases htarget : target s.params off width with
  | error x => rw [step_refused (.inr hhost) htarget] at h; cases h
  | ok x =>
    cases x with
    | register r =>
      obtain ⟨rfl, rfl⟩ := target_register htarget
      rw [step_write_register hhost (fun hr => hoff (congrArg regOffset hr))] at h
      cases h
      exact .inl ⟨r, rfl⟩
    | bufByte a =>
      rw [step_write_bufByte hhost htarget] at h
      cases h
      exact .inr (.inl ⟨_, rfl⟩)
    | reserved =>
      rw [step_write_reserved hhost htarget] at h
      cases h
      exact .inr (.inr rfl)

/-! ### The obligations -/

/-- Settles O6: offset 0 is the offset of `CMD`. -/
theorem stepRunsTheWrittenCommand : Obligations.StepRunsTheWrittenCommand :=
  fun _ _ _ hhost => step_write_cmd hhost

/-- Settles O7: a write other than to `CMD` reaches another register, a buffer byte or nothing; a read goes through the same
target twice, and its first read changes no value. -/
theorem onlyCmdWritesHaveSideEffects : Obligations.OnlyCmdWritesHaveSideEffects := by
  intro s t off width v rest
  refine ⟨step_idle, fun hhost => step_write_cmd hhost, fun hhost hoff h => ?_, fun hhost h => ?_⟩
  · obtain ⟨r, rfl⟩ | ⟨m, rfl⟩ | rfl := step_write_cases hhost hoff h <;> simp
  · cases htarget : target s.params off width with
    | error x => rw [step_refused (v := v) (.inl hhost) htarget] at h; cases h
    | ok x =>
      rw [step_read hhost htarget] at h
      cases h
      let t := observe (withHost s (.read off width :: rest)) (valueAt s x)
      have hvalue : valueAt t x = valueAt s x := by cases x <;> rfl
      refine ⟨valueAt s x, rfl, (step_read (s := t) rfl htarget).trans ?_⟩
      rw [hvalue]
      simp only [t, observe, withHost, List.append_assoc, List.cons_append, List.nil_append]

/-- Settles O8: the list is the map of the 13 registers, and a word read at a register's offset gives the register. -/
theorem registerReadsFollowTheMap : Obligations.RegisterReadsFollowTheMap := by
  intro s off x rest hmem hhost
  obtain ⟨r, -, hr⟩ : ∃ r ∈ [Reg.cmd, .argOff, .argLen, .status, .resCount, .resLen, .ctlOut, .snFlags, .snStart, .snEnd,
      .snPos, .snOut, .snCrc], (regOffset r, readReg s r) = (off, x) := List.mem_map.1 hmem
  cases hr
  exact step_read_register hhost

/-- R45: a `CRC_W`-bit register keeps that many low bits of the word. -/
theorem crcRegBits_eq_ofNat (p : Params) (v : Word) : crcRegBits p v = BitVec.ofNat 32 (v.toNat % 2 ^ p.crcBits) := by
  apply BitVec.eq_of_toNat_eq
  have := v.isLt
  unfold crcRegBits Params.crcBits
  cases p.crcWidth <;> simp only [BitVec.toNat_setWidth, BitVec.toNat_ofNat]
  all_goals omega

/-- Settles O9: each offset is a register's, whose write keeps the bits of its width, or none where it is read-only. -/
theorem registerWritesKeepTheWidth : Obligations.RegisterWritesKeepTheWidth := by
  intro s off v rest hhost
  have hwrite : ∀ r, r ≠ .cmd → off = regOffset r → step s = .next (writeReg (withHost s rest) r v) :=
    fun r hr hoff => step_write_register (by rw [hhost, hoff, writeEvent]) hr
  refine ⟨hwrite .argOff nofun, hwrite .argLen nofun, fun hoff => ?_, hwrite .snStart nofun, hwrite .snEnd nofun,
    hwrite .snPos nofun, hwrite .snOut nofun, fun hoff => ?_, ?_⟩
  · rw [hwrite .snFlags nofun hoff, ← BitVec.setWidth_eq_extractLsb' (by decide)]
    rfl
  · rw [hwrite .snCrc nofun hoff, ← crcRegBits_eq_ofNat]
    rfl
  · rintro (hoff | hoff | hoff | hoff)
    · exact hwrite .status nofun hoff
    · exact hwrite .resCount nofun hoff
    · exact hwrite .resLen nofun hoff
    · exact hwrite .ctlOut nofun hoff

/-- Settles O11: each of the three shapes of access has a refusal as its target, and offset 1C is no register's. -/
theorem accessesOutsideTheInterfaceAreRefused : Obligations.AccessesOutsideTheInterfaceAreRefused := by
  intro s off width v rest hhost
  refine ⟨fun hlt hw => step_refused hhost (target_subWord hlt hw), fun hlt hw halign => ?_, fun hge hw hin hbyte => ?_,
    fun hoff hw => ?_⟩
  · subst hw
    exact step_refused hhost (target_misaligned hlt halign)
  · obtain ⟨b, k, hk, hbyte⟩ := hbyte
    exact step_refused hhost (target_multiByte b hge hw hin hk hbyte)
  · subst hoff hw
    have ht : target s.params 0x1C#18 .word = .ok .reserved :=
      target_word_reserved _ (by decide) (by decide) fun r => by cases r <;> decide
    obtain hhost | hhost := hhost
    · exact ⟨_, step_read_reserved hhost ht⟩
    · exact ⟨_, step_write_reserved hhost ht⟩

/-- Settles O12: the access reaches the buffer byte, and a byte written is read back and leaves the others. -/
theorem bufferBytesAreReadAndWrittenInTheirWindow : Obligations.BufferBytesAreReadAndWrittenInTheirWindow := by
  intro s b a v rest hinv ha
  have ht := target_bufOffset hinv.params ha
  refine ⟨fun hhost => ⟨_, step_write_bufByte hhost ht, ?_, fun x hx => ?_, rfl⟩, fun hhost => step_read hhost ht⟩
  · rw [← BitVec.setWidth_eq_extractLsb' (by decide)]
    exact Memory.read_write_self hinv.memWf _ _
  · exact Memory.read_write_other hinv.memWf _ hx

/-- Settles O2: the operands are written as given, and the four command words evaluate. -/
theorem exampleStatementsWriteTheirWords : Obligations.ExampleStatementsWriteTheirWords :=
  ⟨by decide, by decide, by decide, fun _ _ => rfl⟩

end Sys2Proof.Machine
end

section
/-! PROOFS. All that an instruction can do, said once, and what follows for every instruction: the invariant, the parameters,
the status codes and their writers, and who writes `st` and `CTL_OUT`. -/

namespace Sys2Proof.Machine

variable {i : Instr} {s t : State}

/-! ### The inversion of `exec` -/

/-- ENCODE of a kind, as an instruction (R66). -/
def encodeInstr : Kind → BitVec 3 → Instr
  | .data => .encodeData
  | .ack => .encodeAck
  | .nack => .encodeNack

theorem exec_encodeInstr (kind : Kind) (seq : BitVec 3) (s : State) :
    exec (encodeInstr kind seq) s = encodeFrame kind seq s := by
  cases kind <;> rfl

theorem encodeInstr_cases (kind : Kind) (seq : BitVec 3) : encodeInstr kind seq = .encodeData seq ∨
    encodeInstr kind seq = .encodeAck seq ∨ encodeInstr kind seq = .encodeNack seq := by
  cases kind <;> simp [encodeInstr]

/-- An ENCODE row is ENCODE of its kind. -/
theorem exists_encodeInstr {seq : BitVec 3} (h : i = .encodeData seq ∨ i = .encodeAck seq ∨ i = .encodeNack seq) :
    ∃ kind, i = encodeInstr kind seq := by
  obtain rfl | rfl | rfl := h
  · exact ⟨.data, rfl⟩
  · exact ⟨.ack, rfl⟩
  · exact ⟨.nack, rfl⟩

/-- What instruction `i` can do in state `s`: be turned away, run one of the commands, or record a result in `fn`. -/
inductive Does (s : State) : Instr → State → Prop
  | turnedAway {i : Instr} : isCommand i = true → Does s i (refuse s)
  | resetState : Does s .resetState (respond (resetDecoder s) .ok 0 0)
  | encode (kind : Kind) (seq : BitVec 3) : Does s (encodeInstr kind seq) (encoded kind seq s)
  | decode : rangeOk s = true → Does s .decode (finishDecode s (decodeScan s))
  | getState : Does s .getState (respond (withBank s (imageOf s.st)) .ok 0 0)
  | setState : imageOk s.params s.bank = true → Does s .setState (respond (withSt s (stateOf s.bank)) .ok 0 0)
  | internal {i : Instr} (r : FnResult) : isCommand i = false → Does s i (withFn s r)

theorem does_of_encodeFrame {kind : Kind} {seq : BitVec 3} (h : encodeFrame kind seq s = .next t) :
    Does s (encodeInstr kind seq) t := by
  obtain rfl | ⟨-, -, rfl⟩ := encodeFrame_cases h
  · exact .turnedAway (by cases kind <;> rfl)
  · exact .encode kind seq

/-- All that an instruction can do. -/
theorem does_of_exec (h : exec i s = .next t) : Does s i t := by
  cases i
  case resetState => cases h; exact .resetState
  case encodeData => exact does_of_encodeFrame h
  case encodeAck => exact does_of_encodeFrame h
  case encodeNack => exact does_of_encodeFrame h
  case decode =>
    obtain ⟨-, rfl⟩ | ⟨hrange, rfl⟩ := execDecode_cases h
    · exact .turnedAway rfl
    · exact .decode hrange
  case getState => cases h; exact .getState
  case setState =>
    obtain ⟨-, rfl⟩ | ⟨himage, rfl⟩ := execSetState_cases h
    · exact .turnedAway rfl
    · exact .setState himage
  case encodeKind3 | reserved5 | reserved6 | reserved7 | illegalHighBits => cases h; exact .turnedAway rfl
  all_goals cases h; exact .internal _ rfl

/-! ### Fields of the state after ENCODE and DECODE -/

section
variable (kind : Kind) (seq : BitVec 3) (s : State)
@[simp] theorem encoded_params : (encoded kind seq s).params = s.params := rfl
@[simp] theorem encoded_st : (encoded kind seq s).st = s.st := rfl
@[simp] theorem encoded_ctlOut : (encoded kind seq s).ctlOut = s.ctlOut := rfl
@[simp] theorem encoded_status : (encoded kind seq s).status = .ok := rfl
@[simp] theorem encoded_resCount :
    (encoded kind seq s).resCount = (frameBytes s.params kind seq (payloadOf kind s)).length := rfl
@[simp] theorem encoded_resLen : (encoded kind seq s).resLen = 0 := rfl
end

/-- DECODE writes `st`, `CTL_OUT`, the buffers and the result registers, and no other field (R56, R155). -/
theorem finishDecode_frame (s : State) (e : ScanEnd) :
    ∃ st ctl m x c l, finishDecode s e = respond (withScan s st ctl m) x c l := by
  obtain ⟨w, -, h⟩ | ⟨k, w, -, -, h⟩ | ⟨k, w, -, -, h⟩ | ⟨k, w, -, h⟩ := finishDecode_cases s e
  all_goals exact ⟨_, _, _, _, _, _, h⟩

@[simp] theorem finishDecode_params (s : State) (e : ScanEnd) : (finishDecode s e).params = s.params := by
  obtain ⟨st, ctl, m, x, c, l, h⟩ := finishDecode_frame s e
  rw [h]
  rfl

/-- The four outcomes of a DECODE in range (R132). -/
theorem finishDecode_status (s : State) (e : ScanEnd) : (finishDecode s e).status = .noCompleteFrame ∨
    (finishDecode s e).status = .frame ∨ (finishDecode s e).status = .checksumOrFramingError ∨
    (finishDecode s e).status = .capacityExceeded := by
  obtain ⟨w, -, h⟩ | ⟨k, w, -, -, h⟩ | ⟨k, w, -, -, h⟩ | ⟨k, w, -, h⟩ := finishDecode_cases s e <;> simp [h]

theorem finishDecode_status_ne (s : State) (e : ScanEnd) :
    (finishDecode s e).status ≠ .ok ∧ (finishDecode s e).status ≠ .invalidArgument := by
  obtain h | h | h | h := finishDecode_status s e <;> simp [h]

/-! ### Invariants of every step -/

/-- Settles O15: reset sets the record and its image, and every other register to 0. -/
theorem resetStateMeetsTheInvariant : Obligations.ResetStateMeetsTheInvariant :=
  have hok : Params.vectors.ok = true := by decide
  { params := hok
    st := initState_fits hok
    bank := imageOf_fits hok (initState_fits hok)
    argOff := by decide
    argLen := by decide
    resCount := by decide
    resLen := by decide
    ctlOut := by decide
    memWf := reset_memory.1
    memWithin := reset_memory.2 }

/-- Settles O16: each thing a step can do keeps the invariant. -/
theorem everyStepKeepsTheInvariant : Obligations.EveryStepKeepsTheInvariant := by
  intro s t hinv hstep
  obtain ⟨-, rfl⟩ | ⟨rest, w, -, h⟩ | ⟨rest, g, -, rfl⟩ | ⟨rest, off, len, -, rfl⟩ | ⟨rest, off, len, -, rfl⟩ |
    ⟨rest, off, width, v, -, rfl⟩ | ⟨rest, r, v, -, -, rfl⟩ | ⟨rest, off, v, -, htouch, rfl⟩ |
    ⟨rest, off, width, v, -, -, rfl⟩ := step_cases hstep
  · exact hinv
  · exact exec_keeps_inv (withHost_inv hinv rest) h
  · exact hardReset_inv (withHost_inv hinv rest) g
  · exact withHost_inv hinv _
  · exact withHost_inv hinv _
  · exact observe_inv (withHost_inv hinv rest) v
  · exact writeReg_inv (withHost_inv hinv rest) r v
  · exact withMem_inv (withHost_inv hinv rest) (Memory.wf_write hinv.memWf _ _)
      (Memory.within_write hinv.memWithin _ htouch)
  · exact withHost_inv hinv rest

theorem exec_keeps_params (h : exec i s = .next t) : t.params = s.params := by
  cases does_of_exec h <;> simp

/-- Settles O17: no instruction writes the parameters, and no other step does. -/
theorem parametersNeverChange : Obligations.ParametersNeverChange := by
  intro s t hstep
  obtain ⟨-, rfl⟩ | ⟨rest, w, -, h⟩ | ⟨rest, g, -, rfl⟩ | ⟨rest, off, len, -, rfl⟩ | ⟨rest, off, len, -, rfl⟩ |
    ⟨rest, off, width, v, -, rfl⟩ | ⟨rest, r, v, -, -, rfl⟩ | ⟨rest, off, v, -, -, rfl⟩ |
    ⟨rest, off, width, v, -, -, rfl⟩ := step_cases hstep
  case inr.inl => exact exec_keeps_params (s := withHost s rest) h
  all_goals simp

/-! ### Every instruction -/

theorem encodeFrame_completes (kind : Kind) (seq : BitVec 3) (s : State) : ∃ t, encodeFrame kind seq s = .next t := by
  by_cases hfit : rangeOk s = true ∧ (frameBytes s.params kind seq (payloadOf kind s)).length ≤ s.params.ebufSize
  · exact ⟨_, encodeFrame_ok hfit.1 hfit.2⟩
  · exact ⟨_, encodeFrame_refused fun hrange => Nat.not_le.1 fun hlen => hfit ⟨hrange, hlen⟩⟩

theorem execDecode_completes (s : State) : ∃ t, execDecode s = .next t := by
  by_cases hrange : rangeOk s = true
  · exact ⟨_, execDecode_ok hrange⟩
  · exact ⟨_, if_neg hrange⟩

theorem execSetState_completes (s : State) : ∃ t, execSetState s = .next t := by
  by_cases himage : imageOk s.params s.bank = true
  · exact ⟨_, execSetState_ok himage⟩
  · exact ⟨_, execSetState_refused himage⟩

/-- Settles O18: the commands with operands to check answer a next state whether they are turned away or not, and every
other instruction has one outcome. -/
theorem noInstructionTraps : Obligations.NoInstructionTraps := by
  intro i s
  cases i
  case encodeData seq => exact encodeFrame_completes .data seq s
  case encodeAck seq => exact encodeFrame_completes .ack seq s
  case encodeNack seq => exact encodeFrame_completes .nack seq s
  case decode => exact execDecode_completes s
  case setState => exact execSetState_completes s
  all_goals exact ⟨_, rfl⟩

/-- Settles O19: every command that is not turned away ends with another status. -/
theorem refusedCommandsChangeNothingElse : Obligations.RefusedCommandsChangeNothingElse := by
  intro i s t hcommand h hstatus
  cases does_of_exec h with
  | turnedAway _ => exact turnedAway_refuse s
  | decode _ => exact absurd hstatus (finishDecode_status_ne _ _).2
  | internal r hno => rw [hcommand] at hno; cases hno
  | resetState | encode kind seq | getState | setState _ => cases hstatus

/-- Settles O20: by what a command can do, OK is the status of the four commands that succeed with it, and the decoder's
statuses are DECODE's. -/
theorem statusCodesAndTheirWriters : Obligations.StatusCodesAndTheirWriters := by
  refine ⟨by decide, fun x => by cases x <;> decide, fun i s t hcommand h => ?_⟩
  cases does_of_exec h with
  | turnedAway _ => simp
  | resetState | getState | setState _ => simp
  | encode kind seq => exact ⟨fun _ => .inl ⟨seq, encodeInstr_cases kind seq⟩, by simp⟩
  | decode _ => exact ⟨fun hok => absurd hok (finishDecode_status_ne _ _).1, fun _ => rfl⟩
  | internal r hno => rw [hcommand] at hno; cases hno

/-! ### The writers of `st` and `CTL_OUT` -/

/-- R16, R27: `st` is written by three commands, and `CTL_OUT` by one. -/
theorem exec_decoder_writers (h : exec i s = .next t) :
    (t.st ≠ s.st → i = .decode ∨ i = .resetState ∨ i = .setState) ∧ (t.ctlOut ≠ s.ctlOut → i = .decode) := by
  cases does_of_exec h <;> simp

/-- The word of a command is its code (R66). -/
theorem eq_of_decodeCmd {v w : Word} (h : decodeCmd w = i) (hi : encode i = some (.cmd v)) : w = v := by
  have hcode := (meansCode_decodeCmd Params.vectors w).2
  rw [h, hi] at hcode
  cases hcode
  rfl

theorem writesCmd_of_decodeCmd {rest : List HostEvent} {v w : Word} (hhost : s.host = writeEvent .cmd w :: rest)
    (h : decodeCmd w = i) (hi : encode i = some (.cmd v)) : WritesCmd s v :=
  ⟨rest, eq_of_decodeCmd h hi ▸ hhost⟩

/-- Settles O21: over the steps, a written word is the code of the command it runs, and besides commands only the hardware
reset writes these registers. -/
theorem onlyTheNamedCommandsWriteDecoderRegisters : Obligations.OnlyTheNamedCommandsWriteDecoderRegisters := by
  refine ⟨fun i s t => exec_decoder_writers, fun s t hstep => ?_⟩
  obtain ⟨-, rfl⟩ | ⟨rest, w, hhost, h⟩ | ⟨rest, g, hhost, -⟩ | ⟨rest, off, len, -, rfl⟩ | ⟨rest, off, len, -, rfl⟩ |
    ⟨rest, off, width, v, -, rfl⟩ | ⟨rest, r, v, -, -, rfl⟩ | ⟨rest, off, v, -, -, rfl⟩ |
    ⟨rest, off, width, v, -, -, rfl⟩ := step_cases hstep
  case inr.inl =>
    obtain ⟨hst, hctl⟩ := exec_decoder_writers h
    refine ⟨fun hne => ?_, fun hne => .inl (writesCmd_of_decodeCmd hhost (hctl hne) rfl)⟩
    obtain hi | hi | hi := hst hne
    · exact .inr (.inl (writesCmd_of_decodeCmd hhost hi rfl))
    · exact .inl (writesCmd_of_decodeCmd hhost hi rfl)
    · exact .inr (.inr (.inl (writesCmd_of_decodeCmd hhost hi rfl)))
  case inr.inr.inl => exact ⟨fun _ => .inr (.inr (.inr ⟨g, rest, hhost⟩)), fun _ => .inr ⟨g, rest, hhost⟩⟩
  all_goals simp

end Sys2Proof.Machine
end

section
/-! PROOFS. The internal functions and the control byte classes, run on their own (R64, R73, R81, R82, R84, R85). -/

namespace Sys2Proof

/-- R84: the control byte as a number. -/
theorem ctlEncode_eq_ofNat (kind : Kind) (seq : BitVec 3) : ctlEncode kind seq = match kind with
    | .data => BitVec.ofNat 8 (0x10 + 2 * seq.toNat)
    | .ack => BitVec.ofNat 8 (0x01 + 32 * seq.toNat)
    | .nack => BitVec.ofNat 8 (0x09 + 32 * seq.toNat) := by
  revert seq
  cases kind <;> decide

/-- R85: the descriptor by the remainders and quotients of the control byte. -/
theorem ctlDecode_eq_ite (c : Byte) : ctlDecode c =
    if c.toNat % 2 = 0 then ⟨.data, BitVec.ofNat 3 (c.toNat / 2)⟩
    else if c.toNat % 16 = 1 then ⟨.ack, BitVec.ofNat 3 (c.toNat / 32)⟩
    else ⟨.nack, BitVec.ofNat 3 (c.toNat / 32)⟩ := by
  revert c
  decide +kernel

namespace Machine

/-! ### The control byte classes -/

/-- The descriptor of a class's row (R64); none for an instruction that is no control byte class. -/
def classDescriptor : Instr → Option Descriptor
  | .ctlI ns _ _ => some ⟨.data, ns⟩
  | .ctlSRr _ nr => some ⟨.ack, nr⟩
  | .ctlSRnr _ nr | .ctlSRej _ nr | .ctlSSrej _ nr | .ctlU _ nr => some ⟨.nack, nr⟩
  | .resetState | .encodeData _ | .encodeAck _ | .encodeNack _ | .encodeKind3 _ | .decode | .getState | .setState
  | .reserved5 _ | .reserved6 _ | .reserved7 _ | .illegalHighBits _
  | .crcStep _ _ | .escEncodeOne _ | .escDecodeOne _ _ | .ctlEncode _ _ | .ctlDecode _ => none

/-- Running a class records its row's descriptor and changes nothing else. -/
theorem exec_of_classDescriptor {i : Instr} {d : Descriptor} (h : classDescriptor i = some d) (s : State) :
    exec i s = .next (withFn s (.descriptor d)) := by
  cases i <;> cases h <;> rfl

/-- R64, R85: the class of a byte has the descriptor `CTL_DECODE` gives, byte by byte. -/
theorem classDescriptor_decodeCtl (c : Byte) : classDescriptor (decodeCtl c) = some (ctlDecode c) := by
  revert c
  decide +kernel

theorem exec_decodeCtl (c : Byte) (s : State) : exec (decodeCtl c) s = .next (withFn s (.descriptor (ctlDecode c))) :=
  exec_of_classDescriptor (classDescriptor_decodeCtl c) s

/-- R64: the six mask and match pairs part the 256 bytes. -/
theorem one_class_matches (c : Byte) :
    [c &&& 0x01#8 == 0x00#8, c &&& 0x0F#8 == 0x01#8, c &&& 0x0F#8 == 0x05#8, c &&& 0x0F#8 == 0x09#8,
      c &&& 0x0F#8 == 0x0D#8, c &&& 0x03#8 == 0x03#8].count true = 1 := by
  revert c
  decide +kernel

/-- R64: the descriptor by the class a byte matches. -/
theorem ctlDecode_of_match (c : Byte) :
    (c &&& 0x01#8 = 0x00#8 → ctlDecode c = ⟨.data, c.extractLsb' 1 3⟩) ∧
    (c &&& 0x0F#8 = 0x01#8 → ctlDecode c = ⟨.ack, c.extractLsb' 5 3⟩) ∧
    (c &&& 0x0F#8 = 0x05#8 ∨ c &&& 0x0F#8 = 0x09#8 ∨ c &&& 0x0F#8 = 0x0D#8 ∨ c &&& 0x03#8 = 0x03#8 →
      ctlDecode c = ⟨.nack, c.extractLsb' 5 3⟩) := by
  revert c
  decide +kernel

/-! ### The obligations -/

/-- Settles O29: each function's value is its definition's, with the control codec written out as numbers. -/
theorem internalFunctionsGiveTheirValues : Obligations.InternalFunctionsGiveTheirValues := by
  refine fun s c b pending kind seq => ⟨rfl, rfl, ?_, ?_, ?_⟩
  · show Host.Outcome.next (withFn s (.resolved (escDecodeOne s.params b pending).1 (escDecodeOne s.params b pending).2)) = _
    by_cases hesc : b = s.params.esc <;> cases pending <;> simp [escDecodeOne, hesc, withFn]
  · exact congrArg (fun c => Host.Outcome.next (withFn s (.control c))) (ctlEncode_eq_ofNat kind seq)
  · exact congrArg (fun d => Host.Outcome.next (withFn s (.descriptor d))) (ctlDecode_eq_ite b)

/-- Settles O30: each class records its row's descriptor. -/
theorem controlClassesGiveTheirDescriptor : Obligations.ControlClassesGiveTheirDescriptor :=
  fun s _ _ _ _ => ⟨exec_of_classDescriptor rfl s, exec_of_classDescriptor rfl s, exec_of_classDescriptor rfl s,
    exec_of_classDescriptor rfl s, exec_of_classDescriptor rfl s, exec_of_classDescriptor rfl s⟩

/-- Settles O31: the classes part the bytes, each with the descriptor of its row, which its class records. -/
theorem controlByteClassesCoverAllBytes : Obligations.ControlByteClassesCoverAllBytes := by
  intro c s
  obtain ⟨hdata, hack, hnack⟩ := ctlDecode_of_match c
  exact ⟨one_class_matches c, hdata, hack, hnack, exec_decodeCtl c s⟩

end Machine
end Sys2Proof
end

section
/-! PROOFS. The default checksums keep the consistency law (R77): folding a word's bytes is XOR with the word and then one
round for each of its bits, and a checksum XOR its own complement is all ones, whatever the string. -/

namespace Sys2Proof

/-- The `k` low bytes of a word, least significant first (R75). -/
def lowBytes {n : Nat} (k : Nat) (m : BitVec n) : List Byte := (List.range k).map fun j => (m >>> (8 * j)).setWidth 8

section
variable {n : Nat} (poly : BitVec n)

theorem lowBytes_succ (k : Nat) (m : BitVec n) : lowBytes (k + 1) m = m.setWidth 8 :: lowBytes k (m >>> 8) := by
  simp [lowBytes, List.range_succ_eq_map, Function.comp_def, Nat.mul_succ, Nat.add_comm, BitVec.shiftRight_add]

theorem crcRounds_add (j k : Nat) (c : BitVec n) : crcRounds poly (j + k) c = crcRounds poly k (crcRounds poly j c) := by
  rw [crcRounds_eq_iterate, crcRounds_eq_iterate, crcRounds_eq_iterate, Nat.add_comm, Function.iterate_add_apply]

theorem low_byte_of_xor (c m : BitVec n) : (c ^^^ m) &&& 0xFF#n = (c ^^^ (m.setWidth 8).setWidth n) &&& 0xFF#n := by
  apply BitVec.eq_of_getLsbD_eq
  intro i hi
  simp only [BitVec.getLsbD_and, BitVec.getLsbD_xor, BitVec.getLsbD_setWidth, getLsbD_low_byte_mask]
  by_cases h : i < 8 <;> simp [hi, h]

/-- Eight rounds of a checksum XOR a word fold the word's low byte, and leave its upper bytes for the rounds to come. -/
theorem crcRounds_xor_eq_fcsStep (c m : BitVec n) :
    crcRounds poly 8 (c ^^^ m) = fcsStep poly c (m.setWidth 8) ^^^ (m >>> 8) := by
  have hzero : crcRounds poly 8 (c ^^^ m) = fcsStep poly (c ^^^ m) 0#8 := by simp [fcsStep]
  rw [hzero, fcsStep_eq_table, fcsStep_eq_table poly c, ← low_byte_of_xor, BitVec.ushiftRight_xor_distrib,
    BitVec.setWidth_zero, BitVec.xor_zero]
  ac_rfl

/-- Folding the bytes of a word is XOR with the word and one round for each bit. -/
theorem foldl_fcsStep_lowBytes (k : Nat) (c m : BitVec n) (hm : m >>> (8 * k) = 0#n) :
    (lowBytes k m).foldl (fcsStep poly) c = crcRounds poly (8 * k) (c ^^^ m) := by
  induction k generalizing c m with
  | zero =>
    obtain rfl : m = 0#n := by simpa using hm
    simp [lowBytes, crcRounds_zero]
  | succ k ih =>
    have hrest : (m >>> 8) >>> (8 * k) = 0#n := by rwa [← BitVec.shiftRight_add, Nat.add_comm, ← Nat.mul_succ]
    rw [lowBytes_succ, List.foldl_cons, ih _ _ hrest, ← crcRounds_xor_eq_fcsStep, ← crcRounds_add, Nat.add_comm,
      ← Nat.mul_succ]

/-- Folding the bytes of a checksum's complement brings any checksum to the same value. -/
theorem foldl_fcsStep_complement (k : Nat) (hn : n = 8 * k) (c ones : BitVec n) :
    (lowBytes k (c ^^^ ones)).foldl (fcsStep poly) c = crcRounds poly n ones := by
  rw [foldl_fcsStep_lowBytes poly k c _ (BitVec.ushiftRight_eq_zero (Nat.le_of_eq hn)), ← BitVec.xor_assoc, BitVec.xor_self,
    BitVec.zero_xor, ← hn]

end

theorem crcRounds_ones16 : crcRounds 0x8408#16 16 0xFFFF#16 = 0xF0B8#16 := by decide +kernel

theorem crcRounds_ones32 : crcRounds 0xEDB88320#32 32 0xFFFFFFFF#32 = 0xDEBB20E3#32 := by decide +kernel

/-! ### The default instances -/

section
variable {p : Params}

theorem lsbFirst_eq_lowBytes32 (hw : p.crcWidth = .w32) (v : Word) : lsbFirst p v = lowBytes 4 v := by
  simp [lsbFirst, lowBytes, Params.fcsLen, Params.crcBits, hw]

theorem lsbFirst_eq_lowBytes16 (hw : p.crcWidth = .w16) (v : BitVec 16) : lsbFirst p (v.setWidth 32) = lowBytes 2 v := by
  have hfcs : p.fcsLen = 2 := by simp [Params.fcsLen, Params.crcBits, hw]
  simp only [lsbFirst, lowBytes, hfcs, ← BitVec.setWidth_ushiftRight (show 16 ≤ 32 by decide),
    BitVec.setWidth_setWidth_of_le _ (show 8 ≤ 32 by decide)]

variable (hcrc : p.crc = .standard)
include hcrc

theorem crcLaw_standard16 (hw : p.crcWidth = .w16) (s : List Byte) : Machine.CrcLawAt p s := by
  obtain ⟨hinit, hgood, hinv⟩ := crcConstants_standard16 hcrc hw
  have hfold : crcFold p (crcInit p) s = (s.foldl (fcsStep 0x8408#16) 0xFFFF#16).setWidth 32 :=
    hinit ▸ crcFold_standard16 hcrc hw 0xFFFF#16 s
  have hinverted (x : BitVec 16) : x.setWidth 32 ^^^ 0xFFFF#32 = (x ^^^ 0xFFFF#16).setWidth 32 := by
    rw [BitVec.setWidth_xor]
    rfl
  rw [Machine.CrcLawAt, crcFold_append, fcsBytes, hinv, hfold, hinverted, lsbFirst_eq_lowBytes16 hw,
    crcFold_standard16 hcrc hw, foldl_fcsStep_complement _ 2 rfl, crcRounds_ones16, hgood]
  rfl

theorem crcLaw_standard32 (hw : p.crcWidth = .w32) (s : List Byte) : Machine.CrcLawAt p s := by
  obtain ⟨-, hgood, hinv⟩ := crcConstants_standard32 hcrc hw
  rw [Machine.CrcLawAt, crcFold_append, fcsBytes, hinv, lsbFirst_eq_lowBytes32 hw, crcFold_standard32 hcrc hw,
    foldl_fcsStep_complement _ 4 rfl, crcRounds_ones32, hgood]

end

namespace Machine

/-- Settles O36: at either width, folding the FCS bytes runs the rounds over all ones, which end at the good value. -/
theorem standardChecksumsMeetTheLaw : Obligations.StandardChecksumsMeetTheLaw := by
  intro p s hcrc
  cases hw : p.crcWidth with
  | w16 => exact crcLaw_standard16 hcrc hw s
  | w32 => exact crcLaw_standard32 hcrc hw s

end Machine
end Sys2Proof
end

section
/-! PROOFS. The frame's shape (R57, R58, R89) and what ENCODE depends on (R95). -/

namespace Sys2Proof.Machine

/-- The bytes of the wire frame between its two FLAGs (R57). -/
def frameBodyBytes (p : Params) (kind : Kind) (seq : BitVec 3) (payload : List Byte) : List Byte :=
  escEncode p (frameContents kind seq payload ++ fcsBytes p (frameContents kind seq payload))

theorem wireFrame_eq (p : Params) (kind : Kind) (seq : BitVec 3) (payload : List Byte) :
    wireFrame p kind seq payload = p.flag :: (frameBodyBytes p kind seq payload ++ [p.flag]) := rfl

/-- Settles O41: the body is the escaped contents and FCS bytes, and the escape codec is reversible. -/
theorem frameBytesAreTheWireFrame : Obligations.FrameBytesAreTheWireFrame := fun p kind seq payload =>
  have hframe := frameBytes_eq_wireFrame p kind seq payload
  ⟨frameBodyBytes p kind seq payload, hframe, hframe.trans (wireFrame_eq p kind seq payload), flag_not_mem_escEncode p _,
    escDecode_escEncode p _⟩

/-- ENCODE is decided by its operands: it completes when the range and the frame fit, and is turned away otherwise. -/
theorem encodeFrame_iff {kind : Kind} {seq : BitVec 3} {s t : State} : encodeFrame kind seq s = .next t ↔
    t = if rangeOk s = true ∧ (frameBytes s.params kind seq (payloadOf kind s)).length ≤ s.params.ebufSize
      then encoded kind seq s else refuse s := by
  split
  · rename_i hfit
    rw [encodeFrame_ok hfit.1 hfit.2, Host.Outcome.next.injEq, eq_comm]
  · rename_i hunfit
    rw [encodeFrame_refused fun hrange => Nat.not_le.1 fun hlen => hunfit ⟨hrange, hlen⟩, Host.Outcome.next.injEq, eq_comm]

/-- Settles O39: with the same parameters, range and payload the two commands pass the same checks and write the same
frame. -/
theorem encodeDependsOnlyOnItsOperands : Obligations.EncodeDependsOnlyOnItsOperands := by
  intro s s' t t' seq i hinv hinv' hparams hoff hlen hbytes hi h h'
  obtain ⟨kind, rfl⟩ := exists_encodeInstr hi
  have hpayload : payloadOf kind s' = payloadOf kind s := by rw [payloadOf_eq_ite, payloadOf_eq_ite, hoff, hlen, hbytes]
  have hrange : rangeOk s' = rangeOk s := by rw [rangeOk, hoff, hlen, hparams, rangeOk]
  rw [exec_encodeInstr, encodeFrame_iff] at h h'
  rw [hrange, hparams, hpayload] at h'
  by_cases hfit : rangeOk s = true ∧ (frameBytes s.params kind seq (payloadOf kind s)).length ≤ s.params.ebufSize
  · rw [if_pos hfit] at h h'
    subst h h'
    have hframe := bufHolds_encoded (kind := kind) (seq := seq) hinv.memWf
    have hframe' := bufHolds_encoded (kind := kind) (seq := seq) hinv'.memWf
    rw [hparams, hpayload] at hframe'
    exact ⟨rfl, by simp only [encoded_resCount, hparams, hpayload], rfl, hframe'.trans hframe.symm⟩
  · rw [if_neg hfit] at h h'
    subst h h'
    exact ⟨rfl, rfl, rfl, rfl⟩

end Sys2Proof.Machine
end

section
/-! PROOFS. Saving and restoring the record, and what it holds while the decoder seeks a start (R19, R23, R128, R131). -/

namespace Sys2Proof.Machine

/-- The image of a record holds the record (R34, R127, R128). -/
theorem stateOf_imageOf (st : DecState) : stateOf (imageOf st) = st := by
  obtain ⟨hesc, hstart, hend⟩ := flags_packFlags st.esc st.startValid st.endValid
  simp only [stateOf, imageOf, hesc, hstart, hend]

/-- The image of a record with no end recorded passes the check of R129. -/
theorem imageOk_imageOf {p : Params} {st : DecState} (h : st.Fits p) : imageOk p (imageOf st) = true := by
  obtain ⟨-, -, hend⟩ := flags_packFlags st.esc st.startValid st.endValid
  exact imageOk_iff.2 ⟨hend.trans h.noEnd.1, h.noEnd.2, h.out⟩

/-- Settles O27: the image passes the check, and holds the record it was made of. -/
theorem saveAndRestoreTheRecord : Obligations.SaveAndRestoreTheRecord := by
  intro a b c hinv hget hparams hbank
  cases hget
  have himage : c.bank = imageOf a.st := hbank
  have hok : imageOk c.params c.bank = true := by rw [hparams, himage]; exact imageOk_imageOf hinv.st
  refine ⟨_, execSetState_ok hok, rfl, ?_⟩
  rw [respond_st, withSt_st, himage, stateOf_imageOf]

/-! ### The record while seeking (log 13) -/

/-- The scan's own form of `State.SeekClean`. -/
def Scan.SeekClean (p : Params) (w : Scan) : Prop := w.st.startValid = false → w.st = initState p

@[simp] theorem countByte_startValid (p : Params) (v : Byte) (w : Scan) :
    (countByte p v w).st.startValid = w.st.startValid := by
  simp only [countByte, placeByte]
  split
  · rfl
  · split <;> rfl

/-- A byte leaves a seeking decoder as it was, or starts a frame; In-frame bytes do not end the phase without ending the
scan (R26). -/
theorem scanByte_keeps_seekClean {p : Params} {b : Byte} {nf : Bool} {w w' : Scan} (hw : w.SeekClean p)
    (h : scanByte p b nf w = .next w') : w'.SeekClean p := by
  obtain rfl | ⟨-, -, -, -, rfl⟩ | ⟨hvalid, -, -, rfl⟩ | ⟨hvalid, -, -, -, -, rfl⟩ := scanByte_next h
  · exact hw
  · exact fun hseek => by cases hseek
  · exact fun hseek => absurd (hvalid.symm.trans hseek) nofun
  · exact fun hseek => absurd (hvalid.symm.trans ((countByte_startValid _ _ _).symm.trans hseek)) nofun

theorem finishDecode_seekClean {s : State} (hs : s.SeekClean) : (finishDecode s (decodeScan s)).SeekClean := by
  have hend := scan_ends (p := s.params) (fun _ _ _ _ => scanByte_keeps_seekClean) (inputBytes s) 0
    ⟨s.st, s.ctlOut, s.mem⟩ hs
  obtain ⟨w, he, h⟩ | ⟨k, w, -, -, h⟩ | ⟨k, w, -, -, h⟩ | ⟨k, w, -, h⟩ := finishDecode_cases s (decodeScan s)
  · rw [← decodeScan, he] at hend
    rw [h]
    exact hend
  all_goals rw [h]; exact fun _ => rfl

/-- Every instruction but SET_STATE keeps the record at `INIT_STATE` while the decoder seeks. -/
theorem exec_keeps_seekClean {i : Instr} {s t : State} (hi : i ≠ .setState) (hs : s.SeekClean) (h : exec i s = .next t) :
    t.SeekClean := by
  cases does_of_exec h with
  | resetState => exact fun _ => rfl
  | decode _ => exact finishDecode_seekClean hs
  | setState _ => exact absurd rfl hi
  | turnedAway _ | encode kind seq | getState | internal r _ => exact hs

/-- A bank that R129 accepts and whose record, seeking, has `start` 1 (93_implementation_defined.md row 10). -/
def seekingImage : Bank := { imageOf (initState Params.vectors) with startPos := 1 }

/-- Settles O28: no other instruction ends the condition, and a SET_STATE of `seekingImage` after reset does. -/
theorem seekingRecordStaysInitial : Obligations.SeekingRecordStaysInitial := by
  refine ⟨fun i s t => exec_keeps_seekClean, withBank State.reset seekingImage, _, ?_, fun _ => rfl,
    execSetState_ok (by decide), rfl, by decide, by decide⟩
  have hreset := resetStateMeetsTheInvariant
  exact withBank_inv hreset { hreset.bank with startPos := by decide }

end Sys2Proof.Machine
end

section
/-! PROOFS. DECODE of a chunk of one byte, case by case (R100 to R116), and of a chunk in the Seeking-start phase. -/

namespace Sys2Proof.Machine

variable {s : State} {b : Byte} {w : Scan} {e : ScanEnd}

/-! ### DECODE by its scan -/

/-- Where the scan of a DECODE starts (R97). -/
def scanOf (s : State) : Scan := ⟨s.st, s.ctlOut, s.mem⟩

/-- DECODE in range ends by the end of its scan. -/
theorem execDecode_of_scan (hrange : s.argOff + s.argLen ≤ s.params.ibufSize)
    (hscan : scan s.params (inputBytes s) 0 (scanOf s) = e) : execDecode s = .next (finishDecode s e) :=
  hscan ▸ execDecode_ok (rangeOk_iff.2 hrange)

theorem scan_cons_next {p : Params} {w' : Scan} {rest : List Byte} (h : scanByte p b (nextIsFlag p rest) w = .next w')
    (i : Nat) : scan p (b :: rest) i w = scan p rest (i + 1) w' := by
  rw [scan, h]

theorem scan_one_next {p : Params} {w' : Scan} (i : Nat) (h : scanByte p b false w = .next w') :
    scan p [b] i w = .exhausted w' := by simp only [scan, nextIsFlag_nil, h]

theorem scan_one_terminated {p : Params} {w' : Scan} (i : Nat) (h : scanByte p b false w = .terminated w') :
    scan p [b] i w = .terminated i w' := by simp only [scan, nextIsFlag_nil, h]

theorem scan_one_abandoned {p : Params} (i : Nat) (h : scanByte p b false w = .abandoned) :
    scan p [b] i w = .abandoned i w := by simp only [scan, nextIsFlag_nil, h]

theorem inputBytes_one (hlen : s.argLen = 1) : inputBytes s = [readBuf s .ibuf s.argOff] := by
  rw [inputBytes, readBufBytes, hlen, Memory.readBytes_succ, Memory.readBytes_zero, readBuf]

section
variable (hlen : s.argLen = 1) (hrange : s.argOff + 1 ≤ s.params.ibufSize) (hbyte : readBuf s .ibuf s.argOff = b)
include hlen hrange hbyte

theorem execDecode_one (he : scan s.params [b] 0 (scanOf s) = e) : execDecode s = .next (finishDecode s e) :=
  execDecode_of_scan (by rwa [hlen]) (by rwa [inputBytes_one hlen, hbyte])

theorem execDecode_one_next (h : scanByte s.params b false (scanOf s) = .next w) :
    execDecode s = .next (respond (keepScan s w) .noCompleteFrame 1 0) := by
  rw [execDecode_one hlen hrange hbyte (scan_one_next 0 h), finishDecode, hlen]

theorem execDecode_one_terminated (h : scanByte s.params b false (scanOf s) = .terminated w) :
    execDecode s = .next (finishDecode s (.terminated 0 w)) :=
  execDecode_one hlen hrange hbyte (scan_one_terminated 0 h)

theorem execDecode_one_abandoned (h : scanByte s.params b false (scanOf s) = .abandoned) :
    execDecode s = .next (respond (resetDecoder s) .capacityExceeded 1 0) :=
  execDecode_one hlen hrange hbyte (scan_one_abandoned 0 h)

end

/-! ### The place of a resolved byte (R107 to R109) -/

section
variable {p : Params} {v : Byte}

/-- The record after a resolved byte, but for the cursor (R106). -/
def countedRecord (p : Params) (v : Byte) (st : DecState) : DecState :=
  { st with esc := false, crc := crcStep p st.crc v, pos := st.pos + 1 }

theorem countByte_address (h : w.st.pos < w.st.startPos + 2) :
    countByte p v w = { w with st := countedRecord p v w.st } := by
  simp [countByte, placeByte, countedRecord, Nat.ne_of_lt h, Nat.lt_asymm h]

theorem countByte_control (h : w.st.pos = w.st.startPos + 2) :
    countByte p v w = { w with st := countedRecord p v w.st, ctl := packCtl (ctlDecode v) } := by
  simp [countByte, placeByte, countedRecord, h]

theorem countByte_stored (h : w.st.startPos + 2 < w.st.pos) : countByte p v w =
    { w with
      st := { countedRecord p v w.st with out := w.st.out + 1 }
      mem := Memory.write w.mem (bufBase .dbuf + w.st.out) v } := by
  simp [countByte, placeByte, countedRecord, Nat.ne_of_gt h, h]

theorem scanByte_posMax {nf : Bool} (hv : w.st.startValid = true) (hb : b ≠ p.flag) (hpos : w.st.pos = p.posMax) :
    scanByte p b nf w = .abandoned := by
  simp [scanByte, hv, hb, frameByte_posMax hpos]

theorem scanByte_full {nf : Bool} (hv : w.st.startValid = true) (hb : b ≠ p.flag) (he : b ≠ p.esc) (hf : dbufFull p w) :
    scanByte p b nf w = .abandoned := by
  simp [scanByte, hv, hb, frameByte_full he hf]

end

/-! ### The obligations -/

/-- Settles O47: the look-ahead of a one-byte chunk is no FLAG, so the byte is discarded only right after the start; the
conditions are those of R112 at the end it records. -/
theorem inFrameFlagEndsTheFrame : Obligations.InFrameFlagEndsTheFrame := by
  intro s hvalid hlen hrange hbyte
  refine ⟨fun hpos => ?_, fun hpos => ?_⟩
  · exact execDecode_one_next hlen hrange hbyte (scanByte_flag_after_start hvalid hpos)
  · have hend : exec .decode s = .next (finishDecode s (.terminated 0 (endedAt (scanOf s)))) :=
      execDecode_one_terminated hlen hrange hbyte (scanByte_terminates hvalid hpos)
    have hiff := frameValid_iff (p := s.params) (st := (endedAt (scanOf s)).st)
    refine ⟨fun hframe => ?_, fun hframe => ?_⟩
    · rw [hend, finishDecode, if_pos (hiff.2 hframe)]
      rfl
    · rw [hend, finishDecode, if_neg (mt hiff.1 hframe)]
      rfl

/-- Settles O48: ESC is counted at any position below `POS_MAX`. -/
theorem inFrameEscIsCounted : Obligations.InFrameEscIsCounted :=
  fun _ hvalid hlen hrange hbyte hpos => execDecode_one_next hlen hrange hbyte (scanByte_esc hvalid hpos)

/-- Settles O49: the byte is resolved and counted, and its position names its place. -/
theorem inFrameDataByteIsPlacedByPosition : Obligations.InFrameDataByteIsPlacedByPosition := by
  intro s b v hinv hvalid hlen hrange hbyte hflag hesc hpos hv
  have hcount (hfull : ¬ dbufFull s.params (scanOf s)) : exec .decode s =
      .next (respond (keepScan s (countByte s.params v (scanOf s))) .noCompleteFrame 1 0) := by
    subst hv
    exact execDecode_one_next hlen hrange hbyte (scanByte_data hvalid hflag hesc hpos hfull)
  refine ⟨fun hplace => ?_, fun hplace => ?_, fun hplace hroom => ?_⟩
  · rw [hcount fun hfull => Nat.lt_asymm hplace hfull.1, countByte_address hplace]
    rfl
  · rw [hcount fun hfull => Nat.ne_of_gt hfull.1 hplace, countByte_control hplace]
    rfl
  · refine ⟨_, hcount fun hfull => Nat.not_le.2 hroom hfull.2, ?_⟩
    rw [countByte_stored hplace]
    exact ⟨Memory.read_write_self hinv.memWf _ _, fun a ha => Memory.read_write_other hinv.memWf _ ha, rfl⟩

/-- Settles O50: at `POS_MAX` no byte but FLAG is counted, and with `DBUF` full none is stored. -/
theorem fullCounterOrBufferAbandonsTheFrame : Obligations.FullCounterOrBufferAbandonsTheFrame := by
  intro s b hvalid hlen hrange hbyte hflag hcause
  refine execDecode_one_abandoned hlen hrange hbyte ?_
  obtain hpos | ⟨hesc, hplace, hfull⟩ := hcause
  · exact scanByte_posMax hvalid hflag hpos
  · exact scanByte_full hvalid hflag hesc ⟨hplace, hfull⟩

/-- Settles O45: the bytes before the FLAG are skipped, and the FLAG, last in its chunk, starts a frame or finds the counter
full. -/
theorem seekingSkipsToTheStartFlag : Obligations.SeekingSkipsToTheStartFlag := by
  intro s skipped _ hseek hrange hskip
  have hdecode {y : List Byte} {e : ScanEnd} (hchunk : inputBytes s = skipped ++ y)
      (hscan : scan s.params y (0 + skipped.length) (scanOf s) = e) : exec .decode s = .next (finishDecode s e) :=
    execDecode_of_scan hrange (by rw [hchunk, scan_seek_skip hskip y 0 hseek, hscan])
  refine ⟨fun hchunk => ?_, fun hchunk hpos => ?_, fun hchunk hpos => ?_⟩
  · exact hdecode (hchunk.trans (List.append_nil _).symm) rfl
  · exact hdecode hchunk (scan_one_next _ (scanByte_start hseek hpos))
  · have hlen : 0 + skipped.length + 1 = s.argLen := by
      rw [← length_inputBytes, inputBytes, hchunk, List.length_append, List.length_singleton, Nat.zero_add]
    rw [hdecode hchunk (scan_one_abandoned _ (scanByte_start_posMax hseek hpos)), finishDecode, hlen]
    rfl

/-! ### A received control byte (log 8) -/

/-- `POS_MAX` is odd or 0, so a control byte at position 2 can be counted (R9). -/
theorem posMax_ne_two (p : Params) : p.posMax ≠ 2 := by
  unfold Params.posMax
  cases p.cw with
  | zero => decide
  | succ n => rw [Nat.pow_succ]; omega

/-- The byte presented for control byte `c`: `c`, or its escaped form where it is reserved (R58; log 8). -/
def presentedByte (p : Params) (c : Byte) : Byte := if c == p.flag || c == p.esc then c ^^^ 0x20#8 else c

theorem presentedByte_not_reserved (p : Params) (c : Byte) : presentedByte p c ≠ p.flag ∧ presentedByte p c ≠ p.esc := by
  unfold presentedByte
  by_cases h : c = p.flag ∨ c = p.esc
  · rw [if_pos (by simpa using h)]
    exact escaped_not_reserved h
  · rw [if_neg (by simpa using h)]
    exact not_or.1 h

/-- With an escape pending exactly where `c` is reserved, the presented byte resolves to `c` (R106). -/
theorem resolvedByte_presentedByte {p : Params} {c : Byte} (h : w.st.esc = (c == p.flag || c == p.esc)) :
    resolvedByte (presentedByte p c) w = c := by
  unfold resolvedByte presentedByte
  rw [h]
  split
  · exact xor_20_twice c
  · rfl

theorem decodeCmd_decode_word : decodeCmd 2#32 = .decode := by decide

/-- DECODE of a presented control byte resolves it and writes its descriptor (R108). -/
theorem step_presentControl {s : State} (hs : s.Inv) (c : Byte) :
    ∃ t, step (presentControl c s) = .next t ∧ t.ctlOut = packCtl (ctlDecode c) := by
  have hstep : step (presentControl c s) = exec .decode (withHost (presentControl c s) s.host) :=
    decodeCmd_decode_word ▸ step_write_cmd rfl
  obtain ⟨hflag, hesc⟩ := presentedByte_not_reserved s.params c
  have hsize : 0 + 1 ≤ s.params.ibufSize := by
    have hok := hs.params
    simp only [Params.ok, Params.sizeOk, Bool.and_eq_true, decide_eq_true_eq] at hok
    omega
  have hbyte : readBuf (withHost (presentControl c s) s.host) .ibuf 0 = presentedByte s.params c :=
    Memory.read_write_self hs.memWf _ _
  have hfull : ¬ dbufFull s.params (scanOf (withHost (presentControl c s) s.host)) := fun hfull =>
    absurd hfull.1 (Nat.lt_irrefl 2)
  have hdecode := execDecode_one_next (s := withHost (presentControl c s) s.host) rfl hsize hbyte
    (scanByte_data rfl hflag hesc (Ne.symm (posMax_ne_two s.params)) hfull)
  refine ⟨_, hstep.trans hdecode, ?_⟩
  rw [countByte_control rfl]
  exact congrArg (packCtl ∘ ctlDecode) (resolvedByte_presentedByte rfl)

/-- R27, R65: a packed descriptor as a number. -/
theorem toNat_packCtl (d : Descriptor) :
    (packCtl d).toNat = (kindCode d.kind).toNat + 4 * d.seq.toNat := by
  obtain ⟨kind, seq⟩ := d
  revert seq
  cases kind <;> decide

/-- Settles O33: both the class and DECODE give the descriptor of `CTL_DECODE`. -/
theorem receivedControlByteReachesCtlOut : Obligations.ReceivedControlByteReachesCtlOut := by
  intro s c hinv
  obtain ⟨t, hstep, hctl⟩ := step_presentControl hinv c
  refine ⟨t, _, ctlDecode c, hstep, exec_decodeCtl c s, rfl, ?_⟩
  rw [hctl, toNat_packCtl]
  cases (ctlDecode c).kind <;> rfl

end Sys2Proof.Machine
end

section
/-! PROOFS. DECODE of any chunk: where it writes, what its outcomes say, and who writes each buffer (R41 to R43, R56, R132,
R155). -/

namespace Sys2Proof.Machine

variable {p : Params} {s t : State} {w w' : Scan} {e : ScanEnd}

/-! ### The end of a scan -/

/-- The scan as it stands at its end. -/
def ScanEnd.final : ScanEnd → Scan
  | .exhausted w | .terminated _ w | .abandoned _ w => w

@[simp] theorem finishDecode_mem (s : State) (e : ScanEnd) : (finishDecode s e).mem = e.final.mem := by
  obtain ⟨w, rfl, h⟩ | ⟨k, w, rfl, -, h⟩ | ⟨k, w, rfl, -, h⟩ | ⟨k, w, rfl, h⟩ := finishDecode_cases s e
  all_goals rw [h]; rfl

@[simp] theorem finishDecode_ctlOut (s : State) (e : ScanEnd) : (finishDecode s e).ctlOut = e.final.ctl := by
  obtain ⟨w, rfl, h⟩ | ⟨k, w, rfl, -, h⟩ | ⟨k, w, rfl, -, h⟩ | ⟨k, w, rfl, h⟩ := finishDecode_cases s e
  all_goals rw [h]; rfl

/-- A property of the scan by the number of bytes used up, where a terminating FLAG does not matter, holds at the end. -/
theorem scan_final {P : Nat → Scan → Prop} (hstep : ∀ k b nf w w', P k w → scanByte p b nf w = .next w' → P (k + 1) w')
    (hend : ∀ k w, P k w → P k (endedAt w)) (chunk : List Byte) (i : Nat) (w : Scan) (hw : P i w) :
    ∃ k ≤ i + chunk.length, P k (scan p chunk i w).final := by
  induction chunk generalizing i w with
  | nil => exact ⟨i, le_refl i, hw⟩
  | cons b rest ih =>
    rw [scan, List.length_cons]
    cases h : scanByte p b (nextIsFlag p rest) w with
    | next w1 =>
      obtain ⟨k, hk, hP⟩ := ih (i + 1) w1 (hstep i b _ w w1 hw h)
      exact ⟨k, by omega, hP⟩
    | terminated w1 =>
      obtain ⟨-, -, -, -, rfl⟩ := scanByte_terminated h
      exact ⟨i, by omega, hend i w hw⟩
    | abandoned => exact ⟨i, by omega, hw⟩

/-! ### The cursor -/

/-- A resolved byte is not stored, or stored at the cursor, which advances (R109). -/
theorem countByte_cursor (p : Params) (v : Byte) (w : Scan) :
    ((countByte p v w).st.out = w.st.out ∧ (countByte p v w).mem = w.mem) ∨
    (w.st.startPos + 2 < w.st.pos ∧ (countByte p v w).st.out = w.st.out + 1 ∧
      (countByte p v w).mem = Memory.write w.mem (bufBase .dbuf + w.st.out) v) := by
  obtain h | h | h := Nat.lt_trichotomy w.st.pos (w.st.startPos + 2)
  · exact .inl (by rw [countByte_address h]; exact ⟨rfl, rfl⟩)
  · exact .inl (by rw [countByte_control h]; exact ⟨rfl, rfl⟩)
  · exact .inr (by rw [countByte_stored h]; exact ⟨h, rfl, rfl⟩)

/-- A byte of the scan stores nothing, or one byte at the cursor, below `DBUF_SIZE`. -/
theorem scanByte_next_cursor {b : Byte} {nf : Bool} (h : scanByte p b nf w = .next w') :
    (w'.st.out = w.st.out ∧ w'.mem = w.mem) ∨
    (w.st.out < p.dbufSize ∧ w'.st.out = w.st.out + 1 ∧ ∃ v, w'.mem = Memory.write w.mem (bufBase .dbuf + w.st.out) v) := by
  obtain rfl | ⟨-, -, -, -, rfl⟩ | ⟨-, -, -, rfl⟩ | ⟨-, -, -, -, hfull, rfl⟩ := scanByte_next h
  · exact .inl ⟨rfl, rfl⟩
  · exact .inl ⟨rfl, rfl⟩
  · exact .inl ⟨rfl, rfl⟩
  · obtain hkept | ⟨hplace, hout, hmem⟩ := countByte_cursor p (resolvedByte b w) w
    · exact .inl hkept
    · exact .inr ⟨Nat.not_le.1 fun hle => hfull ⟨hplace, hle⟩, hout, _, hmem⟩

/-- After `k` bytes the scan that began at cursor `out` over the buffers `m` has stored at most `k` bytes, none past
`DBUF_SIZE`, and has changed no other byte. -/
structure StoredFrom (p : Params) (out : Nat) (m : Memory) (k : Nat) (w : Scan) : Prop where
  wf : Memory.wf w.mem = true
  le : out ≤ w.st.out
  count : w.st.out ≤ out + k
  room : w.st.out ≤ p.dbufSize
  other : ∀ a, ¬ (bufBase .dbuf + out ≤ a ∧ a < bufBase .dbuf + w.st.out) → Memory.read w.mem a = Memory.read m a

theorem storedFrom_step {out k : Nat} {m : Memory} {b : Byte} {nf : Bool} (hw : StoredFrom p out m k w)
    (h : scanByte p b nf w = .next w') : StoredFrom p out m (k + 1) w' := by
  obtain ⟨hwf, hle, hcount, hroom, hother⟩ := hw
  obtain ⟨hout, hmem⟩ | ⟨hlt, hout, v, hmem⟩ := scanByte_next_cursor h
  · exact ⟨hmem ▸ hwf, hout ▸ hle, by omega, hout ▸ hroom, by rwa [hout, hmem]⟩
  · refine ⟨hmem ▸ Memory.wf_write hwf _ _, by omega, by omega, by omega, fun a ha => ?_⟩
    rw [hmem, Memory.read_write_other hwf _ (by omega)]
    exact hother a (by omega)

/-- DECODE changes no buffer byte outside the part of `DBUF` from its cursor on, one byte for each chunk byte (R155). -/
theorem read_finishDecode_other (hs : s.Inv) {a : Nat}
    (ha : ¬ (0x20000 + s.st.out ≤ a ∧ a < 0x20000 + min (s.st.out + s.argLen) s.params.dbufSize)) :
    Memory.read (finishDecode s (decodeScan s)).mem a = Memory.read s.mem a := by
  obtain ⟨k, hk, hstored⟩ := scan_final (P := StoredFrom s.params s.st.out s.mem) (fun _ _ _ _ _ => storedFrom_step)
    (fun _ _ hw => ⟨hw.wf, hw.le, hw.count, hw.room, hw.other⟩) (inputBytes s) 0 (scanOf s)
    ⟨hs.memWf, le_refl _, le_refl _, hs.st.out, fun _ _ => rfl⟩
  rw [length_inputBytes] at hk
  rw [finishDecode_mem]
  refine hstored.other a fun hin => ha ?_
  have hcount := hstored.count
  have hroom := hstored.room
  simp only [bufBase] at hin
  omega

/-- Settles O43: DECODE in range completes with what its scan changed. -/
theorem decodeWritesOnlyFromItsCursor : Obligations.DecodeWritesOnlyFromItsCursor := by
  intro s hinv hrange
  refine ⟨_, execDecode_ok (rangeOk_iff.2 hrange), ?_, fun a ha => read_finishDecode_other hinv ha⟩
  obtain ⟨st, ctl, m, x, c, l, h⟩ := finishDecode_frame s (decodeScan s)
  rw [h]
  rfl

/-! ### The writers of the buffers -/

/-- DECODE writes neither `IBUF` nor `EBUF` (R41, R43). -/
theorem readBuf_finishDecode (hs : s.Inv) {b : Buf} (hb : b ≠ .dbuf) {a : Nat} (ha : a < bufSize s.params b) :
    readBuf (finishDecode s (decodeScan s)) b a = readBuf s b a := by
  have hsize := size_le hs.params
  refine read_finishDecode_other hs fun hin => ?_
  cases b
  case dbuf => exact hb rfl
  all_goals simp only [bufBase, bufSize] at ha hin; omega

/-- ENCODE writes neither `IBUF` nor `DBUF` (R41, R42). -/
theorem readBuf_encoded (hs : s.Inv) (kind : Kind) (seq : BitVec 3) {b : Buf} (hb : b ≠ .ebuf) {a : Nat}
    (ha : a < bufSize s.params b) : readBuf (encoded kind seq s) b a = readBuf s b a := by
  have hsize := size_le hs.params
  refine read_encoded_outside hs.memWf fun hin => ?_
  cases b
  case ebuf => exact hb rfl
  all_goals simp only [bufBase, bufSize] at ha hin; omega

/-- Settles O22: only ENCODE and DECODE write the buffers, each its own. -/
theorem eachBufferHasItsOneWriter : Obligations.EachBufferHasItsOneWriter := by
  intro i s t a hinv h
  cases does_of_exec h with
  | encode kind seq =>
    exact ⟨fun ha => readBuf_encoded hinv kind seq (b := .ibuf) nofun ha,
      fun ha hne => absurd (readBuf_encoded hinv kind seq (b := .dbuf) nofun ha) hne,
      fun _ _ => ⟨seq, encodeInstr_cases kind seq⟩⟩
  | decode _ =>
    exact ⟨fun ha => readBuf_finishDecode hinv (b := .ibuf) nofun ha, fun _ _ => rfl,
      fun ha hne => absurd (readBuf_finishDecode hinv (b := .ebuf) nofun ha) hne⟩
  | turnedAway _ | resetState | getState | setState _ | internal r _ =>
    exact ⟨fun _ => rfl, fun _ hne => absurd rfl hne, fun _ hne => absurd rfl hne⟩

/-- The bytes of `IBUF` are the same after any instruction. -/
theorem readBufBytes_ibuf_of_exec {i : Instr} (hs : s.Inv) (h : exec i s = .next t) {a n : Nat}
    (hrange : a + n ≤ s.params.ibufSize) : readBufBytes t .ibuf a n = readBufBytes s .ibuf a n :=
  Memory.readBytes_congr fun k hk => by
    have hbyte := (eachBufferHasItsOneWriter i s t (a + k) hs h).1 (by omega)
    simpa only [readBuf, Nat.add_assoc] using hbyte

/-! ### The outcomes -/

/-- A byte of the chunk is a byte of `IBUF` (R97). -/
theorem getElem?_inputBytes {k : Nat} {b : Byte} (h : (inputBytes s)[k]? = some b) :
    k < s.argLen ∧ readBuf s .ibuf (s.argOff + k) = b := by
  obtain ⟨hk, hget⟩ := List.getElem?_eq_some_iff.1 h
  simp only [inputBytes, readBufBytes, Memory.getElem_readBytes] at hget
  exact ⟨by simpa using hk, by rwa [readBuf, ← Nat.add_assoc]⟩

/-- A scan that found a terminating FLAG found it in the chunk (R104). -/
theorem decodeScan_terminated (hs : s.Inv) {k : Nat} (h : decodeScan s = .terminated k w) :
    k < s.argLen ∧ readBuf s .ibuf (s.argOff + k) = s.params.flag ∧ w.st.out ≤ s.params.dbufSize := by
  have hend := decodeScan_ends hs
  rw [h] at hend
  obtain ⟨-, hbyte, w0, hw0, rfl, -⟩ := hend
  obtain ⟨hk, hflag⟩ := getElem?_inputBytes hbyte
  exact ⟨hk, hflag, hw0.st.out⟩

/-- Settles O44: a range past `IBUF` is turned away, and otherwise the outcome is one of the four ends of the scan. -/
theorem decodeOutcomeTable : Obligations.DecodeOutcomeTable := by
  intro s t hinv h
  obtain ⟨hrange, rfl⟩ | ⟨hrange, rfl⟩ := execDecode_cases h
  · have hpast : s.params.ibufSize < s.argOff + s.argLen := by simpa [rangeOk] using hrange
    simp [hpast, turnedAway_refuse]
  have hin : ¬ s.params.ibufSize < s.argOff + s.argLen := Nat.not_lt.2 (rangeOk_iff.1 hrange)
  obtain ⟨w, -, hend⟩ | ⟨k, w, hscan, hvalid, hend⟩ | ⟨k, w, hscan, -, hend⟩ | ⟨k, w, hscan, hend⟩ :=
    finishDecode_cases s (decodeScan s)
  · simp [hend, hin]
  · obtain ⟨hk, hflag, hroom⟩ := decodeScan_terminated hinv hscan
    obtain ⟨-, hout, -⟩ := frameValid_iff.1 hvalid
    have hlen : w.st.out - s.params.fcsLen + s.params.fcsLen ≤ s.params.dbufSize := by omega
    simp [hend, hin, hk, hflag, hlen, keepScan]
  · obtain ⟨hk, hflag, -⟩ := decodeScan_terminated hinv hscan
    simp [hend, hin, hk, hflag, keepScan]
  · have hcount := decodeScan_ends hinv
    rw [hscan] at hcount
    obtain ⟨-, hk, -⟩ := hcount
    rw [length_inputBytes, Nat.zero_add] at hk
    simp [hend, hin, Nat.succ_le_of_lt hk, keepScan]

end Sys2Proof.Machine
end

section
/-! PROOFS. DECODE goes on where it stopped: a chunk whose first bytes are gone, a cut chunk, and two DECODEs in a row (R99,
R101, R103, R111, R124). -/

namespace Sys2Proof.Machine

variable {s : State} {w : Scan}

/-- A state a later DECODE starts from: the scan's changes `w`, some results, and new arguments. -/
def resumed (s : State) (w : Scan) (status : Status) (count len off n : Nat) : State :=
  { respond (keepScan s w) status count len with argOff := off, argLen := n }

/-- A scan that began `k` bytes later ends the command alike, with `k` more bytes counted. -/
theorem finishDecode_shift {k n : Nat} (hlen : s.argLen = k + n) (w : Scan) (x : Status) (c l off : Nat) (e : ScanEnd) :
    finishDecode s (e.shift k) =
      { finishDecode (resumed s w x c l off n) e with
        argOff := s.argOff, argLen := s.argLen, resCount := k + (finishDecode (resumed s w x c l off n) e).resCount } := by
  have hparams : (resumed s w x c l off n).params = s.params := rfl
  cases e with
  | exhausted w' => exact congrArg (respond (keepScan s w') .noCompleteFrame · 0) hlen
  | terminated j w' =>
    simp only [ScanEnd.shift, finishDecode, hparams]
    split <;> rfl
  | abandoned j w' => rfl

/-- The first bytes of a chunk are the chunk of the DECODE that names only them. -/
theorem inputBytes_append {m n : Nat} (hlen : s.argLen = m + n) :
    inputBytes s = inputBytes { s with argLen := m } ++ readBufBytes s .ibuf (s.argOff + m) n := by
  rw [inputBytes, hlen, readBufBytes, Memory.readBytes_add, Nat.add_assoc]
  rfl

/-- Settles O46: the first FLAG leaves the scan as it was. -/
theorem flagBeforeFlagIsDiscarded : Obligations.FlagBeforeFlagIsDiscarded := by
  intro s t u rest hrange hchunk ht hu
  have hlen : s.argLen = 1 + (s.argLen - 1) := by
    have := congrArg List.length (show inputBytes s = _ from hchunk)
    rw [length_inputBytes, List.length_cons] at this
    omega
  have htail : inputBytes { s with argOff := s.argOff + 1, argLen := s.argLen - 1 } = s.params.flag :: rest := by
    have hcut := inputBytes_append hlen
    rw [inputBytes, hchunk, inputBytes_one (s := { s with argLen := 1 }) rfl] at hcut
    exact (List.cons.inj hcut).2.symm
  have hscan : decodeScan s = (decodeScan { s with argOff := s.argOff + 1, argLen := s.argLen - 1 }).shift 1 := by
    rw [decodeScan, decodeScan, htail, ← scan_shift, inputBytes, hchunk, scan, (nextIsFlag_cons _ _ _).2 rfl,
      scanByte_flag_before_flag]
  have hstart : { s with argOff := s.argOff + 1, argLen := s.argLen - 1 } =
      resumed s (scanOf s) s.status s.resCount s.resLen (s.argOff + 1) (s.argLen - 1) := rfl
  cases (execDecode_ok (rangeOk_iff.2 hrange)).symm.trans ht
  cases (execDecode_ok (rangeOk_iff.2 (by show s.argOff + 1 + (s.argLen - 1) ≤ s.params.ibufSize; omega))).symm.trans hu
  rw [hscan, finishDecode_shift hlen (scanOf s) s.status s.resCount s.resLen (s.argOff + 1), hstart, Nat.add_comm 1]

/-! ### A cut chunk -/

theorem readBufBytes_getLast {b : Buf} {a n : Nat} {v : Byte} (h : (readBufBytes s b a n).getLast? = some v) :
    0 < n ∧ readBuf s b (a + n - 1) = v := by
  cases n with
  | zero => cases h
  | succ n =>
    rw [readBufBytes, Memory.readBytes_add, Memory.readBytes_succ, Memory.readBytes_zero, List.getLast?_concat] at h
    exact ⟨Nat.succ_pos n, by simpa [readBuf, Nat.add_assoc] using h⟩

theorem readBufBytes_head {b : Buf} {a n : Nat} {v : Byte} (h : (readBufBytes s b a n).head? = some v) :
    0 < n ∧ readBuf s b a = v := by
  cases n with
  | zero => cases h
  | succ n =>
    rw [readBufBytes, Memory.readBytes_succ, List.head?_cons] at h
    exact ⟨Nat.succ_pos n, by simpa [readBuf] using h⟩

/-- The scan of a chunk is the scan of its first `m` bytes, gone on with the rest where the cut parts no two FLAGs. -/
theorem decodeScan_cut {m n : Nat} (hlen : s.argLen = m + n)
    (hcut : ¬ (0 < m ∧ 0 < n ∧ readBuf s .ibuf (s.argOff + m - 1) = s.params.flag ∧
      readBuf s .ibuf (s.argOff + m) = s.params.flag)) :
    decodeScan s =
      (decodeScan { s with argLen := m }).andThen s.params (readBufBytes s .ibuf (s.argOff + m) n) m := by
  have hflags : ¬ ((inputBytes { s with argLen := m }).getLast? = some s.params.flag ∧
      (readBufBytes s .ibuf (s.argOff + m) n).head? = some s.params.flag) := fun ⟨hlast, hhead⟩ => by
    obtain ⟨hm, hlast⟩ := readBufBytes_getLast hlast
    obtain ⟨hn, hhead⟩ := readBufBytes_head hhead
    exact hcut ⟨hm, hn, hlast, hhead⟩
  rw [decodeScan, inputBytes_append hlen, scan_append hflags, length_inputBytes, Nat.zero_add]
  rfl

/-- A DECODE that ends with NO_COMPLETE_FRAME has used up its chunk (R111). -/
theorem finishDecode_noCompleteFrame {e : ScanEnd} (h : (finishDecode s e).status = .noCompleteFrame) :
    ∃ w, e = .exhausted w ∧ finishDecode s e = respond (keepScan s w) .noCompleteFrame s.argLen 0 := by
  obtain hnone | ⟨k, w, -, -, hend⟩ | ⟨k, w, -, -, hend⟩ | ⟨k, w, -, hend⟩ := finishDecode_cases s e
  · exact hnone
  all_goals rw [hend] at h; cases h

/-- An outcome other than NO_COMPLETE_FRAME is that of any chunk that goes on after it. -/
theorem finishDecode_andThen {m : Nat} {y : List Byte} {i : Nat} {e : ScanEnd}
    (h : (finishDecode { s with argLen := m } e).status ≠ .noCompleteFrame) :
    finishDecode s (e.andThen s.params y i) = { finishDecode { s with argLen := m } e with argLen := s.argLen } := by
  cases e with
  | exhausted w => exact absurd rfl h
  | terminated k w =>
    simp only [ScanEnd.andThen, finishDecode]
    split <;> rfl
  | abandoned k w => rfl

/-- Settles O51: the scan of the whole goes on where that of the first part ended; the chunk of the rest is still in `IBUF`,
where DECODE writes nothing. -/
theorem decodeGoesOnAcrossACut : Obligations.DecodeGoesOnAcrossACut := by
  intro s u m n hinv hlen hrange hcut hu
  have hsplit := decodeScan_cut hlen hcut
  have hm : m < 2 ^ s.params.cw := Nat.lt_of_le_of_lt (by omega) hinv.argLen
  have hinv' : State.Inv { s with argLen := m } := { hinv with argLen := hm }
  have hrange' : s.argOff + m ≤ s.params.ibufSize := by omega
  have hwhole : exec .decode s = .next (finishDecode s (decodeScan s)) := execDecode_ok (rangeOk_iff.2 hrange)
  have hbytes : readBufBytes u .ibuf (s.argOff + m) n = readBufBytes s .ibuf (s.argOff + m) n :=
    readBufBytes_ibuf_of_exec hinv' hu (by show s.argOff + m + n ≤ s.params.ibufSize; omega)
  cases (execDecode_ok (rangeOk_iff.2 hrange')).symm.trans hu
  rw [hwhole, hsplit]
  refine ⟨fun hstatus => ?_, fun hstatus => congrArg _ (finishDecode_andThen hstatus)⟩
  obtain ⟨w, he, hend⟩ := finishDecode_noCompleteFrame hstatus
  rw [hend] at hbytes ⊢
  have hnext : decodeScan (resumed s w .noCompleteFrame m 0 (s.argOff + m) n) =
      scan s.params (readBufBytes s .ibuf (s.argOff + m) n) 0 w := by rw [← hbytes]; rfl
  refine ⟨_, execDecode_ok (s := resumed s w .noCompleteFrame m 0 (s.argOff + m) n)
    (rangeOk_iff.2 (by show s.argOff + m + n ≤ s.params.ibufSize; omega)), ?_⟩
  rw [he, ScanEnd.andThen, scan_shift, ← hnext, finishDecode_shift hlen w .noCompleteFrame m 0 (s.argOff + m)]

/-! ### Two DECODEs in a row -/

/-- From `INIT_STATE` a FLAG, followed by FLAG or not, is used up (R101). -/
theorem scanByte_flag_from_initState {p : Params} (hp : p.ok = true) (nf : Bool) (hst : w.st = initState p) :
    ∃ w', scanByte p p.flag nf w = .next w' := by
  cases nf
  · have hpos : w.st.pos ≠ p.posMax := by
      have hsize := size_lt hp
      simp only [Params.ok, Params.sizeOk, Bool.and_eq_true, decide_eq_true_eq] at hp
      rw [hst]
      show 0 ≠ p.posMax
      omega
    exact ⟨_, scanByte_start (by rw [hst]; rfl) hpos⟩
  · exact ⟨w, scanByte_flag_before_flag p w⟩

/-- DECODE of a chunk whose first byte is used up counts at least that byte. -/
theorem resCount_pos_of_first_byte {b : Byte} {rest : List Byte} {w' : Scan} (hchunk : inputBytes s = b :: rest)
    (h : scanByte s.params b (nextIsFlag s.params rest) (scanOf s) = .next w') :
    1 ≤ (finishDecode s (decodeScan s)).resCount := by
  have hscan : decodeScan s = (scan s.params rest 0 w').shift 1 := by
    show scan s.params (inputBytes s) 0 (scanOf s) = _
    rw [hchunk, scan_cons_next h, scan_shift]
  have hlen : s.argLen = 1 + rest.length := by
    rw [← length_inputBytes, hchunk, List.length_cons, Nat.add_comm]
  rw [hscan, finishDecode_shift hlen (scanOf s) s.status 0 0 0]
  exact Nat.le_add_right 1 _

/-- Settles O54: a DECODE that consumes nothing has found a terminating FLAG at once and reset `st`, so the next one begins
with that FLAG, from `INIT_STATE`, and uses it up. -/
theorem twoDecodesConsumeAByte : Obligations.TwoDecodesConsumeAByte := by
  intro s t u n hinv hlen hrange ht hn hrange' hu
  by_cases hzero : t.resCount = 0
  case neg => omega
  obtain ⟨hinvalid, -, hok, hnone, hflag, -, -, hfull⟩ := decodeOutcomeTable s t hinv ht
  have hstatus : t.status = .frame ∨ t.status = .checksumOrFramingError := by
    cases hs : t.status with
    | ok => exact absurd hs hok
    | noCompleteFrame => have := (hnone hs).1; omega
    | frame => exact .inl rfl
    | checksumOrFramingError => exact .inr rfl
    | invalidArgument => have := hinvalid.1 hs; omega
    | capacityExceeded => have := (hfull hs).1; omega
  obtain ⟨-, hbyte, hst⟩ := hflag hstatus
  have hparams : t.params = s.params := exec_keeps_params ht
  rw [hzero, Nat.add_zero] at hbyte hu hrange'
  obtain ⟨k, rfl⟩ : ∃ k, n = k + 1 := ⟨n - 1, by omega⟩
  have hchunk : inputBytes { t with argOff := s.argOff, argLen := k + 1 } =
      t.params.flag :: readBufBytes t .ibuf (s.argOff + 1) k := by
    show readBufBytes t .ibuf s.argOff (k + 1) = _
    rw [readBufBytes_ibuf_of_exec hinv ht hrange', readBufBytes_ibuf_of_exec hinv ht (by omega), hparams, ← hbyte]
    exact Memory.readBytes_succ _ _ _
  obtain ⟨w', hfirst⟩ := scanByte_flag_from_initState (w := scanOf { t with argOff := s.argOff, argLen := k + 1 })
    (hparams ▸ hinv.params) (nextIsFlag t.params (readBufBytes t .ibuf (s.argOff + 1) k)) (hparams ▸ hst)
  have hpos := resCount_pos_of_first_byte hchunk hfirst
  cases (execDecode_ok (rangeOk_iff.2 (by show s.argOff + (k + 1) ≤ t.params.ibufSize; rwa [hparams]))).symm.trans hu
  exact Nat.le_add_left_of_le hpos

end Sys2Proof.Machine
end

section
/-! PROOFS. What DECODE depends on (R152, R153, R155): a byte's effect is decided by the record alone, so two scans that
differ in their buffers only stay so, and write the same bytes. -/

namespace Sys2Proof.Machine

variable {p : Params} {s s' t t' : State} {w w' : Scan}

/-! ### The effect of a byte -/

/-- What the scan does with a byte (R100 to R110). -/
inductive Effect where
  | skip
  | start
  | escape
  | count
  | terminate
  | abandon

/-- An effect carried out on a scan. -/
def Effect.apply (p : Params) (b : Byte) (w : Scan) : Effect → ByteStep
  | .skip => .next w
  | .start => .next (startedAt w)
  | .escape => .next (escaped w)
  | .count => .next (countByte p (resolvedByte b w) w)
  | .terminate => .terminated (endedAt w)
  | .abandon => .abandoned

/-- The record decides the effect of a byte, whatever `CTL_OUT` and the buffers hold. -/
theorem scanByte_effect (p : Params) (b : Byte) (nf : Bool) (st : DecState) :
    ∃ f : Effect, ∀ w : Scan, w.st = st → scanByte p b nf w = f.apply p b w := by
  by_cases hflag : b = p.flag
  · subst hflag
    cases nf
    · by_cases hv : st.startValid = true
      · by_cases hpos : st.pos = st.startPos + 1
        · exact ⟨.skip, fun w hw => scanByte_flag_after_start (hw ▸ hv) (hw ▸ hpos)⟩
        · exact ⟨.terminate, fun w hw => scanByte_terminates (hw ▸ hv) (hw ▸ hpos)⟩
      · have hv : st.startValid = false := Bool.not_eq_true _ ▸ hv
        by_cases hpos : st.pos = p.posMax
        · exact ⟨.abandon, fun w hw => scanByte_start_posMax (hw ▸ hv) (hw ▸ hpos)⟩
        · exact ⟨.start, fun w hw => scanByte_start (hw ▸ hv) (hw ▸ hpos)⟩
    · exact ⟨.skip, fun w _ => scanByte_flag_before_flag p w⟩
  · by_cases hv : st.startValid = true
    · by_cases hpos : st.pos = p.posMax
      · exact ⟨.abandon, fun w hw => scanByte_posMax (hw ▸ hv) hflag (hw ▸ hpos)⟩
      · by_cases hesc : b = p.esc
        · exact ⟨.escape, fun w hw => hesc ▸ scanByte_esc (hw ▸ hv) (hw ▸ hpos)⟩
        · by_cases hfull : st.startPos + 2 < st.pos ∧ p.dbufSize ≤ st.out
          · exact ⟨.abandon, fun w hw => scanByte_full (hw ▸ hv) hflag hesc (by rwa [dbufFull, hw])⟩
          · exact ⟨.count, fun w hw => scanByte_data (hw ▸ hv) hflag hesc (hw ▸ hpos) (by rwa [dbufFull, hw])⟩
    · exact ⟨.skip, fun w hw => scanByte_seek_other (Bool.not_eq_true _ ▸ (hw ▸ hv)) hflag⟩

/-! ### Two scans side by side -/

/-- Two scans over buffers that began as `m` and `m'` agree on the record and on `CTL_OUT`, and each buffer byte holds the
same in both, or what it held at the start in both. -/
structure Alike (m m' : Memory) (w w' : Scan) : Prop where
  st : w'.st = w.st
  ctl : w'.ctl = w.ctl
  wf : Memory.wf w.mem = true
  wf' : Memory.wf w'.mem = true
  mem : ∀ a, Memory.read w'.mem a = Memory.read w.mem a ∨
    (Memory.read w'.mem a = Memory.read m' a ∧ Memory.read w.mem a = Memory.read m a)

/-- Two scans end alike: for the same cause, at the same byte. -/
inductive EndAlike (m m' : Memory) : ScanEnd → ScanEnd → Prop
  | exhausted {w w' : Scan} : Alike m m' w w' → EndAlike m m' (.exhausted w) (.exhausted w')
  | terminated (k : Nat) {w w' : Scan} : Alike m m' w w' → EndAlike m m' (.terminated k w) (.terminated k w')
  | abandoned (k : Nat) {w w' : Scan} : Alike m m' w w' → EndAlike m m' (.abandoned k w) (.abandoned k w')

section
variable {m m' : Memory}

theorem Alike.record (h : Alike m m' w w') {st st' : DecState} (hst : st' = st) :
    Alike m m' { w with st := st } { w' with st := st' } := ⟨hst, h.ctl, h.wf, h.wf', h.mem⟩

/-- The same byte written at the same place is alike. -/
theorem Alike.write (h : Alike m m' w w') (st : DecState) (ctl : BitVec 5) (x : Nat) (v : Byte) :
    Alike m m' ⟨st, ctl, Memory.write w.mem x v⟩ ⟨st, ctl, Memory.write w'.mem x v⟩ := by
  refine ⟨rfl, rfl, Memory.wf_write h.wf _ _, Memory.wf_write h.wf' _ _, fun a => ?_⟩
  by_cases ha : a = x
  · subst ha
    exact .inl ((Memory.read_write_self h.wf' _ _).trans (Memory.read_write_self h.wf _ _).symm)
  · simp only [Memory.read_write_other h.wf _ ha, Memory.read_write_other h.wf' _ ha]
    exact h.mem a

theorem Alike.countByte (h : Alike m m' w w') (v : Byte) : Alike m m' (countByte p v w) (countByte p v w') := by
  have hst := h.st
  obtain hp | hp | hp := Nat.lt_trichotomy w.st.pos (w.st.startPos + 2)
  · rw [countByte_address hp, countByte_address (hst ▸ hp), hst]
    exact h.record rfl
  · rw [countByte_control hp, countByte_control (hst ▸ hp), hst]
    exact ⟨rfl, rfl, h.wf, h.wf', h.mem⟩
  · rw [countByte_stored hp, countByte_stored (hst ▸ hp), hst, h.ctl]
    exact h.write _ _ _ v

/-- Two scans that are alike stay alike to their ends. -/
theorem scan_alike (h : Alike m m' w w') (chunk : List Byte) (i : Nat) :
    EndAlike m m' (scan p chunk i w) (scan p chunk i w') := by
  induction chunk generalizing i w w' with
  | nil => exact .exhausted h
  | cons b rest ih =>
    have hst := h.st
    obtain ⟨f, hf⟩ := scanByte_effect p b (nextIsFlag p rest) w.st
    rw [scan, scan, hf w rfl, hf w' hst]
    cases f with
    | skip => exact ih h (i + 1)
    | start => exact ih (w := startedAt w) (w' := startedAt w') (h.record (by simp only [hst])) (i + 1)
    | escape => exact ih (w := escaped w) (w' := escaped w') (h.record (by simp only [hst])) (i + 1)
    | count =>
      have hresolved : resolvedByte b w' = resolvedByte b w := by simp only [resolvedByte, hst]
      exact ih (hresolved ▸ h.countByte _) (i + 1)
    | terminate => exact .terminated i (h.record (by simp only [hst]))
    | abandon => exact .abandoned i h

/-- Commands whose scans end alike answer alike. -/
theorem finishDecode_alike {e e' : ScanEnd} (hparams : s'.params = s.params) (hlen : s'.argLen = s.argLen)
    (h : EndAlike m m' e e') :
    (finishDecode s' e').st = (finishDecode s e).st ∧ (finishDecode s' e').status = (finishDecode s e).status ∧
    (finishDecode s' e').resCount = (finishDecode s e).resCount ∧
    (finishDecode s' e').resLen = (finishDecode s e).resLen ∧ Alike m m' e.final e'.final := by
  cases h with
  | exhausted h => exact ⟨h.st, rfl, hlen, rfl, h⟩
  | terminated k h =>
    simp only [finishDecode, hparams, h.st]
    split <;> exact ⟨congrArg initState hparams, rfl, rfl, rfl, h⟩
  | abandoned k h => exact ⟨congrArg initState hparams, rfl, rfl, rfl, h⟩

end

/-! ### The obligations -/

/-- DECODE from two states with the same operands: its range, and in range its chunk, its record and `CTL_OUT`. -/
theorem execDecode_alike (hwf : Memory.wf s.mem = true) (hwf' : Memory.wf s'.mem = true) (hparams : s'.params = s.params)
    (hoff : s'.argOff = s.argOff) (hlen : s'.argLen = s.argLen) (hst : s'.st = s.st) (hctl : s'.ctlOut = s.ctlOut)
    (hchunk : rangeOk s = true → inputBytes s' = inputBytes s) (h : execDecode s = .next t) (h' : execDecode s' = .next t') :
    t'.st = t.st ∧ t'.ctlOut = t.ctlOut ∧ t'.status = t.status ∧ t'.resCount = t.resCount ∧ t'.resLen = t.resLen ∧
      ∀ a, Memory.read t'.mem a = Memory.read t.mem a ∨
        (Memory.read t'.mem a = Memory.read s'.mem a ∧ Memory.read t.mem a = Memory.read s.mem a) := by
  have hrange : rangeOk s' = rangeOk s := by rw [rangeOk, hoff, hlen, hparams, rangeOk]
  obtain ⟨hr, rfl⟩ | ⟨hr, rfl⟩ := execDecode_cases h <;> obtain ⟨hr', rfl⟩ | ⟨hr', rfl⟩ := execDecode_cases h'
  · exact ⟨hst, hctl, rfl, rfl, rfl, fun _ => .inr ⟨rfl, rfl⟩⟩
  · rw [hrange, hr] at hr'; cases hr'
  · rw [hrange, hr] at hr'; cases hr'
  · have hscan : EndAlike s.mem s'.mem (decodeScan s) (decodeScan s') := by
      rw [decodeScan, decodeScan, hparams, hchunk hr, hst, hctl]
      have hstart : Alike s.mem s'.mem ⟨s.st, s.ctlOut, s.mem⟩ ⟨s.st, s.ctlOut, s'.mem⟩ :=
        ⟨rfl, rfl, hwf, hwf', fun _ => .inr ⟨rfl, rfl⟩⟩
      exact scan_alike hstart _ _
    obtain ⟨hst, hstatus, hcount, hresLen, hend⟩ := finishDecode_alike hparams hlen hscan
    simp only [finishDecode_ctlOut, finishDecode_mem]
    exact ⟨hst, hend.ctl, hstatus, hcount, hresLen, hend.mem⟩

/-- Settles O52: the two scans start alike. -/
theorem decodeDependsOnlyOnItsOperands : Obligations.DecodeDependsOnlyOnItsOperands := by
  intro s s' t t' hinv hinv' hparams hoff hlen hst hctl hbytes h h'
  exact execDecode_alike hinv.memWf hinv'.memWf hparams hoff hlen hst hctl
    (fun _ => by rw [inputBytes, inputBytes, hoff, hlen, hbytes]) h h'

/-- An ENCODE leaves the decoder's registers, and leaves `IBUF` and `DBUF` by the one-writer rule. -/
theorem encodeFrame_keeps_decoder {kind : Kind} {seq : BitVec 3} (h : encodeFrame kind seq s = .next t) :
    t.params = s.params ∧ t.st = s.st ∧ t.ctlOut = s.ctlOut := by
  obtain rfl | ⟨-, -, rfl⟩ := encodeFrame_cases h <;> exact ⟨rfl, rfl, rfl⟩

/-- Settles O53: the ENCODE leaves all that the DECODE depends on, and the `DBUF` bytes the DECODE does not write. -/
theorem encodeDoesNotDisturbDecode : Obligations.EncodeDoesNotDisturbDecode := by
  intro s e t u i seq off len hinv hi he ht hu
  obtain ⟨kind, rfl⟩ := exists_encodeInstr hi
  have hinv' := exec_keeps_inv hinv he
  obtain ⟨hparams, hst, hctl⟩ := encodeFrame_keeps_decoder (exec_encodeInstr kind seq s ▸ he)
  have hchunk (hrange : rangeOk { s with argOff := off, argLen := len } = true) :
      inputBytes { e with argOff := off, argLen := len } = inputBytes { s with argOff := off, argLen := len } :=
    readBufBytes_ibuf_of_exec hinv he (rangeOk_iff.1 hrange)
  have hdbuf {a : Nat} (ha : a < s.params.dbufSize) : readBuf e .dbuf a = readBuf s .dbuf a := by
    by_contra hne
    have hdecode := (eachBufferHasItsOneWriter _ s e a hinv he).2.1 ha hne
    cases kind <;> cases hdecode
  obtain ⟨hst, hctl, hstatus, hcount, hlen, hmem⟩ := execDecode_alike (s := { s with argOff := off, argLen := len })
    (s' := { e with argOff := off, argLen := len }) hinv.memWf hinv'.memWf hparams rfl rfl hst hctl hchunk ht hu
  refine ⟨hst, hctl, hstatus, hcount, hlen, fun a ha => ?_⟩
  obtain hsame | ⟨hu, ht⟩ := hmem (bufBase .dbuf + a)
  · exact hsame
  · exact hu.trans ((hdbuf ha).trans ht.symm)

end Sys2Proof.Machine
end

section
/-! PROOFS. DECODE of a wire frame from `INIT_STATE` gives the descriptor and the payload back (R125). -/

namespace Sys2Proof.Machine

variable {p : Params} {w : Scan} {kind : Kind} {seq : BitVec 3} {payload rest : List Byte}

/-! ### Escaped bytes in a frame -/

/-- The scan in a frame after the payload or FCS bytes `s`: folded, counted escaped, and stored from the cursor on (R106,
R109). -/
def storedBytes (p : Params) (s : List Byte) (w : Scan) : Scan where
  st := { w.st with
    crc := crcFold p w.st.crc s
    pos := w.st.pos + (escEncode p s).length
    out := w.st.out + s.length }
  ctl := w.ctl
  mem := Memory.writeBytes w.mem (bufBase .dbuf + w.st.out) s

theorem storedBytes_cons (p : Params) (b : Byte) (s : List Byte) (w : Scan) :
    storedBytes p (b :: s) w = storedBytes p s (storedBytes p [b] w) := by
  simp only [storedBytes, escEncode_cons, escEncode_nil, List.append_nil, List.length_append, List.length_cons,
    List.length_nil, crcFold_cons, crcFold_nil, Memory.writeBytes]
  congr 2 <;> omega

/-- Past the control position, with no escape pending (R107). -/
structure InPayload (w : Scan) : Prop where
  valid : w.st.startValid = true
  noEsc : w.st.esc = false
  place : w.st.startPos + 2 < w.st.pos

theorem InPayload.storedBytes (h : InPayload w) (s : List Byte) : InPayload (storedBytes p s w) :=
  ⟨h.valid, h.noEsc, Nat.lt_of_lt_of_le h.place (Nat.le_add_right _ _)⟩

theorem scan_cons_data {b : Byte} (hvalid : w.st.startValid = true) (hflag : b ≠ p.flag) (hesc : b ≠ p.esc)
    (hpos : w.st.pos < p.posMax) (hfull : ¬ dbufFull p w) (i : Nat) :
    scan p (b :: rest) i w = scan p rest (i + 1) (countByte p (resolvedByte b w) w) :=
  scan_cons_next (scanByte_data hvalid hflag hesc (Nat.ne_of_lt hpos) hfull) i

/-- One escaped byte of the payload or the FCS: a plain byte is stored, and a reserved one after its ESC. -/
theorem scan_escEncodeOne {b : Byte} (h : InPayload w) (hpos : w.st.pos + (escEncodeOne p b).length ≤ p.posMax)
    (hroom : w.st.out < p.dbufSize) (i : Nat) :
    scan p (escEncodeOne p b ++ rest) i w = scan p rest (i + (escEncodeOne p b).length) (storedBytes p [b] w) := by
  obtain ⟨hvalid, hesc, hplace⟩ := h
  have hfull (w' : Scan) (hout : w'.st.out = w.st.out) : ¬ dbufFull p w' := fun hfull =>
    Nat.not_le.2 hroom (hout ▸ hfull.2)
  by_cases hb : b = p.flag ∨ b = p.esc
  · obtain ⟨hflag', hesc'⟩ := escaped_not_reserved hb
    simp only [escEncodeOne_reserved hb, List.length_cons, List.length_nil] at hpos
    have hresolved : resolvedByte (b ^^^ 0x20#8) (escaped w) = b := xor_20_twice b
    rw [escEncodeOne_reserved hb, List.cons_append, List.singleton_append,
      scan_cons_next (scanByte_esc hvalid (by omega)),
      scan_cons_data (w := escaped w) hvalid hflag' hesc' (show w.st.pos + 1 < p.posMax by omega) (hfull _ rfl), hresolved,
      countByte_stored (Nat.lt_succ_of_lt hplace)]
    simp [storedBytes, countedRecord, escaped, escEncodeOne_reserved hb, Memory.writeBytes, hesc]
  · obtain ⟨hflag, hne⟩ := not_or.1 hb
    simp only [escEncodeOne_plain hb, List.length_singleton] at hpos
    have hresolved : resolvedByte b w = b := by simp [resolvedByte, hesc]
    rw [escEncodeOne_plain hb, List.singleton_append, scan_cons_data hvalid hflag hne (by omega) (hfull _ rfl), hresolved,
      countByte_stored hplace]
    simp [storedBytes, countedRecord, escEncodeOne_plain hb, Memory.writeBytes, hesc]

/-- The escaped form of a byte string is stored as the string, if the counter and `DBUF` have room for it. -/
theorem scan_escEncode (s : List Byte) (h : InPayload w) (hpos : w.st.pos + (escEncode p s).length ≤ p.posMax)
    (hroom : w.st.out + s.length ≤ p.dbufSize) (i : Nat) :
    scan p (escEncode p s ++ rest) i w = scan p rest (i + (escEncode p s).length) (storedBytes p s w) := by
  induction s generalizing w i with
  | nil => rfl
  | cons b s ih =>
    simp only [escEncode_cons, List.length_append, List.length_cons] at hpos hroom
    rw [escEncode_cons, List.append_assoc, scan_escEncodeOne h (by omega) (by omega), storedBytes_cons p b s,
      List.length_append, ← Nat.add_assoc]
    refine ih (h.storedBytes [b]) ?_ ?_ _
    · simp only [storedBytes, escEncode_cons, escEncode_nil, List.append_nil]
      omega
    · simp only [storedBytes, List.length_singleton]
      omega

/-! ### A whole frame -/

/-- The scan in a frame that began in `INIT_STATE`, after its FLAG, address and control byte (R107, R108). -/
def atPayload (p : Params) (kind : Kind) (seq : BitVec 3) (w : Scan) : Scan where
  st := { initState p with
    crc := crcFold p (crcInit p) [addressByte, ctlEncode kind seq]
    startValid := true
    pos := 3 }
  ctl := packCtl ⟨kind, seq⟩
  mem := w.mem

/-- The scan before the closing FLAG of that frame. -/
def receivedFrame (p : Params) (kind : Kind) (seq : BitVec 3) (payload : List Byte) (w : Scan) : Scan :=
  storedBytes p (payload ++ fcsBytes p (frameContents kind seq payload)) (atPayload p kind seq w)

theorem not_reserved_of_escEncodeOne {b : Byte} (h : escEncodeOne p b = [b]) : b ≠ p.flag ∧ b ≠ p.esc := by
  rw [← not_or]
  intro hb
  rw [escEncodeOne_reserved hb] at h
  cases h

/-- FLAG, address and control byte, from `INIT_STATE`: neither is a reserved byte (R63). -/
theorem scan_frame_head (hst : w.st = initState p) (hpos : 3 ≤ p.posMax) :
    scan p (p.flag :: addressByte :: ctlEncode kind seq :: rest) 0 w = scan p rest 3 (atPayload p kind seq w) := by
  obtain ⟨haddr, haddr'⟩ := not_reserved_of_escEncodeOne (escEncodeOne_address p)
  obtain ⟨hctl, hctl'⟩ := not_reserved_of_escEncodeOne (escEncodeOne_ctlEncode p kind seq)
  obtain ⟨st, ctl, mem⟩ := w
  subst hst
  have hnf : nextIsFlag p (addressByte :: ctlEncode kind seq :: rest) = false :=
    Bool.not_eq_true _ ▸ mt (nextIsFlag_cons _ _ _).1 haddr
  have hstart : scanByte p p.flag (nextIsFlag p (addressByte :: ctlEncode kind seq :: rest)) ⟨initState p, ctl, mem⟩ =
      .next (startedAt ⟨initState p, ctl, mem⟩) := by
    rw [hnf]
    exact scanByte_start rfl (show 0 ≠ p.posMax by omega)
  rw [scan_cons_next hstart,
    scan_cons_data rfl haddr haddr' (show 1 < p.posMax by omega) fun hfull => absurd hfull.1 (by decide : ¬ 2 < 1),
    countByte_address (by decide : 1 < 2),
    scan_cons_data rfl hctl hctl' (show 2 < p.posMax by omega) fun hfull => absurd hfull.1 (by decide : ¬ 2 < 2),
    countByte_control rfl, atPayload, ← ctlDecode_ctlEncode kind seq]
  rfl

/-- The body of a frame is the address and the control byte as they are, and the payload and FCS bytes escaped (R63). -/
theorem frameBodyBytes_eq (p : Params) (kind : Kind) (seq : BitVec 3) (payload : List Byte) :
    frameBodyBytes p kind seq payload = addressByte :: ctlEncode kind seq ::
      escEncode p (payload ++ fcsBytes p (frameContents kind seq payload)) := by
  simp only [frameBodyBytes, frameContents, List.cons_append, escEncode_cons, escEncodeOne_address, escEncodeOne_ctlEncode,
    List.nil_append]

/-- The opening FLAG and the body, from `INIT_STATE`. -/
theorem scan_frameBodyBytes (hst : w.st = initState p) (hpos : 1 + (frameBodyBytes p kind seq payload).length ≤ p.posMax)
    (hroom : payload.length + p.fcsLen ≤ p.dbufSize) :
    scan p (p.flag :: (frameBodyBytes p kind seq payload ++ rest)) 0 w =
      scan p rest (1 + (frameBodyBytes p kind seq payload).length) (receivedFrame p kind seq payload w) := by
  have hbody := frameBodyBytes_eq p kind seq payload
  generalize hs : payload ++ fcsBytes p (frameContents kind seq payload) = s at hbody
  have hlen : (frameBodyBytes p kind seq payload).length = 2 + (escEncode p s).length := by
    rw [hbody, List.length_cons, List.length_cons]
    omega
  have hsize : s.length = payload.length + p.fcsLen := by rw [← hs, List.length_append, length_fcsBytes]
  have hin : InPayload (atPayload p kind seq w) := ⟨rfl, rfl, (by decide : 2 < 3)⟩
  rw [hlen, hbody, List.cons_append, List.cons_append, scan_frame_head hst (by omega),
    scan_escEncode s hin (show 3 + _ ≤ p.posMax by omega) (show 0 + s.length ≤ p.dbufSize by omega), receivedFrame, hs]
  congr 1
  omega

/-! ### What a received frame holds -/

theorem receivedFrame_pos :
    (receivedFrame p kind seq payload w).st.pos = 1 + (frameBodyBytes p kind seq payload).length := by
  rw [frameBodyBytes_eq]
  simp only [receivedFrame, storedBytes, atPayload, List.length_cons]
  omega

theorem receivedFrame_out : (receivedFrame p kind seq payload w).st.out = payload.length + p.fcsLen := by
  simp [receivedFrame, storedBytes, atPayload, initState]

/-- The checksum has been folded over the contents and their FCS bytes, so it is good where R77's law holds. -/
theorem receivedFrame_crc (hlaw : CrcLawAt p (frameContents kind seq payload)) :
    (receivedFrame p kind seq payload w).st.crc = crcGood p := by
  rw [← hlaw]
  simp only [receivedFrame, storedBytes, atPayload, frameContents, List.cons_append, crcFold_cons, crcFold_nil]

theorem receivedFrame_payload (hwf : Memory.wf w.mem = true) :
    Memory.readBytes (receivedFrame p kind seq payload w).mem (bufBase .dbuf) payload.length = payload := by
  have hall := Memory.readBytes_writeBytes hwf (bufBase .dbuf) (payload ++ fcsBytes p (frameContents kind seq payload))
  rw [List.length_append, Memory.readBytes_add] at hall
  exact (List.append_inj hall (Memory.length_readBytes _ _ _)).1

/-- A whole frame is valid (R112). -/
theorem frameValid_receivedFrame (hlaw : CrcLawAt p (frameContents kind seq payload)) :
    frameValid p (endedAt (receivedFrame p kind seq payload w)).st = true := by
  refine frameValid_iff.2 ⟨?_, ?_, receivedFrame_crc hlaw⟩
  · show 0 + 3 + p.fcsLen ≤ (receivedFrame p kind seq payload w).st.pos
    rw [receivedFrame_pos, frameBodyBytes_eq, List.length_cons, List.length_cons, length_escEncode, List.length_append,
      length_fcsBytes]
    omega
  · show p.fcsLen ≤ (receivedFrame p kind seq payload w).st.out
    rw [receivedFrame_out]
    omega

/-- The scan of a frame from `INIT_STATE` terminates at its closing FLAG, if no FLAG follows it. -/
theorem scan_wireFrame (hst : w.st = initState p) (hpos : (wireFrame p kind seq payload).length ≤ p.posMax)
    (hroom : payload.length + p.fcsLen ≤ p.dbufSize) (hnf : nextIsFlag p rest = false) :
    scan p (wireFrame p kind seq payload ++ rest) 0 w =
      .terminated ((wireFrame p kind seq payload).length - 1) (endedAt (receivedFrame p kind seq payload w)) := by
  have hlen : (wireFrame p kind seq payload).length = 1 + (frameBodyBytes p kind seq payload).length + 1 := by
    rw [wireFrame_eq, List.length_cons, List.length_append, List.length_singleton]
    omega
  have hne : (receivedFrame p kind seq payload w).st.pos ≠ (receivedFrame p kind seq payload w).st.startPos + 1 := by
    rw [receivedFrame_pos, frameBodyBytes_eq, List.length_cons]
    show 1 + (_ + 1) ≠ 0 + 1
    omega
  rw [hlen, wireFrame_eq, List.cons_append, List.append_assoc, List.singleton_append,
    scan_frameBodyBytes hst (by omega) hroom, scan, hnf, scanByte_terminates rfl hne]
  rfl

/-! ### The round trip -/

/-- DECODE, from `INIT_STATE`, of a wire frame in its chunk (R125). -/
theorem execDecode_wireFrame {d : State} (hinv : d.Inv) (hst : d.st = initState d.params)
    (hrange : d.argOff + d.argLen ≤ d.params.ibufSize) (hchunk : inputBytes d = wireFrame d.params kind seq payload)
    (hlaw : CrcLawAt d.params (frameContents kind seq payload))
    (hroom : payload.length + d.params.fcsLen ≤ d.params.dbufSize) :
    ∃ t, execDecode d = .next t ∧ t.status = .frame ∧ t.resCount = d.argLen - 1 ∧ t.ctlOut = packCtl ⟨kind, seq⟩ ∧
      t.resLen = payload.length ∧ BufHolds t .dbuf 0 payload ∧ t.st = initState d.params := by
  have hlen : (wireFrame d.params kind seq payload).length = d.argLen := by rw [← hchunk, length_inputBytes]
  have hpos : (wireFrame d.params kind seq payload).length ≤ d.params.posMax := by
    have hsize := size_lt hinv.params
    rw [Params.posMax]
    omega
  have hscan := scan_wireFrame (rest := []) (w := scanOf d) hst hpos hroom rfl
  rw [List.append_nil, hlen, ← hchunk] at hscan
  refine ⟨_, execDecode_of_scan hrange hscan, ?_⟩
  rw [finishDecode, if_pos (frameValid_receivedFrame hlaw)]
  refine ⟨rfl, rfl, rfl, ?_, receivedFrame_payload hinv.memWf, rfl⟩
  show (receivedFrame d.params kind seq payload (scanOf d)).st.out - d.params.fcsLen = _
  rw [receivedFrame_out, Nat.add_sub_cancel]

/-- Settles O55: a successful ENCODE leaves the wire frame in `EBUF`, and its copy in `IBUF` is DECODE's chunk. -/
theorem decodeOfAnEncodedFrame : Obligations.DecodeOfAnEncodedFrame := by
  intro s e d seq i kind payload hinv hinv' hi he hok hparams hst hlen hrange hcopy hlaw hroom
  obtain ⟨rfl, rfl⟩ : i = encodeInstr kind seq ∧ payload = payloadOf kind s := by
    obtain ⟨rfl, rfl, rfl⟩ | ⟨rfl, rfl, rfl⟩ | ⟨rfl, rfl, rfl⟩ := hi <;> exact ⟨rfl, rfl⟩
  rw [exec_encodeInstr] at he
  obtain rfl | ⟨-, -, rfl⟩ := encodeFrame_cases he
  · cases hok
  have hframe : readBufBytes (encoded kind seq s) .ebuf 0 (encoded kind seq s).resCount =
      wireFrame d.params kind seq (payloadOf kind s) := by
    rw [hparams, ← frameBytes_eq_wireFrame]
    exact bufHolds_encoded hinv.memWf
  have hchunk : inputBytes d = wireFrame d.params kind seq (payloadOf kind s) := by
    rw [BufHolds, hframe, ← frameBytes_eq_wireFrame, hparams] at hcopy
    rw [inputBytes, hlen, ← frameBytes_eq_wireFrame, hparams]
    exact hcopy
  rw [← hparams] at hlaw hroom
  rw [← hlen]
  exact execDecode_wireFrame hinv' hst hrange hchunk hlaw hroom

end Sys2Proof.Machine
end

section
/-! PROOFS. FEED (R71): the run of the host's loop, one round at a time, and its bound. -/

namespace Sys2Proof.Machine

variable {s t u d : State} {rest : List HostEvent} {off len n : Nat}

/-! ### Runs and their DECODE commands -/

/-- A run from one state to another with `n` DECODE commands. -/
inductive Runs : Nat → State → State → Prop
  | refl (s : State) : Runs 0 s s
  | other {n : Nat} {s t u : State} : step s = .next t → writesDecode s = false → Runs n t u → Runs n s u
  | decode {n : Nat} {s t u : State} : step s = .next t → writesDecode s = true → Runs n t u → Runs (n + 1) s u

theorem Runs.trans {m : Nat} (h : Runs m s t) (h' : Runs n t u) : Runs (m + n) s u := by
  induction h with
  | refl => rwa [Nat.zero_add]
  | other hstep hno _ ih => exact .other hstep hno (ih h')
  | decode hstep hyes _ ih => exact Nat.succ_add _ _ ▸ .decode hstep hyes (ih h')

theorem run_succ (hstep : step s = .next t) (k : Nat) :
    Host.Core.run Sys2Proof.core (k + 1) s = Host.Core.run Sys2Proof.core k t := by
  have hcore : Sys2Proof.core.step s = .next t := hstep
  simp only [Host.Core.run, hcore]

theorem decodesIn_succ (hstep : step s = .next t) (k : Nat) :
    decodesIn (k + 1) s = (if writesDecode s then 1 else 0) + decodesIn k t := by
  rw [decodesIn, hstep]

/-- Such a run is a number of steps, `n` of them DECODE commands. -/
theorem Runs.exists_run (h : Runs n s t) : ∃ k, Host.Core.run Sys2Proof.core k s = .next t ∧ decodesIn k s = n := by
  induction h with
  | refl => exact ⟨0, rfl, rfl⟩
  | other hstep hno _ ih =>
    obtain ⟨k, hrun, rfl⟩ := ih
    exact ⟨k + 1, (run_succ hstep k).trans hrun, by rw [decodesIn_succ hstep, hno]; simp⟩
  | decode hstep hyes _ ih =>
    obtain ⟨k, hrun, rfl⟩ := ih
    exact ⟨k + 1, (run_succ hstep k).trans hrun, by rw [decodesIn_succ hstep, hyes, if_pos rfl, Nat.add_comm]⟩

theorem Runs.reaches (h : Runs n s t) : Reaches s t :=
  have ⟨k, hrun, _⟩ := h.exists_run
  ⟨k, hrun⟩

/-! ### The DECODE of a round -/

/-- The argument registers set for a DECODE (R29, R30). -/
def aimed (s : State) (off len : Nat) : State := { s with argOff := off, argLen := len }

/-- The state after a DECODE, in range or not. -/
def decoded (s : State) : State := if rangeOk s then finishDecode s (decodeScan s) else refuse s

theorem execDecode_eq (s : State) : execDecode s = .next (decoded s) := by
  unfold decoded execDecode
  split <;> rfl

theorem decoded_of_range (h : s.argOff + s.argLen ≤ s.params.ibufSize) : decoded s = finishDecode s (decodeScan s) :=
  if_pos (rangeOk_iff.2 h)

/-- DECODE neither reads nor writes the host's program. -/
theorem decoded_withHost (s : State) (h : List HostEvent) : decoded (withHost s h) = withHost (decoded s) h := by
  have hrange : rangeOk (withHost s h) = rangeOk s := rfl
  have hscan : decodeScan (withHost s h) = decodeScan s := rfl
  unfold decoded
  rw [hrange, hscan]
  split
  · obtain ⟨w, he, -⟩ | ⟨k, w, he, hv, -⟩ | ⟨k, w, he, hv, -⟩ | ⟨k, w, he, -⟩ := finishDecode_cases s (decodeScan s)
    · rw [he]; rfl
    · rw [he, finishDecode, finishDecode, withHost_params, if_pos hv, if_pos hv]; rfl
    · rw [he, finishDecode, finishDecode, withHost_params, if_neg (by simp [hv]), if_neg (by simp [hv])]; rfl
    · rw [he]; rfl
  · rfl

theorem aimed_inv (hs : s.Inv) (hoff : off < 2 ^ s.params.cw) (hlen : len < 2 ^ s.params.cw) : (aimed s off len).Inv :=
  { hs with argOff := hoff, argLen := hlen }

theorem decoded_inv (hs : s.Inv) : (decoded s).Inv := execDecode_inv hs (execDecode_eq s)

@[simp] theorem decoded_params (s : State) : (decoded s).params = s.params :=
  exec_keeps_params (i := .decode) (execDecode_eq s)

/-- A number that fits a counter is written to its register as it is (R45). -/
theorem counterBits_ofNat {p : Params} (hp : p.ok = true) {x : Nat} (hx : x < 2 ^ p.cw) :
    counterBits p (BitVec.ofNat 32 x) = x := by
  have hcw : p.cw ≤ 32 := by
    simp only [Params.ok, Bool.and_eq_true, decide_eq_true_eq] at hp
    omega
  have hle := Nat.pow_le_pow_right (show 0 < 2 by decide) hcw
  rw [counterBits, BitVec.toNat_ofNat, Nat.mod_eq_of_lt (Nat.lt_of_lt_of_le hx hle), Nat.mod_eq_of_lt hx]

theorem step_feed (hhost : s.host = .feed off len :: rest) :
    step s = .next (withHost s (decodeEvents off len ++ .feedResult off len :: rest)) := by
  simp only [step, nextAction, hhost, eventAction]
  rfl

theorem step_feedResult (hhost : s.host = .feedResult off len :: rest) :
    step s = .next (withHost s (feedEvents off len s ++ rest)) := by
  simp only [step, nextAction, hhost, eventAction]
  rfl

/-- One round of FEED, to the host's choice: the two arguments, the DECODE, and the host's look at the outcome. -/
theorem runs_round (hs : s.Inv) (hoff : off < 2 ^ s.params.cw) (hlen : len < 2 ^ s.params.cw) :
    Runs 1 (withHost s (.feed off len :: rest))
      (withHost (decoded (aimed s off len)) (feedEvents off len (decoded (aimed s off len)) ++ rest)) := by
  have hwriteOff := counterBits_ofNat hs.params hoff
  have hwriteLen := counterBits_ofNat hs.params hlen
  refine .other (step_feed rfl) rfl (.other (step_write_register (r := .argOff) rfl nofun) rfl
    (.other (step_write_register (r := .argLen) rfl nofun) rfl
      (.decode (t := withHost (decoded (aimed s off len)) (.feedResult off len :: rest)) ?_ rfl
        (.other (step_feedResult rfl) rfl (.refl _)))))
  rw [step_write_cmd (rest := .feedResult off len :: rest) rfl, decodeCmd_decode_word]
  simp only [writeReg, withHost_params, hwriteOff, hwriteLen]
  exact (execDecode_eq _).trans (congrArg _ (decoded_withHost (aimed s off len) _))

/-! ### What the host observes after a round -/

/-- The host's record with further values. -/
def observes (s : State) (vs : List Word) : State := { s with observed := s.observed ++ vs }

@[simp] theorem observes_nil (s : State) : observes s [] = s := by simp [observes]

theorem observes_cons (s : State) (v : Word) (vs : List Word) : observes s (v :: vs) = observes (observe s v) vs := by
  simp [observes, observe]

theorem observes_inv (hs : s.Inv) (vs : List Word) : (observes s vs).Inv := { hs with }

theorem valueAt_withHost (s : State) (h : List HostEvent) (x : Target) : valueAt (withHost s h) x = valueAt s x := by
  cases x with
  | register r => cases r <;> rfl
  | bufByte a => rfl
  | reserved => rfl

theorem valueAt_observe (s : State) (v : Word) (x : Target) : valueAt (observe s v) x = valueAt s x := by
  cases x with
  | register r => cases r <;> rfl
  | bufByte a => rfl
  | reserved => rfl

/-- The event reads the value `v` in state `s`. -/
def ReadsAs (s : State) (e : HostEvent) (v : Word) : Prop :=
  ∃ off width x, e = .read off width ∧ target s.params off width = .ok x ∧ valueAt s x = v

/-- A list of reads runs to its values in the host's record (R50). -/
theorem runs_reads {es : List HostEvent} {vs : List Word} (h : List.Forall₂ (ReadsAs s) es vs) :
    Runs 0 (withHost s (es ++ rest)) (withHost (observes s vs) rest) := by
  induction es generalizing s vs with
  | nil => cases h; rw [observes_nil]; exact .refl _
  | cons e es ih =>
    cases h with | cons hread htail => ?_
    obtain ⟨off, width, x, rfl, ht, rfl⟩ := hread
    rw [observes_cons]
    have hkept : List.Forall₂ (ReadsAs (observe s (valueAt s x))) es _ :=
      htail.imp fun e' v' ⟨off', width', x', he, ht', hv⟩ => ⟨off', width', x', he, ht', (valueAt_observe _ _ _).trans hv⟩
    have hstep := step_read (s := withHost s (.read off width :: (es ++ rest))) rfl ht
    rw [valueAt_withHost] at hstep
    exact .other hstep rfl (ih hkept)

theorem readsAs_register (s : State) (r : Reg) : ReadsAs s (readEvent r) (readReg s r) :=
  ⟨_, _, .register r, rfl, target_regOffset _ _, rfl⟩

/-- Reading a stretch of a buffer byte by byte (R44, R70). -/
theorem readsAs_readBytesEvents (hp : s.params.ok = true) (b : Buf) {n : Nat} (hn : n ≤ bufSize s.params b) :
    List.Forall₂ (ReadsAs s) (readBytesEvents b 0 n) ((readBufBytes s b 0 n).map (BitVec.setWidth 32)) := by
  rw [readBytesEvents, readBufBytes, Memory.readBytes, List.map_map, List.forall₂_map_left_iff, List.forall₂_map_right_iff,
    List.forall₂_same]
  intro k hk
  have hk : k < bufSize s.params b := Nat.lt_of_lt_of_le (List.mem_range.1 hk) hn
  exact ⟨_, _, .bufByte (bufBase b + k), rfl, target_bufOffset hp hk, rfl⟩

/-- What the host observes of an outcome in FEED (R71). -/
def outcome (d : State) : List Word :=
  match d.status with
  | .noCompleteFrame | .invalidArgument => []
  | .frame => d.ctlOut.setWidth 32 :: BitVec.ofNat 32 d.resLen :: (readBufBytes d .dbuf 0 d.resLen).map (BitVec.setWidth 32)
  | .checksumOrFramingError | .capacityExceeded | .ok => [(statusCode d.status).setWidth 32]

/-- FEED stops at an outcome that needs more bytes or was turned away (R71). -/
def stops (d : State) : Bool := d.status = .noCompleteFrame ∨ d.status = .invalidArgument

/-- The host stops, with nothing observed. -/
theorem feedEvents_of_stops (h : stops d = true) (off len : Nat) : feedEvents off len d = [] := by
  have h : d.status = .noCompleteFrame ∨ d.status = .invalidArgument := by simpa [stops] using h
  obtain h | h := h <;> rw [feedEvents, h]

/-- The host observes the outcome, and goes on with the unconsumed bytes. -/
theorem runs_feedEvents (hd : d.Inv) (hroom : d.status = .frame → d.resLen ≤ d.params.dbufSize) (h : stops d = false) :
    Runs 0 (withHost d (feedEvents off len d ++ rest))
      (withHost (observes d (outcome d)) (.feed (off + d.resCount) (len - d.resCount) :: rest)) := by
  cases hs : d.status with
  | noCompleteFrame | invalidArgument => simp [stops, hs] at h
  | frame =>
    have hreads : List.Forall₂ (ReadsAs d) (frameEvents d) (outcome d) := by
      rw [outcome, hs]
      exact .cons (readsAs_register d .ctlOut) (.cons (readsAs_register d .resLen)
        (readsAs_readBytesEvents hd.params .dbuf (hroom hs)))
    rw [feedEvents, hs]
    simp only [List.append_assoc]
    exact runs_reads hreads
  | checksumOrFramingError | capacityExceeded | ok =>
    have hevents : feedEvents off len d = [readEvent .status, .feed (off + d.resCount) (len - d.resCount)] := by
      simp only [feedEvents, hs]
    have houtcome : outcome d = [readReg d .status] := by simp only [outcome, readReg, hs]
    rw [hevents, houtcome]
    exact runs_reads (.cons (readsAs_register d .status) .nil)

/-! ### The loop -/

/-- FEED of `len` bytes at `off` runs `n` rounds from `s` and leaves the core in `t`, whatever the host does afterwards. -/
inductive Feeds : State → Nat → Nat → Nat → State → Prop
  | stop {s d : State} {off len : Nat} : decoded (aimed s off len) = d → stops d = true → Feeds s off len 1 d
  | goOn {s d t : State} {off len n : Nat} : decoded (aimed s off len) = d → stops d = false →
      Feeds (observes d (outcome d)) (off + d.resCount) (len - d.resCount) n t → Feeds s off len (n + 1) t

/-- A FEED of these bytes begins at a FLAG, from `INIT_STATE`. -/
def AtFlag (s : State) (off len : Nat) : Prop := 1 ≤ len ∧ s.st = initState s.params ∧ readBuf s .ibuf off = s.params.flag

section
variable (hs : s.Inv) (hoff : off < 2 ^ s.params.cw) (hlen : len < 2 ^ s.params.cw) (hd : decoded (aimed s off len) = d)
include hs hoff hlen hd

theorem round_inv : d.Inv := hd ▸ decoded_inv (aimed_inv hs hoff hlen)

omit hs hoff hlen in
theorem round_params : d.params = s.params := hd ▸ decoded_params _

/-- No round writes `IBUF` (R41). -/
theorem round_ibuf {a k : Nat} (hrange : a + k ≤ s.params.ibufSize) :
    readBufBytes d .ibuf a k = readBufBytes s .ibuf a k :=
  hd ▸ readBufBytes_ibuf_of_exec (i := .decode) (aimed_inv hs hoff hlen) (execDecode_eq _) hrange

/-- What R132 says of a round that FEED goes on after: its bytes lie in `IBUF`, the payload in `DBUF`, and a round that
consumed nothing leaves FEED at a FLAG, from `INIT_STATE`. -/
theorem round_goesOn (hgo : stops d = false) : off + len ≤ s.params.ibufSize ∧ d.resCount ≤ len ∧
    (d.status = .frame → d.resLen ≤ s.params.dbufSize) ∧ (d.resCount = 0 → AtFlag d off len) := by
  have hstops : ¬ (d.status = .noCompleteFrame ∨ d.status = .invalidArgument) := by simpa [stops] using hgo
  obtain ⟨hinvalid, -, hok, -, hflag, -, hroom, hfull⟩ :=
    decodeOutcomeTable (aimed s off len) d (aimed_inv hs hoff hlen) (hd ▸ execDecode_eq _)
  have hrange : off + len ≤ s.params.ibufSize := Nat.not_lt.1 fun hpast => hstops (.inr (hinvalid.2 hpast))
  have hparams := round_params hd
  have hbyte (h1 : 1 ≤ len) : readBuf d .ibuf off = readBuf s .ibuf off :=
    (List.cons.inj (round_ibuf hs hoff hlen hd (a := off) (k := 1) (by omega))).1
  have hterm (hst : d.status = .frame ∨ d.status = .checksumOrFramingError) :
      d.resCount ≤ len ∧ (d.resCount = 0 → AtFlag d off len) := by
    obtain ⟨hcount, hread, hinit⟩ := hflag hst
    have hcount : d.resCount < len := hcount
    refine ⟨Nat.le_of_lt hcount, fun hzero => ⟨by omega, by rw [hparams]; exact hinit, ?_⟩⟩
    rw [hzero] at hread
    rw [hbyte (by omega), hparams]
    exact hread
  cases hst : d.status with
  | noCompleteFrame => exact absurd (.inl hst) hstops
  | invalidArgument => exact absurd (.inr hst) hstops
  | ok => exact absurd hst hok
  | frame =>
    obtain ⟨hcount, hat⟩ := hterm (.inl hst)
    exact ⟨hrange, hcount, fun _ => Nat.le_trans (Nat.le_add_right _ _) (hroom hst), hat⟩
  | checksumOrFramingError =>
    obtain ⟨hcount, hat⟩ := hterm (.inr hst)
    exact ⟨hrange, hcount, nofun, hat⟩
  | capacityExceeded =>
    obtain ⟨hpos, hcount, -, -⟩ := hfull hst
    exact ⟨hrange, hcount, nofun, fun hzero => by omega⟩

/-- A round that begins at a FLAG, from `INIT_STATE`, and does not stop FEED consumes that FLAG at least. -/
theorem round_atFlag (hgo : stops d = false) (hat : AtFlag s off len) : 1 ≤ d.resCount := by
  obtain ⟨hpos, hst, hbyte⟩ := hat
  obtain ⟨hrange, -⟩ := round_goesOn hs hoff hlen hd hgo
  obtain ⟨k, rfl⟩ : ∃ k, len = k + 1 := ⟨len - 1, by omega⟩
  have hchunk : inputBytes (aimed s off (k + 1)) = s.params.flag :: readBufBytes s .ibuf (off + 1) k := by
    rw [← hbyte]
    exact Memory.readBytes_succ _ _ _
  obtain ⟨w, hfirst⟩ := scanByte_flag_from_initState (w := scanOf (aimed s off (k + 1))) hs.params
    (nextIsFlag s.params (readBufBytes s .ibuf (off + 1) k)) hst
  rw [← hd, decoded_of_range (s := aimed s off (k + 1)) hrange]
  exact resCount_pos_of_first_byte hchunk hfirst

end

/-- The rounds of FEED are its run. -/
theorem runs_of_feeds (h : Feeds s off len n t) (hs : s.Inv) (hoff : off < 2 ^ s.params.cw) (hlen : len < 2 ^ s.params.cw) :
    Runs n (withHost s (.feed off len :: rest)) (withHost t rest) := by
  induction h with
  | stop hd hstop =>
    have hround := runs_round (rest := rest) hs hoff hlen
    rwa [hd, feedEvents_of_stops hstop, List.nil_append] at hround
  | @goOn s d t off len n hd hgo _ ih =>
    have hround := runs_round (rest := rest) hs hoff hlen
    have hinv := round_inv hs hoff hlen hd
    have hparams := round_params hd
    obtain ⟨hrange, hcount, hroom, -⟩ := round_goesOn hs hoff hlen hd hgo
    have hsize := size_lt hs.params
    rw [hd] at hround
    have hreads := runs_feedEvents (off := off) (len := len) (rest := rest) hinv (by rwa [hparams]) hgo
    have hnext := ih (observes_inv hinv _) (by show _ < 2 ^ d.params.cw; rw [hparams]; omega)
      (by show _ < 2 ^ d.params.cw; rw [hparams]; omega)
    have hall := (hround.trans hreads).trans hnext
    rwa [Nat.add_zero, Nat.add_comm] at hall

/-- FEED ends within `bound` rounds. -/
def FeedEnds (s : State) (off len bound : Nat) : Prop := ∃ n t, Feeds s off len n t ∧ n ≤ bound

/-- FEED of `len` bytes ends within R71's bound, from every state. -/
def FeedBounded (len : Nat) : Prop :=
  ∀ (s : State) (off : Nat), s.Inv → off < 2 ^ s.params.cw → len < 2 ^ s.params.cw → FeedEnds s off len (2 * len + 1)

section
variable (ih : ∀ k < len, FeedBounded k) (hs : s.Inv) (hoff : off < 2 ^ s.params.cw) (hlen : len < 2 ^ s.params.cw)
include ih hs hoff hlen

/-- After a round that consumed a byte there are fewer bytes to feed. -/
theorem feedEnds_of_consumed (hd : decoded (aimed s off len) = d) (hgo : stops d = false) (hpos : 1 ≤ d.resCount) :
    FeedEnds s off len (2 * len) := by
  obtain ⟨hrange, hcount, -, -⟩ := round_goesOn hs hoff hlen hd hgo
  have hsize := size_lt hs.params
  have hparams : (observes d (outcome d)).params = s.params := show d.params = _ from round_params hd
  obtain ⟨n, t, h, hn⟩ := ih (len - d.resCount) (by omega) (observes d (outcome d)) (off + d.resCount)
    (observes_inv (round_inv hs hoff hlen hd) _) (by rw [hparams]; omega) (by rw [hparams]; omega)
  exact ⟨n + 1, t, .goOn hd hgo h, by omega⟩

/-- At a FLAG, from `INIT_STATE`, the first round stops or consumes it. -/
theorem feedEnds_atFlag (hat : AtFlag s off len) : FeedEnds s off len (2 * len) := by
  cases hgo : stops (decoded (aimed s off len)) with
  | true => exact ⟨1, _, .stop rfl hgo, by have := hat.1; omega⟩
  | false => exact feedEnds_of_consumed ih hs hoff hlen rfl hgo (round_atFlag hs hoff hlen rfl hgo hat)

end

/-- FEED ends within its bound: a round that consumes nothing leaves it at a FLAG, and the next round consumes that. -/
theorem feedBounded (len : Nat) : FeedBounded len := by
  induction len using Nat.strong_induction_on with | _ len ih => ?_
  intro s off hs hoff hlen
  generalize hd : decoded (aimed s off len) = d
  cases hgo : stops d with
  | true => exact ⟨1, d, .stop hd hgo, by omega⟩
  | false =>
    by_cases hpos : 1 ≤ d.resCount
    · obtain ⟨n, t, h, hn⟩ := feedEnds_of_consumed ih hs hoff hlen hd hgo hpos
      exact ⟨n, t, h, by omega⟩
    · have hzero : d.resCount = 0 := by omega
      obtain ⟨-, -, -, hat⟩ := round_goesOn hs hoff hlen hd hgo
      have hinv := observes_inv (round_inv hs hoff hlen hd) (outcome d)
      have hparams : (observes d (outcome d)).params = s.params := show d.params = _ from round_params hd
      obtain ⟨n, t, h, hn⟩ := feedEnds_atFlag ih hinv (by rwa [hparams]) (by rwa [hparams])
        (show AtFlag (observes d (outcome d)) off len from hat hzero)
      exact ⟨n + 1, t, .goOn hd hgo (by rwa [hzero, Nat.add_zero, Nat.sub_zero]), by omega⟩

/-- Settles O59: the run of FEED's rounds, within their bound. -/
theorem feedEndsWithinItsBound : Obligations.FeedEndsWithinItsBound := by
  intro s off len rest hinv hoff hlen hhost
  obtain ⟨n, t, hfeeds, hbound⟩ := feedBounded len s off hinv hoff hlen
  obtain ⟨k, hrun, hcount⟩ := (runs_of_feeds (rest := rest) hfeeds hinv hoff hlen).exists_run
  have hs : withHost s (.feed off len :: rest) = s := by rw [← hhost]; rfl
  rw [hs] at hrun hcount
  exact ⟨k, withHost t rest, hrun, rfl, hcount ▸ hbound⟩

end Sys2Proof.Machine
end

section
/-! PROOFS. Whole streams (R59, R121 to R123): FEED is a fold over the bytes, one by one and without look-ahead, in which a
FLAG after a FLAG does nothing; so neither the chunks nor doubled FLAGs can be seen. -/

namespace Sys2Proof.Machine

variable {p : Params} {s t d : State} {w w' : Scan} {off len n : Nat} {b : Byte} {x y rest : List Byte}

/-! ### The decoder byte by byte -/

/-- The scan put back to `INIT_STATE`, its `CTL_OUT` and buffers kept (R110, R116). -/
def resetScan (p : Params) (w : Scan) : Scan := { w with st := initState p }

/-- What the host observes where a terminating FLAG was found (R71, R112 to R114). -/
def frameOutcome (p : Params) (w : Scan) : List Word :=
  if frameValid p w.st then
    w.ctl.setWidth 32 :: BitVec.ofNat 32 (w.st.out - p.fcsLen) ::
      (Memory.readBytes w.mem (bufBase .dbuf) (w.st.out - p.fcsLen)).map (BitVec.setWidth 32)
  else [(statusCode .checksumOrFramingError).setWidth 32]

/-- What the host observes of an abandoned frame (R110). -/
def abandonOutcome : List Word := [(statusCode .capacityExceeded).setWidth 32]

/-- One byte of a stream: the scan after it, and what the host observes. A terminating FLAG starts the next frame. -/
def feedByte (p : Params) (b : Byte) (w : Scan) : Scan × List Word :=
  match scanByte p b false w with
  | .next w' => (w', [])
  | .terminated w' => (startedAt (resetScan p w'), frameOutcome p w')
  | .abandoned => (resetScan p w, abandonOutcome)

/-- The bytes of a stream, in order. -/
def feedBytes (p : Params) : List Byte → Scan → Scan × List Word
  | [], w => (w, [])
  | b :: s, w => ((feedBytes p s (feedByte p b w).1).1, (feedByte p b w).2 ++ (feedBytes p s (feedByte p b w).1).2)

theorem feedBytes_append (x y : List Byte) (w : Scan) : feedBytes p (x ++ y) w =
    ((feedBytes p y (feedBytes p x w).1).1, (feedBytes p x w).2 ++ (feedBytes p y (feedBytes p x w).1).2) := by
  induction x generalizing w with
  | nil => rfl
  | cons b x ih => simp only [List.cons_append, feedBytes, ih, List.append_assoc]

theorem feedBytes_cons_next (h : scanByte p b false w = .next w') (s : List Byte) :
    feedBytes p (b :: s) w = feedBytes p s w' := by
  simp [feedBytes, feedByte, h]

/-- With room for one position, a seeking decoder starts a frame at a FLAG. -/
theorem scanByte_flag_of_initState (hp : 1 ≤ p.posMax) (h : w.st = initState p) :
    scanByte p p.flag false w = .next (startedAt w) :=
  scanByte_start (by rw [h]; rfl) (by rw [h]; show 0 ≠ p.posMax; omega)

theorem Scan.SeekClean.feedByte (hw : w.SeekClean p) (b : Byte) : (feedByte p b w).1.SeekClean p := by
  unfold Machine.feedByte
  cases h : scanByte p b false w with
  | next w' => exact scanByte_keeps_seekClean hw h
  | terminated w' => exact fun hseek => by cases hseek
  | abandoned => exact fun _ => rfl

theorem Scan.SeekClean.feedBytes (hw : w.SeekClean p) (s : List Byte) : (feedBytes p s w).1.SeekClean p := by
  induction s generalizing w with
  | nil => exact hw
  | cons b s ih => exact ih (hw.feedByte b)

/-- After a FLAG the decoder is in a frame, right after its start FLAG (R101, R103, R104). -/
theorem feedByte_flag_started (hp : 1 ≤ p.posMax) (hw : w.SeekClean p) :
    (feedByte p p.flag w).1.st.startValid = true ∧
      (feedByte p p.flag w).1.st.pos = (feedByte p p.flag w).1.st.startPos + 1 := by
  unfold feedByte
  by_cases hv : w.st.startValid = true
  · by_cases hpos : w.st.pos = w.st.startPos + 1
    · rw [scanByte_flag_after_start hv hpos]
      exact ⟨hv, hpos⟩
    · rw [scanByte_terminates hv hpos]
      exact ⟨rfl, rfl⟩
  · rw [scanByte_flag_of_initState hp (hw (Bool.not_eq_true _ ▸ hv))]
    exact ⟨rfl, rfl⟩

/-- R59: a FLAG right after a FLAG does nothing. -/
theorem feedBytes_flag_flag (hp : 1 ≤ p.posMax) (hw : w.SeekClean p) (s : List Byte) :
    feedBytes p (p.flag :: p.flag :: s) w = feedBytes p (p.flag :: s) w := by
  obtain ⟨hvalid, hpos⟩ := feedByte_flag_started hp hw
  rw [feedBytes, feedBytes_cons_next (scanByte_flag_after_start hvalid hpos), feedBytes]

/-! ### One DECODE of the stream -/

/-- Going on with the unconsumed bytes after a scan ended (R71, R99). -/
def ScanEnd.goOn (p : Params) (chunk : List Byte) : ScanEnd → Scan × List Word
  | .exhausted w => (w, [])
  | .terminated k w => ((feedBytes p (chunk.drop k) (resetScan p w)).1,
      frameOutcome p w ++ (feedBytes p (chunk.drop k) (resetScan p w)).2)
  | .abandoned k w => ((feedBytes p (chunk.drop (k + 1)) (resetScan p w)).1,
      abandonOutcome ++ (feedBytes p (chunk.drop (k + 1)) (resetScan p w)).2)

theorem ScanEnd.goOn_shift (b : Byte) (rest : List Byte) (e : ScanEnd) : (e.shift 1).goOn p (b :: rest) = e.goOn p rest := by
  cases e with
  | exhausted w => rfl
  | terminated k w => simp only [ScanEnd.shift, ScanEnd.goOn, Nat.add_comm 1, List.drop_succ_cons]
  | abandoned k w => simp only [ScanEnd.shift, ScanEnd.goOn, Nat.add_comm 1, List.drop_succ_cons]

/-- The look-ahead matters only to a FLAG before a FLAG. -/
theorem scanByte_lookahead (h : ¬ (b = p.flag ∧ nextIsFlag p rest = true)) :
    scanByte p b (nextIsFlag p rest) w = scanByte p b false w := by
  by_cases hb : b = p.flag
  · rw [Bool.eq_false_iff.2 fun hnf => h ⟨hb, hnf⟩]
  · simp only [scanByte, seekByte, hb, if_false]

/-- A DECODE, with its look-ahead, and the FEED of what it leaves are the stream byte by byte. -/
theorem feedBytes_eq_goOn (hp : 1 ≤ p.posMax) (hw : w.SeekClean p) (chunk : List Byte) :
    feedBytes p chunk w = (scan p chunk 0 w).goOn p chunk := by
  induction chunk generalizing w with
  | nil => rfl
  | cons b rest ih =>
    by_cases hflags : b = p.flag ∧ nextIsFlag p rest = true
    · obtain ⟨rfl, hnf⟩ := hflags
      obtain ⟨c, rest', rfl⟩ : ∃ c rest', rest = c :: rest' := List.exists_cons_of_ne_nil fun hnil => by
        rw [hnil] at hnf; cases hnf
      obtain rfl := (nextIsFlag_cons _ _ _).1 hnf
      rw [feedBytes_flag_flag hp hw, scan_cons_next (hnf ▸ scanByte_flag_before_flag p w), scan_shift, ScanEnd.goOn_shift]
      exact ih hw
    · rw [scan, scanByte_lookahead hflags]
      cases h : scanByte p b false w with
      | next w' =>
        rw [feedBytes_cons_next h, ih (scanByte_keeps_seekClean hw h)]
        simp only
        rw [scan_shift p rest (0 + 1), ScanEnd.goOn_shift]
      | terminated w' =>
        obtain ⟨-, rfl, -, -, -⟩ := scanByte_terminated h
        simp only [ScanEnd.goOn, List.drop_zero]
        rw [feedBytes_cons_next (scanByte_flag_of_initState (w := resetScan p w') hp rfl)]
        simp only [feedBytes, feedByte, h]
      | abandoned => simp only [ScanEnd.goOn, feedBytes, feedByte, h, List.drop_succ_cons, List.drop_zero]

/-! ### FEED of the stream -/

theorem readBufBytes_drop {B : Buf} {c : Nat} (hc : c ≤ len) :
    (readBufBytes s B off len).drop c = readBufBytes s B (off + c) (len - c) := by
  obtain ⟨k, rfl⟩ := Nat.exists_eq_add_of_le hc
  rw [readBufBytes, Memory.readBytes_add, List.drop_left' (Memory.length_readBytes _ _ _), Nat.add_sub_cancel_left,
    readBufBytes, Nat.add_assoc]

theorem one_le_posMax (hp : p.ok = true) : 1 ≤ p.posMax := by
  simp only [Params.ok, Params.sizeOk, Bool.and_eq_true, decide_eq_true_eq] at hp
  omega

@[simp] theorem decoded_observed (s : State) : (decoded s).observed = s.observed := by
  unfold decoded
  split
  · obtain ⟨st, ctl, m, x, c, l, h⟩ := finishDecode_frame s (decodeScan s)
    rw [h]
    rfl
  · rfl

section
variable (hclean : s.SeekClean) (hs : s.Inv) (hrange : off + len ≤ s.params.ibufSize) (hd : decoded (aimed s off len) = d)
include hclean hs hrange hd

/-- The round as the end of its scan. -/
theorem round_stream :
    (stops d = true → feedBytes s.params (readBufBytes s .ibuf off len) (scanOf s) = (scanOf d, [])) ∧
    (stops d = false → feedBytes s.params (readBufBytes s .ibuf off len) (scanOf s) =
      ((feedBytes s.params ((readBufBytes s .ibuf off len).drop d.resCount) (scanOf d)).1,
        outcome d ++ (feedBytes s.params ((readBufBytes s .ibuf off len).drop d.resCount) (scanOf d)).2)) := by
  have hstream : feedBytes s.params (readBufBytes s .ibuf off len) (scanOf s) =
      (decodeScan (aimed s off len)).goOn s.params (readBufBytes s .ibuf off len) :=
    feedBytes_eq_goOn (w := scanOf s) (one_le_posMax hs.params) hclean _
  rw [decoded_of_range (s := aimed s off len) hrange] at hd
  obtain ⟨w, he, hend⟩ | ⟨k, w, he, hvalid, hend⟩ | ⟨k, w, he, hvalid, hend⟩ | ⟨k, w, he, hend⟩ :=
    finishDecode_cases (aimed s off len) (decodeScan (aimed s off len))
  all_goals rw [hend] at hd; subst hd; rw [hstream, he]
  · exact ⟨fun _ => rfl, nofun⟩
  · refine ⟨nofun, fun _ => ?_⟩
    rw [ScanEnd.goOn, frameOutcome, if_pos (show frameValid s.params w.st = true from hvalid)]
    rfl
  · refine ⟨nofun, fun _ => ?_⟩
    rw [ScanEnd.goOn, frameOutcome, if_neg (by simpa [aimed] using hvalid)]
    rfl
  · exact ⟨nofun, fun _ => rfl⟩

end

/-- What FEED of a stream leaves: its fold, in the scan and in the host's record, and `IBUF` as it was. -/
structure Fed (s : State) (off len : Nat) (t : State) : Prop where
  inv : t.Inv
  params : t.params = s.params
  ibuf : ∀ a k, a + k ≤ s.params.ibufSize → readBufBytes t .ibuf a k = readBufBytes s .ibuf a k
  scan : scanOf t = (feedBytes s.params (readBufBytes s .ibuf off len) (scanOf s)).1
  observed : t.observed = s.observed ++ (feedBytes s.params (readBufBytes s .ibuf off len) (scanOf s)).2

/-- The rounds of FEED are the fold, round by round. -/
theorem fed_of_feeds (h : Feeds s off len n t) (hs : s.Inv) (hclean : s.SeekClean) (hrange : off + len ≤ s.params.ibufSize) :
    Fed s off len t := by
  induction h with
  | @stop s d off len hd hstop =>
    have hsize := size_lt hs.params
    have hstream := (round_stream hclean hs hrange hd).1 hstop
    refine ⟨round_inv hs (by omega) (by omega) hd, round_params hd,
      fun a k hk => round_ibuf hs (by omega) (by omega) hd hk, ?_, ?_⟩
    · rw [hstream]
    · rw [hstream, List.append_nil, ← hd, decoded_observed]
      rfl
  | @goOn s d t off len n hd hgo _ ih =>
    have hsize := size_lt hs.params
    have hoff : off < 2 ^ s.params.cw := by omega
    have hlen : len < 2 ^ s.params.cw := by omega
    have hstream := (round_stream hclean hs hrange hd).2 hgo
    have hparams : (observes d (outcome d)).params = s.params := show d.params = _ from round_params hd
    obtain ⟨-, hcount, -, -⟩ := round_goesOn hs hoff hlen hd hgo
    have hclean' : d.SeekClean :=
      exec_keeps_seekClean (i := .decode) (s := aimed s off len) nofun hclean (hd ▸ execDecode_eq _)
    obtain ⟨hinv, hparams', hibuf, hscan, hobserved⟩ :=
      ih (observes_inv (round_inv hs hoff hlen hd) _) hclean' (by rw [hparams]; omega)
    have hround : readBufBytes (observes d (outcome d)) .ibuf (off + d.resCount) (len - d.resCount) =
        (readBufBytes s .ibuf off len).drop d.resCount := by
      rw [readBufBytes_drop hcount]
      exact round_ibuf hs hoff hlen hd (by omega)
    rw [hparams, hround] at hscan hobserved
    refine ⟨hinv, hparams'.trans hparams, fun a k hk => ?_, hscan.trans (congrArg Prod.fst hstream).symm, ?_⟩
    · exact (hibuf a k (by rwa [hparams])).trans (round_ibuf hs hoff hlen hd hk)
    · have hd' : d.observed = s.observed := by rw [← hd, decoded_observed]; rfl
      rw [hobserved, hstream]
      simp only [observes, hd', List.append_assoc]
      rfl

/-- FEED of a stream in `IBUF` runs to its end, whatever the host does next, and is the fold of its bytes. -/
theorem exists_fed (hs : s.Inv) (hclean : s.SeekClean) (hrange : off + len ≤ s.params.ibufSize) :
    ∃ t, Fed s off len t ∧ ∀ rest, ∃ n, Runs n (withHost s (.feed off len :: rest)) (withHost t rest) := by
  have hsize := size_lt hs.params
  obtain ⟨n, t, h, -⟩ := feedBounded len s off hs (by omega) (by omega)
  exact ⟨t, fed_of_feeds h hs hclean hrange, fun rest => ⟨n, runs_of_feeds h hs (by omega) (by omega)⟩⟩

theorem Fed.seekClean (h : Fed s off len t) (hclean : s.SeekClean) : t.SeekClean := by
  have hfold : (scanOf t).SeekClean s.params := h.scan ▸ Scan.SeekClean.feedBytes (w := scanOf s) hclean _
  rwa [← h.params] at hfold

/-- Equal folds leave equal records, `CTL_OUT`, buffers and observations. -/
theorem fed_eq_of_fold_eq {off' len' : Nat} {u : State} (ht : Fed s off len t) (hu : Fed s off' len' u)
    (h : feedBytes s.params (readBufBytes s .ibuf off len) (scanOf s) =
      feedBytes s.params (readBufBytes s .ibuf off' len') (scanOf s)) :
    t.observed = u.observed ∧ t.st = u.st ∧ t.ctlOut = u.ctlOut ∧ t.mem = u.mem := by
  have hscan : scanOf t = scanOf u := by rw [ht.scan, hu.scan, h]
  exact ⟨by rw [ht.observed, hu.observed, h], congrArg Scan.st hscan, congrArg Scan.ctl hscan, congrArg Scan.mem hscan⟩

/-- FEED of a stream's first part and then of the rest is FEED of the stream (R121). -/
theorem Fed.append {m : Nat} {u : State} (h : Fed s off m t) (hrange : off + m + n ≤ s.params.ibufSize)
    (h' : Fed t (off + m) n u) : Fed s off (m + n) u := by
  have hbytes : readBufBytes s .ibuf off (m + n) = readBufBytes s .ibuf off m ++ readBufBytes t .ibuf (off + m) n := by
    rw [h.ibuf _ _ hrange, readBufBytes, Memory.readBytes_add, Nat.add_assoc]
    rfl
  refine ⟨h'.inv, h'.params.trans h.params, fun a k hk => ?_, ?_, ?_⟩
  · exact (h'.ibuf a k (by rwa [h.params])).trans (h.ibuf a k hk)
  · rw [hbytes, feedBytes_append, ← h.scan, h'.scan, h.params]
  · rw [hbytes, feedBytes_append, ← h.scan, h'.observed, h.observed, h.params, List.append_assoc]

/-! ### The obligations -/

/-- Settles O57: both ways are the fold over the same bytes. -/
theorem chunkingDoesNotChangeTheOutcomes : Obligations.ChunkingDoesNotChangeTheOutcomes := by
  intro s off m n hinv hclean hrange
  obtain ⟨t, ht, hrunt⟩ := exists_fed (off := off) (len := m + n) hinv hclean (by omega)
  obtain ⟨v, hv, hrunv⟩ := exists_fed (off := off) (len := m) hinv hclean (by omega)
  obtain ⟨u, hu, hrunu⟩ := exists_fed (off := off + m) (len := n) hv.inv (hv.seekClean hclean) (by rwa [hv.params])
  obtain ⟨k, hrunt⟩ := hrunt []
  obtain ⟨j, hrunv⟩ := hrunv [.feed (off + m) n]
  obtain ⟨i, hrunu⟩ := hrunu []
  have hequal := fed_eq_of_fold_eq ht (hv.append hrange hu) rfl
  exact ⟨withHost t [], withHost u [], hrunt.reaches, (hrunv.trans hrunu).reaches, rfl, rfl, hequal⟩

theorem feedBytes_doubled_flag (hp : 1 ≤ p.posMax) (hw : w.SeekClean p) (x y : List Byte) :
    feedBytes p (x ++ [p.flag, p.flag] ++ y) w = feedBytes p (x ++ [p.flag] ++ y) w := by
  simp only [List.append_assoc, List.cons_append, List.nil_append]
  rw [feedBytes_append, feedBytes_append, feedBytes_flag_flag hp (hw.feedBytes x)]

/-- Settles O58: the doubled FLAG does nothing in the fold. -/
theorem doubledFlagsCollapse : Obligations.DoubledFlagsCollapse := by
  intro s off off' x y hinv hclean hholds hrange hholds' hrange'
  have hlen : (x ++ [s.params.flag] ++ y).length = x.length + 1 + y.length := by simp; omega
  have hlen' : (x ++ [s.params.flag, s.params.flag] ++ y).length = x.length + 2 + y.length := by simp; omega
  rw [BufHolds, hlen] at hholds
  rw [BufHolds, hlen'] at hholds'
  obtain ⟨t, ht, hrunt⟩ := exists_fed hinv hclean hrange
  obtain ⟨u, hu, hrunu⟩ := exists_fed hinv hclean hrange'
  obtain ⟨k, hrunt⟩ := hrunt []
  obtain ⟨j, hrunu⟩ := hrunu []
  have hequal := fed_eq_of_fold_eq ht hu (by
    rw [hholds, hholds', feedBytes_doubled_flag (w := scanOf s) (one_le_posMax hinv.params) hclean])
  exact ⟨withHost t [], withHost u [], hrunt.reaches, hrunu.reaches, rfl, rfl, hequal⟩

/-! ### Frames end to end -/

/-- Frames with one shared FLAG between neighbours: each without its opening FLAG, behind the first one's. -/
def framesTail (p : Params) (frames : List (Kind × BitVec 3 × List Byte)) : List Byte :=
  frames.flatMap fun f => (wireFrame p f.1 f.2.1 f.2.2).tail

/-- What the host observes of a frame that is received whole (R71, R123). -/
def frameObservations (f : Kind × BitVec 3 × List Byte) : List Word :=
  (packCtl ⟨f.1, f.2.1⟩).setWidth 32 :: BitVec.ofNat 32 f.2.2.length :: f.2.2.map (BitVec.setWidth 32)

/-- No FLAG follows the closing FLAG of a frame: the next byte is an address, if there is one. -/
theorem nextIsFlag_framesTail (p : Params) (frames : List (Kind × BitVec 3 × List Byte)) :
    nextIsFlag p (framesTail p frames) = false := by
  cases frames with
  | nil => rfl
  | cons f fs =>
    obtain ⟨haddr, -⟩ := not_reserved_of_escEncodeOne (escEncodeOne_address p)
    rw [framesTail, List.flatMap_cons, wireFrame_eq, frameBodyBytes_eq]
    exact Bool.eq_false_iff.2 (mt (nextIsFlag_cons _ _ _).1 haddr)

theorem frameOutcome_receivedFrame {f : Kind × BitVec 3 × List Byte} (hwf : Memory.wf w.mem = true)
    (hlaw : CrcLawAt p (frameContents f.1 f.2.1 f.2.2)) :
    frameOutcome p (endedAt (receivedFrame p f.1 f.2.1 f.2.2 w)) = frameObservations f := by
  have hlen : (endedAt (receivedFrame p f.1 f.2.1 f.2.2 w)).st.out - p.fcsLen = f.2.2.length := by
    show (receivedFrame p f.1 f.2.1 f.2.2 w).st.out - p.fcsLen = _
    rw [receivedFrame_out, Nat.add_sub_cancel]
  have hpayload : Memory.readBytes (endedAt (receivedFrame p f.1 f.2.1 f.2.2 w)).mem (bufBase .dbuf) f.2.2.length = f.2.2 :=
    receivedFrame_payload hwf
  rw [frameOutcome, if_pos (frameValid_receivedFrame hlaw), hlen, hpayload]
  rfl

/-- From `INIT_STATE` the fold observes each frame in its order (R123). -/
theorem feedBytes_frames {frames : List (Kind × BitVec 3 × List Byte)} (hp : 1 ≤ p.posMax) (hst : w.st = initState p)
    (hwf : Memory.wf w.mem = true) (hlen : (p.flag :: framesTail p frames).length ≤ p.posMax)
    (hall : ∀ f ∈ frames, CrcLawAt p (frameContents f.1 f.2.1 f.2.2) ∧ f.2.2.length + p.fcsLen ≤ p.dbufSize) :
    (feedBytes p (p.flag :: framesTail p frames) w).2 = frames.flatMap frameObservations := by
  induction frames generalizing w with
  | nil => exact congrArg Prod.snd (feedBytes_cons_next (scanByte_flag_of_initState hp hst) [])
  | cons f fs ih =>
    obtain ⟨⟨hlaw, hroom⟩, hall⟩ := List.forall_mem_cons.1 hall
    have hchunk : p.flag :: framesTail p (f :: fs) = wireFrame p f.1 f.2.1 f.2.2 ++ framesTail p fs := rfl
    have hclosing : (wireFrame p f.1 f.2.1 f.2.2 ++ framesTail p fs).drop ((wireFrame p f.1 f.2.1 f.2.2).length - 1) =
        p.flag :: framesTail p fs := by
      simp [wireFrame_eq]
    rw [hchunk, List.length_append] at hlen
    have hrest : (p.flag :: framesTail p fs).length ≤ p.posMax := by
      have hone : 1 ≤ (wireFrame p f.1 f.2.1 f.2.2).length := by simp [wireFrame_eq]
      rw [List.length_cons]
      omega
    rw [hchunk, feedBytes_eq_goOn hp fun _ => hst, scan_wireFrame hst (by omega) hroom (nextIsFlag_framesTail p fs),
      ScanEnd.goOn, hclosing, frameOutcome_receivedFrame hwf hlaw, List.flatMap_cons]
    have hnext := ih (w := resetScan p (endedAt (receivedFrame p f.1 f.2.1 f.2.2 w))) rfl (Memory.wf_writeBytes hwf _ _)
      hrest hall
    exact congrArg (frameObservations f ++ ·) hnext

/-- Settles O56: FEED is the fold, which observes the frames in their order. -/
theorem backToBackFramesAllDecode : Obligations.BackToBackFramesAllDecode := by
  intro s off len frames hinv hst hhost hrange hholds hlen hall
  have hclean : s.SeekClean := fun _ => hst
  have hbytes : readBufBytes s .ibuf off len = s.params.flag :: framesTail s.params frames := by
    rw [hlen]
    exact hholds
  have hsize : len ≤ s.params.posMax := by
    have := size_lt hinv.params
    rw [Params.posMax]
    omega
  obtain ⟨t, ht, hrun⟩ := exists_fed hinv hclean hrange
  obtain ⟨n, hrun⟩ := hrun []
  have hs : withHost s [.feed off len] = s := by rw [← hhost]; rfl
  rw [hs] at hrun
  refine ⟨withHost t [], hrun.reaches, rfl, ?_⟩
  rw [withHost_observed, ht.observed, hbytes,
    feedBytes_frames (w := scanOf s) (one_le_posMax hinv.params) hst hinv.memWf (hlen ▸ hsize) hall]
  rfl

end Sys2Proof.Machine
end
